-- ==== Sys2Proof/Word.lean ====
section
/-!
DEFINITION. The word types of the block (00_scope.md R10, R12, R13): `XLEN = 32`, 32 general registers, 12-bit CSR
addresses, bytes. Nothing else is here: every operation a test could show wrong stands under Machine/ or in Decode.lean.
-/

namespace Sys2Proof

/-- A value of `XLEN = 32` bits: a general register, the pc, a CSR value, an encoding (R10, R13). -/
abbrev Word := BitVec 32

/-- One byte of Memory (R60). -/
abbrev Byte := BitVec 8

/-- A register field of an encoding, an index `0..31` (R21, R91). -/
abbrev RegIdx := BitVec 5

/-- The `csr` field of an encoding, an unsigned 12-bit address (R99). -/
abbrev CsrAddr := BitVec 12

end Sys2Proof
end

