-- ==== Sys2Proof/Syntax.lean ====
section
/-!
DEFINITION. The instructions as syntax: one constructor for each of the 55 rows of spec/opcode_table.json, in the table's order
(30_encoding.md R113). The arguments are the operands in the order of R104. An immediate is the field's own bits: 12 bits for
formats I and S (R93, R95), 13 bits with bit 0 for format B (R96), 20 bits for format U (R97), 21 bits with bit 0 for format J
(R98). The fence words carry their ignored fields too (R101), so that an instruction has every bit of its word (log 14).
-/

namespace Sys2Proof

inductive Instr where
  -- format U (R97) and format J (R98)
  | lui    (rd : RegIdx) (imm20 : BitVec 20)
  | auipc  (rd : RegIdx) (imm20 : BitVec 20)
  | jal    (rd : RegIdx) (imm : BitVec 21)
  | jalr   (rd rs1 : RegIdx) (imm : BitVec 12)
  -- format B (R96)
  | beq    (rs1 rs2 : RegIdx) (imm : BitVec 13)
  | bne    (rs1 rs2 : RegIdx) (imm : BitVec 13)
  | blt    (rs1 rs2 : RegIdx) (imm : BitVec 13)
  | bge    (rs1 rs2 : RegIdx) (imm : BitVec 13)
  | bltu   (rs1 rs2 : RegIdx) (imm : BitVec 13)
  | bgeu   (rs1 rs2 : RegIdx) (imm : BitVec 13)
  -- loads, format I (R93)
  | lb     (rd rs1 : RegIdx) (imm : BitVec 12)
  | lh     (rd rs1 : RegIdx) (imm : BitVec 12)
  | lw     (rd rs1 : RegIdx) (imm : BitVec 12)
  | lbu    (rd rs1 : RegIdx) (imm : BitVec 12)
  | lhu    (rd rs1 : RegIdx) (imm : BitVec 12)
  -- stores, format S (R95)
  | sb     (rs2 rs1 : RegIdx) (imm : BitVec 12)
  | sh     (rs2 rs1 : RegIdx) (imm : BitVec 12)
  | sw     (rs2 rs1 : RegIdx) (imm : BitVec 12)
  -- register-immediate, format I (R93)
  | addi   (rd rs1 : RegIdx) (imm : BitVec 12)
  | slti   (rd rs1 : RegIdx) (imm : BitVec 12)
  | sltiu  (rd rs1 : RegIdx) (imm : BitVec 12)
  | xori   (rd rs1 : RegIdx) (imm : BitVec 12)
  | ori    (rd rs1 : RegIdx) (imm : BitVec 12)
  | andi   (rd rs1 : RegIdx) (imm : BitVec 12)
  -- shifts by immediate, format SH (R94)
  | slli   (rd rs1 : RegIdx) (shamt : BitVec 5)
  | srli   (rd rs1 : RegIdx) (shamt : BitVec 5)
  | srai   (rd rs1 : RegIdx) (shamt : BitVec 5)
  -- register-register, format R (R92)
  | add    (rd rs1 rs2 : RegIdx)
  | sub    (rd rs1 rs2 : RegIdx)
  | sll    (rd rs1 rs2 : RegIdx)
  | slt    (rd rs1 rs2 : RegIdx)
  | sltu   (rd rs1 rs2 : RegIdx)
  | xor    (rd rs1 rs2 : RegIdx)
  | srl    (rd rs1 rs2 : RegIdx)
  | sra    (rd rs1 rs2 : RegIdx)
  | or     (rd rs1 rs2 : RegIdx)
  | and    (rd rs1 rs2 : RegIdx)
  -- format FENCE (R101): every field is ignored
  | fence  (pred succ fm : BitVec 4) (rs1 rd : RegIdx)
  | fenceI (imm : BitVec 12) (rs1 rd : RegIdx)
  -- format N (R102)
  | ecall
  | ebreak
  -- format CSRR (R99) and format CSRI (R100)
  | csrrw  (rd : RegIdx) (csr : CsrAddr) (rs1 : RegIdx)
  | csrrs  (rd : RegIdx) (csr : CsrAddr) (rs1 : RegIdx)
  | csrrc  (rd : RegIdx) (csr : CsrAddr) (rs1 : RegIdx)
  | csrrwi (rd : RegIdx) (csr : CsrAddr) (uimm : BitVec 5)
  | csrrsi (rd : RegIdx) (csr : CsrAddr) (uimm : BitVec 5)
  | csrrci (rd : RegIdx) (csr : CsrAddr) (uimm : BitVec 5)
  -- multiply and divide, format R (R92)
  | mul    (rd rs1 rs2 : RegIdx)
  | mulh   (rd rs1 rs2 : RegIdx)
  | mulhsu (rd rs1 rs2 : RegIdx)
  | mulhu  (rd rs1 rs2 : RegIdx)
  | div    (rd rs1 rs2 : RegIdx)
  | divu   (rd rs1 rs2 : RegIdx)
  | rem    (rd rs1 rs2 : RegIdx)
  | remu   (rd rs1 rs2 : RegIdx)
  deriving DecidableEq, Repr

end Sys2Proof
end

