-- ==== Sys2Proof/Decode.lean ====
section
/-!
DEFINITION. Decoding and encoding (30_encoding.md). The decoder is the registry of 40_dispatch.md R130 to R137: a catalog of entries,
each a template with its match and mask; `resolve` finds the entry a word matches, `decodeOperands` is the operand tuple of
its format, and the entry's constructor makes the instruction. The encoder is written from the format tables R92 to R102.
-/

namespace Sys2Proof

/-! ## Fields (R91 to R100) -/

def fieldOpcode (w : Word) : BitVec 7 := w.extractLsb' 0 7
def fieldRd (w : Word) : RegIdx := w.extractLsb' 7 5
def fieldFunct3 (w : Word) : BitVec 3 := w.extractLsb' 12 3
def fieldRs1 (w : Word) : RegIdx := w.extractLsb' 15 5
def fieldRs2 (w : Word) : RegIdx := w.extractLsb' 20 5
def fieldFunct7 (w : Word) : BitVec 7 := w.extractLsb' 25 7

/-- `w[31:20]` of format I (R93). -/
def fieldImmI (w : Word) : BitVec 12 := w.extractLsb' 20 12

/-- `w[31:20]` of the CSR formats, the same bits read as a CSR address (R99). -/
def fieldCsr (w : Word) : CsrAddr := w.extractLsb' 20 12

/-- `w[24:20]` of format SH (R94). -/
def fieldShamt (w : Word) : BitVec 5 := w.extractLsb' 20 5

/-- `w[19:15]` of format CSRI (R100). -/
def fieldUimm (w : Word) : BitVec 5 := w.extractLsb' 15 5

/-- The two runs of a format S immediate, high run first: `w[31:25]`, then `w[11:7]` (R95). -/
def fieldImmS (w : Word) : BitVec 12 := w.extractLsb' 25 7 ++ w.extractLsb' 7 5

/-- The format B offset: bit 31, bit 7, bits 30:25, bits 11:8, and a 0 (R96). -/
def fieldImmB (w : Word) : BitVec 13 :=
  w.extractLsb' 31 1 ++ w.extractLsb' 7 1 ++ w.extractLsb' 25 6 ++ w.extractLsb' 8 4 ++ 0#1

/-- The format U field `w[31:12]` (R97). -/
def fieldImm20 (w : Word) : BitVec 20 := w.extractLsb' 12 20

/-- The format J offset: bit 31, bits 19:12, bit 20, bits 30:21, and a 0 (R98). -/
def fieldImmJ (w : Word) : BitVec 21 :=
  w.extractLsb' 31 1 ++ w.extractLsb' 12 8 ++ w.extractLsb' 20 1 ++ w.extractLsb' 21 10 ++ 0#1

/-! ## Formats and operand tuples (R92 to R104) -/

/-- The eleven instruction formats (R92 to R102). -/
inductive Format where
  | R | I | SH | S | B | U | J | CSRR | CSRI | FENCE | N
  deriving DecidableEq, Repr

structure OperandsR where
  rd : RegIdx
  rs1 : RegIdx
  rs2 : RegIdx

structure OperandsI where
  rd : RegIdx
  rs1 : RegIdx
  imm : BitVec 12

structure OperandsSH where
  rd : RegIdx
  rs1 : RegIdx
  shamt : BitVec 5

structure OperandsS where
  rs2 : RegIdx
  rs1 : RegIdx
  imm : BitVec 12

structure OperandsB where
  rs1 : RegIdx
  rs2 : RegIdx
  imm : BitVec 13

structure OperandsU where
  rd : RegIdx
  imm20 : BitVec 20

structure OperandsJ where
  rd : RegIdx
  imm : BitVec 21

structure OperandsCSRR where
  rd : RegIdx
  csr : CsrAddr
  rs1 : RegIdx

structure OperandsCSRI where
  rd : RegIdx
  csr : CsrAddr
  uimm : BitVec 5

/-- The operands `pred` and `succ` of FENCE, and the ignored fields, kept so that no bit of the word is lost (R101; log 14). -/
structure OperandsFENCE where
  pred : BitVec 4
  succ : BitVec 4
  fm : BitVec 4
  rs1 : RegIdx
  rd : RegIdx

/-- The operand tuple of each format, in the fixed order of R104. -/
abbrev OperandsOf : Format → Type
  | .R => OperandsR
  | .I => OperandsI
  | .SH => OperandsSH
  | .S => OperandsS
  | .B => OperandsB
  | .U => OperandsU
  | .J => OperandsJ
  | .CSRR => OperandsCSRR
  | .CSRI => OperandsCSRI
  | .FENCE => OperandsFENCE
  | .N => Unit

/-- `decode(w, format)` (R103): pure and total, defined for every word and every format. -/
def decodeOperands (w : Word) : (f : Format) → OperandsOf f
  | .R => ⟨fieldRd w, fieldRs1 w, fieldRs2 w⟩
  | .I => ⟨fieldRd w, fieldRs1 w, fieldImmI w⟩
  | .SH => ⟨fieldRd w, fieldRs1 w, fieldShamt w⟩
  | .S => ⟨fieldRs2 w, fieldRs1 w, fieldImmS w⟩
  | .B => ⟨fieldRs1 w, fieldRs2 w, fieldImmB w⟩
  | .U => ⟨fieldRd w, fieldImm20 w⟩
  | .J => ⟨fieldRd w, fieldImmJ w⟩
  | .CSRR => ⟨fieldRd w, fieldCsr w, fieldRs1 w⟩
  | .CSRI => ⟨fieldRd w, fieldCsr w, fieldUimm w⟩
  | .FENCE => ⟨w.extractLsb' 24 4, w.extractLsb' 20 4, w.extractLsb' 28 4, fieldRs1 w, fieldRd w⟩
  | .N => ()

/-! ## Templates (R107, R108) -/

/-- One character of a template: a fixed bit, an operand letter, or an ignored bit (R107). -/
inductive TemplateSym where
  | zero | one | f | s | t | x
  deriving DecidableEq, Repr

/-- A template, bit 31 first (R107). -/
abbrev Template := List TemplateSym

/-- `n` fixed bits that hold the number `v`, most significant first. -/
def fixedBits : Nat → Nat → Template
  | 0, _ => []
  | n + 1, v => (if v.testBit n then .one else .zero) :: fixedBits n v

def templateR (funct7 funct3 opcode : Nat) : Template :=
  fixedBits 7 funct7 ++ List.replicate 5 .t ++ List.replicate 5 .s ++ fixedBits 3 funct3 ++ List.replicate 5 .f
    ++ fixedBits 7 opcode

def templateI (funct3 opcode : Nat) : Template :=
  List.replicate 12 .t ++ List.replicate 5 .s ++ fixedBits 3 funct3 ++ List.replicate 5 .f ++ fixedBits 7 opcode

def templateS (funct3 opcode : Nat) : Template :=
  List.replicate 7 .t ++ List.replicate 5 .f ++ List.replicate 5 .s ++ fixedBits 3 funct3 ++ List.replicate 5 .t
    ++ fixedBits 7 opcode

def templateB (funct3 opcode : Nat) : Template :=
  List.replicate 7 .t ++ List.replicate 5 .s ++ List.replicate 5 .f ++ fixedBits 3 funct3 ++ List.replicate 5 .t
    ++ fixedBits 7 opcode

def templateU (opcode : Nat) : Template :=
  List.replicate 20 .s ++ List.replicate 5 .f ++ fixedBits 7 opcode

def templateCsr (funct3 : Nat) : Template :=
  List.replicate 12 .s ++ List.replicate 5 .t ++ fixedBits 3 funct3 ++ List.replicate 5 .f ++ fixedBits 7 0b1110011

/-- FENCE: `xxxxffffssssxxxxx000xxxxx0001111` (R113). -/
def templateFence : Template :=
  List.replicate 4 .x ++ List.replicate 4 .f ++ List.replicate 4 .s ++ List.replicate 5 .x ++ fixedBits 3 0
    ++ List.replicate 5 .x ++ fixedBits 7 0b0001111

/-- FENCE.I: `xxxxxxxxxxxxxxxxx001xxxxx0001111` (R113). -/
def templateFenceI : Template :=
  List.replicate 17 .x ++ fixedBits 3 1 ++ List.replicate 5 .x ++ fixedBits 7 0b0001111

/-- The number whose bit is 1 where `p` holds of the template's character. -/
def Template.number (p : TemplateSym → Bool) (t : Template) : Nat :=
  t.foldl (fun n c => 2 * n + (p c).toNat) 0

/-- `mask`: bit `i` is 1 where the template has `0` or `1` (R108). -/
def Template.mask (t : Template) : Word := BitVec.ofNat 32 (t.number fun c => c == .zero || c == .one)

/-- `match`: bit `i` is the template's digit where it has one, else 0 (R108). -/
def Template.pattern (t : Template) : Word := BitVec.ofNat 32 (t.number fun c => c == .one)

/-! ## The Instruction Registry (R130 to R137) -/

/-- A catalog entry (R130): mnemonic, format, template with its match and mask, and the constructor that the operand tuple goes
to. Its semantic handler is the arm of `Sys2Proof.Machine.exec` for that constructor. -/
structure CatalogEntry where
  mnemonic : String
  format   : Format
  pattern  : Word
  mask     : Word
  template : Template
  build    : OperandsOf format → Instr

abbrev Catalog := List CatalogEntry

/-- "A word `w` matches the template iff `(w & mask) = match`" (R108). -/
def CatalogEntry.accepts (e : CatalogEntry) (w : Word) : Bool := w &&& e.mask == e.pattern

/-- The instruction that the entry reads from a word (R138). -/
def CatalogEntry.instr (e : CatalogEntry) (w : Word) : Instr := e.build (decodeOperands w e.format)

/-- What a format declares of its 32 bits, bit 31 first: `none` for a bit the instruction fixes, else the letter of its operand or
`x` (R92 to R102, R104). FENCE has two: its fields are operands in FENCE and ignored in FENCE.I. -/
def Format.shapes : Format → List (List (Option TemplateSym))
  | .R => [(templateR 0 0 0).map shape]
  | .I => [(templateI 0 0).map shape]
  | .SH => [(templateR 0 0 0).map shape]
  | .S => [(templateS 0 0).map shape]
  | .B => [(templateB 0 0).map shape]
  | .U => [(templateU 0).map shape]
  | .J => [(templateU 0).map shape]
  | .CSRR => [(templateCsr 0).map shape]
  | .CSRI => [(templateCsr 0).map shape]
  | .FENCE => [templateFence.map shape, templateFenceI.map shape]
  | .N => [(fixedBits 32 0).map shape]
where
  /-- A fixed bit is `none`, whatever its digit. -/
  shape : TemplateSym → Option TemplateSym
    | .zero => none
    | .one => none
    | c => some c

/-- The registration check of R132, and that match and mask are those of the template (R108). -/
def CatalogEntry.wellFormed (e : CatalogEntry) : Bool :=
  e.format.shapes.contains (e.template.map Format.shapes.shape)
    && e.mask == e.template.mask && e.pattern == e.template.pattern

/-- "Two entries `a` and `b` collide iff `((a.match ^ b.match) & a.mask & b.mask) = 0`" (R133). -/
def CatalogEntry.collides (a b : CatalogEntry) : Bool := (a.pattern ^^^ b.pattern) &&& a.mask &&& b.mask == 0#32

/-- A configuration error of the registry, fatal at build time and never a fault (R134). The names are the model's (DESIGN CHOICE,
log 26). -/
inductive RegistryError where
  | badTemplate (mnemonic : String)
  | collision (mnemonic other : String)
  deriving DecidableEq, Repr

/-- `register(instruction)` (R132, R133): refuses an entry whose template does not fit its format, and one that collides. DESIGN
CHOICE (log 26): the format check comes first, and of the entries it collides with the earliest is named. -/
def register (catalog : Catalog) (e : CatalogEntry) : Except RegistryError Catalog :=
  if !e.wellFormed then .error (.badTemplate e.mnemonic)
  else match catalog.find? e.collides with
    | some other => .error (.collision e.mnemonic other.mnemonic)
    | none => .ok (catalog ++ [e])

/-- The registry built from a list of entries, registered in their order, or the first error (R134; log 26). -/
def buildRegistry (rows : Catalog) : Except RegistryError Catalog := rows.foldlM register []

/-! ## `CATALOG_DEFAULT` (R113), in the order of the table -/

/-- Upper immediate and jumps (R97, R98, R93). -/
def catalogUpper : Catalog :=
  [⟨"lui", .U, 0x00000037#32, 0x0000007F#32, templateU 0b0110111, fun o => .lui o.rd o.imm20⟩,
   ⟨"auipc", .U, 0x00000017#32, 0x0000007F#32, templateU 0b0010111, fun o => .auipc o.rd o.imm20⟩,
   ⟨"jal", .J, 0x0000006F#32, 0x0000007F#32, templateU 0b1101111, fun o => .jal o.rd o.imm⟩,
   ⟨"jalr", .I, 0x00000067#32, 0x0000707F#32, templateI 0b000 0b1100111, fun o => .jalr o.rd o.rs1 o.imm⟩]

/-- Branches (R96, R111). -/
def catalogBranch : Catalog :=
  [⟨"beq", .B, 0x00000063#32, 0x0000707F#32, templateB 0b000 0b1100011, fun o => .beq o.rs1 o.rs2 o.imm⟩,
   ⟨"bne", .B, 0x00001063#32, 0x0000707F#32, templateB 0b001 0b1100011, fun o => .bne o.rs1 o.rs2 o.imm⟩,
   ⟨"blt", .B, 0x00004063#32, 0x0000707F#32, templateB 0b100 0b1100011, fun o => .blt o.rs1 o.rs2 o.imm⟩,
   ⟨"bge", .B, 0x00005063#32, 0x0000707F#32, templateB 0b101 0b1100011, fun o => .bge o.rs1 o.rs2 o.imm⟩,
   ⟨"bltu", .B, 0x00006063#32, 0x0000707F#32, templateB 0b110 0b1100011, fun o => .bltu o.rs1 o.rs2 o.imm⟩,
   ⟨"bgeu", .B, 0x00007063#32, 0x0000707F#32, templateB 0b111 0b1100011, fun o => .bgeu o.rs1 o.rs2 o.imm⟩]

/-- Loads (R93, R111). -/
def catalogLoad : Catalog :=
  [⟨"lb", .I, 0x00000003#32, 0x0000707F#32, templateI 0b000 0b0000011, fun o => .lb o.rd o.rs1 o.imm⟩,
   ⟨"lh", .I, 0x00001003#32, 0x0000707F#32, templateI 0b001 0b0000011, fun o => .lh o.rd o.rs1 o.imm⟩,
   ⟨"lw", .I, 0x00002003#32, 0x0000707F#32, templateI 0b010 0b0000011, fun o => .lw o.rd o.rs1 o.imm⟩,
   ⟨"lbu", .I, 0x00004003#32, 0x0000707F#32, templateI 0b100 0b0000011, fun o => .lbu o.rd o.rs1 o.imm⟩,
   ⟨"lhu", .I, 0x00005003#32, 0x0000707F#32, templateI 0b101 0b0000011, fun o => .lhu o.rd o.rs1 o.imm⟩]

/-- Stores (R95, R111). -/
def catalogStore : Catalog :=
  [⟨"sb", .S, 0x00000023#32, 0x0000707F#32, templateS 0b000 0b0100011, fun o => .sb o.rs2 o.rs1 o.imm⟩,
   ⟨"sh", .S, 0x00001023#32, 0x0000707F#32, templateS 0b001 0b0100011, fun o => .sh o.rs2 o.rs1 o.imm⟩,
   ⟨"sw", .S, 0x00002023#32, 0x0000707F#32, templateS 0b010 0b0100011, fun o => .sw o.rs2 o.rs1 o.imm⟩]

/-- Register-immediate arithmetic and shifts (R93, R94, R110). -/
def catalogImm : Catalog :=
  [⟨"addi", .I, 0x00000013#32, 0x0000707F#32, templateI 0b000 0b0010011, fun o => .addi o.rd o.rs1 o.imm⟩,
   ⟨"slti", .I, 0x00002013#32, 0x0000707F#32, templateI 0b010 0b0010011, fun o => .slti o.rd o.rs1 o.imm⟩,
   ⟨"sltiu", .I, 0x00003013#32, 0x0000707F#32, templateI 0b011 0b0010011, fun o => .sltiu o.rd o.rs1 o.imm⟩,
   ⟨"xori", .I, 0x00004013#32, 0x0000707F#32, templateI 0b100 0b0010011, fun o => .xori o.rd o.rs1 o.imm⟩,
   ⟨"ori", .I, 0x00006013#32, 0x0000707F#32, templateI 0b110 0b0010011, fun o => .ori o.rd o.rs1 o.imm⟩,
   ⟨"andi", .I, 0x00007013#32, 0x0000707F#32, templateI 0b111 0b0010011, fun o => .andi o.rd o.rs1 o.imm⟩,
   ⟨"slli", .SH, 0x00001013#32, 0xFE00707F#32, templateR 0b0000000 0b001 0b0010011, fun o => .slli o.rd o.rs1 o.shamt⟩,
   ⟨"srli", .SH, 0x00005013#32, 0xFE00707F#32, templateR 0b0000000 0b101 0b0010011, fun o => .srli o.rd o.rs1 o.shamt⟩,
   ⟨"srai", .SH, 0x40005013#32, 0xFE00707F#32, templateR 0b0100000 0b101 0b0010011, fun o => .srai o.rd o.rs1 o.shamt⟩]

/-- Register-register arithmetic (R92, R110). -/
def catalogReg : Catalog :=
  [⟨"add", .R, 0x00000033#32, 0xFE00707F#32, templateR 0b0000000 0b000 0b0110011, fun o => .add o.rd o.rs1 o.rs2⟩,
   ⟨"sub", .R, 0x40000033#32, 0xFE00707F#32, templateR 0b0100000 0b000 0b0110011, fun o => .sub o.rd o.rs1 o.rs2⟩,
   ⟨"sll", .R, 0x00001033#32, 0xFE00707F#32, templateR 0b0000000 0b001 0b0110011, fun o => .sll o.rd o.rs1 o.rs2⟩,
   ⟨"slt", .R, 0x00002033#32, 0xFE00707F#32, templateR 0b0000000 0b010 0b0110011, fun o => .slt o.rd o.rs1 o.rs2⟩,
   ⟨"sltu", .R, 0x00003033#32, 0xFE00707F#32, templateR 0b0000000 0b011 0b0110011, fun o => .sltu o.rd o.rs1 o.rs2⟩,
   ⟨"xor", .R, 0x00004033#32, 0xFE00707F#32, templateR 0b0000000 0b100 0b0110011, fun o => .xor o.rd o.rs1 o.rs2⟩,
   ⟨"srl", .R, 0x00005033#32, 0xFE00707F#32, templateR 0b0000000 0b101 0b0110011, fun o => .srl o.rd o.rs1 o.rs2⟩,
   ⟨"sra", .R, 0x40005033#32, 0xFE00707F#32, templateR 0b0100000 0b101 0b0110011, fun o => .sra o.rd o.rs1 o.rs2⟩,
   ⟨"or", .R, 0x00006033#32, 0xFE00707F#32, templateR 0b0000000 0b110 0b0110011, fun o => .or o.rd o.rs1 o.rs2⟩,
   ⟨"and", .R, 0x00007033#32, 0xFE00707F#32, templateR 0b0000000 0b111 0b0110011, fun o => .and o.rd o.rs1 o.rs2⟩]

/-- Fences and system (R101, R102, R111, R112). -/
def catalogSystem : Catalog :=
  [⟨"fence", .FENCE, 0x0000000F#32, 0x0000707F#32, templateFence, fun o => .fence o.pred o.succ o.fm o.rs1 o.rd⟩,
   ⟨"fence.i", .FENCE, 0x0000100F#32, 0x0000707F#32, templateFenceI, fun o => .fenceI (o.fm ++ o.pred ++ o.succ) o.rs1 o.rd⟩,
   ⟨"ecall", .N, 0x00000073#32, 0xFFFFFFFF#32, fixedBits 32 0b00000000000000000000000001110011, fun _ => .ecall⟩,
   ⟨"ebreak", .N, 0x00100073#32, 0xFFFFFFFF#32, fixedBits 32 0b00000000000100000000000001110011, fun _ => .ebreak⟩]

/-- CSR instructions (R99, R100, R112). -/
def catalogCsr : Catalog :=
  [⟨"csrrw", .CSRR, 0x00001073#32, 0x0000707F#32, templateCsr 0b001, fun o => .csrrw o.rd o.csr o.rs1⟩,
   ⟨"csrrs", .CSRR, 0x00002073#32, 0x0000707F#32, templateCsr 0b010, fun o => .csrrs o.rd o.csr o.rs1⟩,
   ⟨"csrrc", .CSRR, 0x00003073#32, 0x0000707F#32, templateCsr 0b011, fun o => .csrrc o.rd o.csr o.rs1⟩,
   ⟨"csrrwi", .CSRI, 0x00005073#32, 0x0000707F#32, templateCsr 0b101, fun o => .csrrwi o.rd o.csr o.uimm⟩,
   ⟨"csrrsi", .CSRI, 0x00006073#32, 0x0000707F#32, templateCsr 0b110, fun o => .csrrsi o.rd o.csr o.uimm⟩,
   ⟨"csrrci", .CSRI, 0x00007073#32, 0x0000707F#32, templateCsr 0b111, fun o => .csrrci o.rd o.csr o.uimm⟩]

/-- Multiply and divide (R92, R110). -/
def catalogMulDiv : Catalog :=
  [⟨"mul", .R, 0x02000033#32, 0xFE00707F#32, templateR 0b0000001 0b000 0b0110011, fun o => .mul o.rd o.rs1 o.rs2⟩,
   ⟨"mulh", .R, 0x02001033#32, 0xFE00707F#32, templateR 0b0000001 0b001 0b0110011, fun o => .mulh o.rd o.rs1 o.rs2⟩,
   ⟨"mulhsu", .R, 0x02002033#32, 0xFE00707F#32, templateR 0b0000001 0b010 0b0110011, fun o => .mulhsu o.rd o.rs1 o.rs2⟩,
   ⟨"mulhu", .R, 0x02003033#32, 0xFE00707F#32, templateR 0b0000001 0b011 0b0110011, fun o => .mulhu o.rd o.rs1 o.rs2⟩,
   ⟨"div", .R, 0x02004033#32, 0xFE00707F#32, templateR 0b0000001 0b100 0b0110011, fun o => .div o.rd o.rs1 o.rs2⟩,
   ⟨"divu", .R, 0x02005033#32, 0xFE00707F#32, templateR 0b0000001 0b101 0b0110011, fun o => .divu o.rd o.rs1 o.rs2⟩,
   ⟨"rem", .R, 0x02006033#32, 0xFE00707F#32, templateR 0b0000001 0b110 0b0110011, fun o => .rem o.rd o.rs1 o.rs2⟩,
   ⟨"remu", .R, 0x02007033#32, 0xFE00707F#32, templateR 0b0000001 0b111 0b0110011, fun o => .remu o.rd o.rs1 o.rs2⟩]

/-- `CATALOG_DEFAULT`: the 55 instructions (R113). It is the catalog of every block of this model (R10; log 17). -/
def catalog : Catalog :=
  catalogUpper ++ catalogBranch ++ catalogLoad ++ catalogStore ++ catalogImm ++ catalogReg ++ catalogSystem ++ catalogCsr
    ++ catalogMulDiv

/-- `resolve(w)` (R135): the entry of the catalog that the word matches. It reads the word and the catalog, nothing else. -/
def resolve (w : Word) : Option CatalogEntry := catalog.find? fun e => e.accepts w

/-! ## The decoder -/

/-- Why bytes are no instruction, by name. -/
inductive DecodeError where
  /-- The word matches no template: the illegal-instruction condition of R114 and R136. -/
  | noTemplate (w : Word)
  /-- Fewer than the four bytes of a word (R90): no input of the block, which always fetches four (DESIGN CHOICE, log 27). -/
  | truncated (bytes : Nat)
  deriving DecidableEq, Repr

/-- Resolve and decode a word (R135, R103). -/
def decode (w : Word) : Except DecodeError Instr :=
  match resolve w with
  | some e => .ok (e.instr w)
  | none => .error (.noTemplate w)

/-- The word whose bytes, lowest address first, are given: little-endian, for instruction fetch as for data (R63). -/
def wordOfBytes (b0 b1 b2 b3 : Byte) : Word := b3 ++ b2 ++ b1 ++ b0

/-- Decode from bytes, lowest address first; answers the instruction and the bytes after it (R90). -/
def decodeBytes : List Byte → Except DecodeError (Instr × List Byte)
  | b0 :: b1 :: b2 :: b3 :: rest =>
    match decode (wordOfBytes b0 b1 b2 b3) with
    | .ok i => .ok (i, rest)
    | .error e => .error e
  | bytes => .error (.truncated bytes.length)

/-- The host's question: the instruction the decoder reads from a table row's bits, bit 0 the least significant bit of the word,
the bits above `nbits` zero. Every row is one 32-bit word, stored least significant byte first (R63). -/
def decodeTableWord (nbits w : Nat) : Option Instr :=
  let word := BitVec.ofNat 32 (w % 2 ^ nbits)
  match decodeBytes [word.extractLsb' 0 8, word.extractLsb' 8 8, word.extractLsb' 16 8, word.extractLsb' 24 8] with
  | .ok (i, _) => some i
  | .error _ => none

/-! ## The encoder, from the tables of R92 to R102 -/

def encodeR (funct7 : BitVec 7) (funct3 : BitVec 3) (opcode : BitVec 7) (rd rs1 rs2 : RegIdx) : Word :=
  funct7 ++ rs2 ++ rs1 ++ funct3 ++ rd ++ opcode

def encodeI (funct3 : BitVec 3) (opcode : BitVec 7) (rd rs1 : RegIdx) (imm : BitVec 12) : Word :=
  imm ++ rs1 ++ funct3 ++ rd ++ opcode

def encodeS (funct3 : BitVec 3) (opcode : BitVec 7) (rs2 rs1 : RegIdx) (imm : BitVec 12) : Word :=
  imm.extractLsb' 5 7 ++ rs2 ++ rs1 ++ funct3 ++ imm.extractLsb' 0 5 ++ opcode

def encodeB (funct3 : BitVec 3) (opcode : BitVec 7) (rs1 rs2 : RegIdx) (imm : BitVec 13) : Word :=
  imm.extractLsb' 12 1 ++ imm.extractLsb' 5 6 ++ rs2 ++ rs1 ++ funct3 ++ imm.extractLsb' 1 4 ++ imm.extractLsb' 11 1
    ++ opcode

def encodeU (opcode : BitVec 7) (rd : RegIdx) (imm20 : BitVec 20) : Word := imm20 ++ rd ++ opcode

def encodeJ (opcode : BitVec 7) (rd : RegIdx) (imm : BitVec 21) : Word :=
  imm.extractLsb' 20 1 ++ imm.extractLsb' 1 10 ++ imm.extractLsb' 11 1 ++ imm.extractLsb' 12 8 ++ rd ++ opcode

def encodeCsrR (funct3 : BitVec 3) (rd : RegIdx) (csr : CsrAddr) (rs1 : RegIdx) : Word :=
  csr ++ rs1 ++ funct3 ++ rd ++ 0b1110011#7

def encodeCsrI (funct3 : BitVec 3) (rd : RegIdx) (csr : CsrAddr) (uimm : BitVec 5) : Word :=
  csr ++ uimm ++ funct3 ++ rd ++ 0b1110011#7

/-- The word of an instruction. Of a term that is not well formed it drops bit 0 of the offset. -/
def encode : Instr → Word
  | .lui rd imm20 => encodeU 0b0110111 rd imm20
  | .auipc rd imm20 => encodeU 0b0010111 rd imm20
  | .jal rd imm => encodeJ 0b1101111 rd imm
  | .jalr rd rs1 imm => encodeI 0b000 0b1100111 rd rs1 imm
  | .beq rs1 rs2 imm => encodeB 0b000 0b1100011 rs1 rs2 imm
  | .bne rs1 rs2 imm => encodeB 0b001 0b1100011 rs1 rs2 imm
  | .blt rs1 rs2 imm => encodeB 0b100 0b1100011 rs1 rs2 imm
  | .bge rs1 rs2 imm => encodeB 0b101 0b1100011 rs1 rs2 imm
  | .bltu rs1 rs2 imm => encodeB 0b110 0b1100011 rs1 rs2 imm
  | .bgeu rs1 rs2 imm => encodeB 0b111 0b1100011 rs1 rs2 imm
  | .lb rd rs1 imm => encodeI 0b000 0b0000011 rd rs1 imm
  | .lh rd rs1 imm => encodeI 0b001 0b0000011 rd rs1 imm
  | .lw rd rs1 imm => encodeI 0b010 0b0000011 rd rs1 imm
  | .lbu rd rs1 imm => encodeI 0b100 0b0000011 rd rs1 imm
  | .lhu rd rs1 imm => encodeI 0b101 0b0000011 rd rs1 imm
  | .sb rs2 rs1 imm => encodeS 0b000 0b0100011 rs2 rs1 imm
  | .sh rs2 rs1 imm => encodeS 0b001 0b0100011 rs2 rs1 imm
  | .sw rs2 rs1 imm => encodeS 0b010 0b0100011 rs2 rs1 imm
  | .addi rd rs1 imm => encodeI 0b000 0b0010011 rd rs1 imm
  | .slti rd rs1 imm => encodeI 0b010 0b0010011 rd rs1 imm
  | .sltiu rd rs1 imm => encodeI 0b011 0b0010011 rd rs1 imm
  | .xori rd rs1 imm => encodeI 0b100 0b0010011 rd rs1 imm
  | .ori rd rs1 imm => encodeI 0b110 0b0010011 rd rs1 imm
  | .andi rd rs1 imm => encodeI 0b111 0b0010011 rd rs1 imm
  | .slli rd rs1 shamt => encodeR 0b0000000 0b001 0b0010011 rd rs1 shamt
  | .srli rd rs1 shamt => encodeR 0b0000000 0b101 0b0010011 rd rs1 shamt
  | .srai rd rs1 shamt => encodeR 0b0100000 0b101 0b0010011 rd rs1 shamt
  | .add rd rs1 rs2 => encodeR 0b0000000 0b000 0b0110011 rd rs1 rs2
  | .sub rd rs1 rs2 => encodeR 0b0100000 0b000 0b0110011 rd rs1 rs2
  | .sll rd rs1 rs2 => encodeR 0b0000000 0b001 0b0110011 rd rs1 rs2
  | .slt rd rs1 rs2 => encodeR 0b0000000 0b010 0b0110011 rd rs1 rs2
  | .sltu rd rs1 rs2 => encodeR 0b0000000 0b011 0b0110011 rd rs1 rs2
  | .xor rd rs1 rs2 => encodeR 0b0000000 0b100 0b0110011 rd rs1 rs2
  | .srl rd rs1 rs2 => encodeR 0b0000000 0b101 0b0110011 rd rs1 rs2
  | .sra rd rs1 rs2 => encodeR 0b0100000 0b101 0b0110011 rd rs1 rs2
  | .or rd rs1 rs2 => encodeR 0b0000000 0b110 0b0110011 rd rs1 rs2
  | .and rd rs1 rs2 => encodeR 0b0000000 0b111 0b0110011 rd rs1 rs2
  | .fence pred succ fm rs1 rd => fm ++ pred ++ succ ++ rs1 ++ 0b000#3 ++ rd ++ 0b0001111#7
  | .fenceI imm rs1 rd => imm ++ rs1 ++ 0b001#3 ++ rd ++ 0b0001111#7
  | .ecall => 0x00000073#32
  | .ebreak => 0x00100073#32
  | .csrrw rd csr rs1 => encodeCsrR 0b001 rd csr rs1
  | .csrrs rd csr rs1 => encodeCsrR 0b010 rd csr rs1
  | .csrrc rd csr rs1 => encodeCsrR 0b011 rd csr rs1
  | .csrrwi rd csr uimm => encodeCsrI 0b101 rd csr uimm
  | .csrrsi rd csr uimm => encodeCsrI 0b110 rd csr uimm
  | .csrrci rd csr uimm => encodeCsrI 0b111 rd csr uimm
  | .mul rd rs1 rs2 => encodeR 0b0000001 0b000 0b0110011 rd rs1 rs2
  | .mulh rd rs1 rs2 => encodeR 0b0000001 0b001 0b0110011 rd rs1 rs2
  | .mulhsu rd rs1 rs2 => encodeR 0b0000001 0b010 0b0110011 rd rs1 rs2
  | .mulhu rd rs1 rs2 => encodeR 0b0000001 0b011 0b0110011 rd rs1 rs2
  | .div rd rs1 rs2 => encodeR 0b0000001 0b100 0b0110011 rd rs1 rs2
  | .divu rd rs1 rs2 => encodeR 0b0000001 0b101 0b0110011 rd rs1 rs2
  | .rem rd rs1 rs2 => encodeR 0b0000001 0b110 0b0110011 rd rs1 rs2
  | .remu rd rs1 rs2 => encodeR 0b0000001 0b111 0b0110011 rd rs1 rs2

/-- The bytes of an instruction, lowest address first (R63). -/
def encodeBytes (i : Instr) : List Byte :=
  [(encode i).extractLsb' 0 8, (encode i).extractLsb' 8 8, (encode i).extractLsb' 16 8, (encode i).extractLsb' 24 8]

end Sys2Proof
end

