-- ==== Sys2Proof/Config.lean ====
section
/-!
DEFINITION. What an implementation fixes: the parameters of 00_scope.md R10 as plain data, the shape of a CSR entry (10_state.md R33),
of a program statement (20_memory.md R70), and of the environment's answers (42_system.md R184). The default values stand in
Machine/Defaults.lean. The one value the spec leaves to the platform without a default, the answer of an environment other
than `ENV_MIN`, is the opaque constant `Config.platformEnv`.
-/

namespace Sys2Proof

/-- Self-modifying-code mode `SMC_MODE` (R10, R73, R74). -/
inductive SmcMode where
  | off
  | on
  deriving DecidableEq, Repr

/-- `SMC_OFF_STORE_POLICY`: what a store into the text region does when `SMC_MODE = off` (R10, R74). -/
inductive StorePolicy where
  | reject
  | ignore
  deriving DecidableEq, Repr

/-- The `kind` argument of `MEM_ADMIT` (R66). -/
inductive AccessKind where
  | load
  | store
  | fetch
  deriving DecidableEq, Repr

/-- The access sizes `n` of `MemRead` and `MemWrite`: 1, 2 and 4 bytes (R64, R65). -/
inductive AccessSize where
  | byte
  | half
  | word
  deriving DecidableEq, Repr

/-- A range of accesses that Memory does not admit: every access of this kind and size whose address lies in
`first..last`. `MEM_ADMIT` is true of an access that no range of the configuration covers (R66; log 8). -/
structure RefusedAccess where
  kind  : AccessKind
  size  : AccessSize
  first : Nat
  last  : Nat
  deriving DecidableEq, Repr

/-- The parameters of R10 that a running block reads. `CSR_MAP`, `PRIV_RESET` and the inputs of run setup are arguments of
`Sys2Proof.Machine.setup`. `maxSteps = none` is `unlimited`. -/
structure Config where
  smcMode             : SmcMode
  storePolicy         : StorePolicy
  maxSteps            : Option Nat
  arithFaultOnDivZero : Bool
  refused             : List RefusedAccess
  deriving DecidableEq, Repr

/-- The access policy of a CSR entry (R33). -/
inductive CsrAccess where
  | RO
  | RW
  deriving DecidableEq, Repr

/-- The update behaviour of a CSR entry (R33, R37). -/
inductive CsrUpdate where
  | none
  | stepsLo
  | stepsHi
  deriving DecidableEq, Repr

/-- The static attributes of a CSR entry (R33). The address is a natural number so that R34's check that it is below 4096
says something; `minPriv = 0` means no privilege gate. -/
structure CsrEntry where
  addr    : Nat
  name    : String
  access  : CsrAccess
  minPriv : BitVec 2
  reset   : Word
  update  : CsrUpdate
  deriving DecidableEq, Repr

/-- One statement of `PROGRAM`: its encoding and its source line (R70, R139). -/
structure Statement where
  word : Word
  line : Nat
  deriving DecidableEq, Repr

/-- One write of an environment's `Continue(writes)` (R184): a register write or a `MemWrite` of 1, 2 or 4 bytes. The address
of a halfword or word write is given by its number, so that it is aligned by construction, as `MemWrite` requires (R65). -/
inductive EnvWrite where
  | reg  (r : RegIdx) (v : Word)
  | byte (addr : Word) (v : BitVec 8)
  | half (number : BitVec 31) (v : BitVec 16)
  | word (number : BitVec 30) (v : Word)
  deriving DecidableEq, Repr

/-- The result of a consultation of `ENV` (R184): `Exit(code)`, the code a 32-bit signed integer given by its bits, or
`Continue(writes)`. -/
inductive EnvResult where
  | exit (code : Word)
  | cont (writes : List EnvWrite)
  deriving DecidableEq, Repr, Inhabited

/-- The read-only view that `ENV` has of the block (R184): `x[0..31]`, `pc` and Memory. -/
structure EnvView where
  regs : Vector Word 32
  pc   : Word
  mem  : List Host.Cell
  deriving DecidableEq, Repr

/-- Where the answers of `ENV` come from (R184, R185; log 6): `ENV_MIN`, the default, or a platform's own environment, whose
next answers are `replies` and, when these are used up, those of `Config.platformEnv`. -/
inductive EnvSource where
  | envMin
  | platform (replies : List EnvResult)
  deriving DecidableEq, Repr

/-- The answer of a platform's environment to the ECALL executed after `stepCount` retired steps, given its view. The spec
gives `ENV` an interface and no behaviour (R184), so nothing is known of this constant (log 6). -/
opaque Config.platformEnv : Nat → EnvView → EnvResult

end Sys2Proof
end

