-- ==== Sys2Proof/Machine/Memory.lean ====
section
/-!
DEFINITION. Memory (20_memory.md): one flat space of `2^32` bytes (R60), little-endian (R63), held as a list of (address, byte) pairs
in one canonical form: addresses strictly rising, all below `2^32`, and no entry equal to what an unlisted address reads as.
Wider accesses are built from bytes here and nowhere else.
-/

namespace Sys2Proof.Machine

/-- The listed bytes of Memory. Equal memories are equal lists. -/
abbrev Memory := List Host.Cell

/-- What an unlisted address reads as: 0. DESIGN CHOICE (unsafe, log 3): `MEM_INIT` is OPEN (R10), and the spec's own conventions
read "Memory bytes not listed are 0". -/
def Memory.unlisted : Byte := 0#8

/-- The canonical form. -/
abbrev Memory.wf (m : Memory) : Prop :=
  m.Pairwise (fun c d => c.1 < d.1) ∧ ∀ c ∈ m, c.1 < 2 ^ 32 ∧ c.2 ≠ Memory.unlisted

/-- The byte at an address. -/
def Memory.get : Memory → Nat → Byte
  | [], _ => Memory.unlisted
  | (a, b) :: rest, k => if k = a then b else Memory.get rest k

/-- Put a listed byte in front, unless it is what an unlisted address reads as. -/
def Memory.cons (k : Nat) (v : Byte) (m : Memory) : Memory :=
  if v = Memory.unlisted then m else (k, v) :: m

/-- Write the byte at an address, keeping the canonical form. -/
def Memory.set : Memory → Nat → Byte → Memory
  | [], k, v => Memory.cons k v []
  | (a, b) :: rest, k, v =>
    if k < a then Memory.cons k v ((a, b) :: rest)
    else if k = a then Memory.cons k v rest
    else (a, b) :: Memory.set rest k v

/-- The byte `M[a]` (R64). -/
def Memory.byteAt (m : Memory) (a : Word) : Byte := m.get a.toNat

/-- `M[a] <- v`. -/
def Memory.setByte (m : Memory) (a : Word) (v : Byte) : Memory := m.set a.toNat v

end Sys2Proof.Machine

namespace Sys2Proof

/-- The number `n` of bytes of an access (R64, R68). -/
def AccessSize.bytes : AccessSize → Nat
  | .byte => 1
  | .half => 2
  | .word => 4

/-- The width `8n` of the value of an access (R64). -/
abbrev AccessSize.bits : AccessSize → Nat
  | .byte => 8
  | .half => 16
  | .word => 32

end Sys2Proof

namespace Sys2Proof.Machine

/-- `MemRead(addr, n)`: the `8n`-bit value `{M[addr+n-1], ..., M[addr]}`, the lowest address least significant (R63, R64). -/
def Memory.read (m : Memory) (a : Word) : (n : AccessSize) → BitVec n.bits
  | .byte => m.byteAt a
  | .half => m.byteAt (a + 1) ++ m.byteAt a
  | .word => m.byteAt (a + 3) ++ m.byteAt (a + 2) ++ m.byteAt (a + 1) ++ m.byteAt a

/-- `MemWrite(addr, n, v)`: `M[addr+k] <- v[8k+7:8k]` for `0 <= k < n` (R65). -/
def Memory.write (m : Memory) (a : Word) : (n : AccessSize) → BitVec n.bits → Memory
  | .byte, v => m.setByte a v
  | .half, v => (m.setByte a (v.extractLsb' 0 8)).setByte (a + 1) (v.extractLsb' 8 8)
  | .word, v =>
    (((m.setByte a (v.extractLsb' 0 8)).setByte (a + 1) (v.extractLsb' 8 8)).setByte (a + 2)
      (v.extractLsb' 16 8)).setByte (a + 3) (v.extractLsb' 24 8)

/-- The memory image that a list of (address, byte) pairs describes; of two pairs with one address the later holds (log 21). -/
def Memory.ofImage (image : List (Word × Byte)) : Memory :=
  image.foldl (fun m c => m.setByte c.1 c.2) []

end Sys2Proof.Machine
end

