-- ==== Sys2Proof/Machine/Defaults.lean ====
section
/-!
DEFINITION. The default values of the parameters of 00_scope.md R10: `CSR_MAP_DEFAULT` (10_state.md R41), the map `CSR_MAP_T` of the
spec's worked scenarios (R42), the default configuration, and the values this model gives to the OPEN inputs of run setup that
the spec gives no default for (log 2).
-/

namespace Sys2Proof.Machine

/-- `CSR_MAP_DEFAULT` (R41). -/
def csrMapDefault : List CsrEntry :=
  [⟨0xC00, "cycle", .RO, 0#2, 0#32, .stepsLo⟩,
   ⟨0xC02, "instret", .RO, 0#2, 0#32, .stepsLo⟩,
   ⟨0xC80, "cycleh", .RO, 0#2, 0#32, .stepsHi⟩,
   ⟨0xC82, "instreth", .RO, 0#2, 0#32, .stepsHi⟩,
   ⟨0x340, "mscratch", .RW, 3#2, 0#32, .none⟩]

/-- `CSR_MAP_T` (R42): the default map and the entry `csr10`, reset value 7. The tests use it. -/
def csrMapT : List CsrEntry := csrMapDefault ++ [⟨0x00A, "csr10", .RW, 0#2, 7#32, .none⟩]

/-- The default of every parameter of R10 that has one and that a running block reads. -/
def configDefault : Config where
  smcMode := .off
  storePolicy := .reject
  maxSteps := none
  arithFaultOnDivZero := false
  refused := []

/-- `PRIV_RESET` is OPEN, one of 0, 1, 3 (R10). DESIGN CHOICE (unsafe, log 2): 0, as in the spec's test conventions. -/
def privResetDefault : BitVec 2 := 0#2

/-- `TEXT_BASE` is an OPEN input (R70). DESIGN CHOICE (unsafe, log 2): the example value of the spec's test conventions. -/
def textBaseDefault : Word := 0x00400000#32

/-- `START_PC` is an OPEN input (R311). DESIGN CHOICE (unsafe, log 2): the example value of the spec's test conventions. -/
def startPcDefault : Word := 0x00400000#32

/-- `PROGRAM` is an OPEN input (R310). DESIGN CHOICE (log 2, log 4): empty, no program is invented. -/
def programDefault : List Statement := []

/-- `MEM_INIT` is an OPEN input (R310). DESIGN CHOICE (unsafe, log 2, log 3): nothing listed. -/
def memInitDefault : List (Word × Byte) := []

end Sys2Proof.Machine
end

