-- ==== Sys2Proof/Machine/State.lean ====
section
/-!
DEFINITION. The state of the block (10_state.md R20, R50) as plain data, with the types of its loop state (R44), of the fault record
(60_exceptions.md R270 to R272) and of the Reasons (R288), the reasons a step can have no answer, and `State.reset`.
-/

namespace Sys2Proof.Machine

/-- The closed set of fault kinds (R270). `unavailableCsr` is the CSR File's internal lookup status and is never reported (R273). -/
inductive FaultKind where
  | illegalInstruction
  | misalignedAccess
  | unavailableCsr
  | privilegedAccessViolation
  | arithmeticFault
  | breakpoint
  deriving DecidableEq, Repr

/-- The details of R271, in the order of R270's table. -/
inductive Detail where
  | noTemplate
  | noStatement
  | csrUnavailable
  | csrReadOnly
  | fetch
  | load
  | store
  | csrGate
  | textStore
  | divZero
  | ebreak
  deriving DecidableEq, Repr

/-- The fault record (R272). `(pc, word, line)` is the originating statement; the free-text message is not modelled (R272). -/
structure FaultRecord where
  kind   : FaultKind
  detail : Detail
  pc     : Word
  word   : Option Word
  line   : Option Nat
  value  : Option Word
  deriving DecidableEq, Repr

/-- The Reason enumeration (R288). -/
inductive Reason where
  | normalTermination
  | breakpoint
  | exception
  | stepLimit
  | externalStop
  deriving DecidableEq, Repr

/-- `run_state` (R44). -/
inductive RunState where
  | running
  | halted
  deriving DecidableEq, Repr

/-- A sample of the input `stop_req` (R45, R146). -/
inductive StopReq where
  | none
  | externalStop
  | breakpoint
  deriving DecidableEq, Repr

/-- A request on the Memory port (R64, R65, R320). -/
inductive MemRequest where
  | read (kind : AccessKind) (addr : Word) (size : AccessSize)
  | write (addr : Word) (size : AccessSize) (value : Word)
  deriving DecidableEq, Repr

/-- An entry of the CSR File: its static attributes and `e.value`, "the only part that is state" (R33; log 15). -/
structure CsrReg where
  entry : CsrEntry
  value : Word
  deriving DecidableEq, Repr

/-- Why the block has no step: the two cases in which the spec gives none. Both stop where the spec has no transition, so both are
safe. Every fault kind of R270 is a NEXT state, halted with Reason `EXCEPTION`, and none is here. -/
inductive Fault where
  /-- Raised by fetch, by the loads and by the stores: Memory does not admit the access, and "the block has no step (it is
  stuck; the state is not final and no Reason is produced)" (R66; log 8). Safe. -/
  | accessNotAdmitted (addr : Word) (size : AccessSize) (kind : AccessKind)
  /-- Raised by `step` on a halted run: "`step` is undefined in `HALTED`" (R150; log 9). Safe. -/
  | runHalted
  deriving DecidableEq, Repr

/-- Why an instruction has no meaning. -/
inductive Refusal where
  /-- Raised by `exec` for an instruction whose meaning is not written. Safe. No arm of this model raises it. -/
  | notModelled (mnemonic : String)
  deriving DecidableEq, Repr

/-- The outcome of a step. -/
abbrev Result (σ : Type) := Host.Outcome σ Fault Refusal

/-- The state of the block. From `regs` to `mem`: the state of R20. From `config` to `textBase`: the parameters of R10 and inputs of
run setup, which no step changes (log 1). From `stopReqs` to `memPort`: the model's own fields for the block's interfaces (R320;
log 5, log 6, log 12). -/
structure State where
  regs      : Vector Word 32
  pc        : Word
  priv      : BitVec 2
  csrs      : List CsrReg
  steps64   : BitVec 64
  runState  : RunState
  reason    : Option Reason
  exitCode  : Option Word
  fault     : Option FaultRecord
  stepCount : Nat
  mem       : Memory
  config    : Config
  program   : List Statement
  textBase  : Word
  stopReqs  : List StopReq
  env       : EnvSource
  memPort   : List MemRequest
  deriving DecidableEq, Repr

/-- The CSR File after run setup: each entry's value is its `reset` (R50). -/
def csrFileOf (map : List CsrEntry) : List CsrReg := map.map fun e => ⟨e, e.reset⟩

/-- The machine right after run setup with the default parameters and inputs (R50, R310; log 2). `stop_req` is an input with no
reset value and no default (R311, R10): that no request is to come is a DESIGN CHOICE (unsafe, log 5). -/
def State.reset : State where
  regs := Vector.replicate 32 0#32
  pc := startPcDefault
  priv := privResetDefault
  csrs := csrFileOf csrMapDefault
  steps64 := 0#64
  runState := .running
  reason := none
  exitCode := none
  fault := none
  stepCount := 0
  mem := Memory.ofImage memInitDefault
  config := configDefault
  program := programDefault
  textBase := textBaseDefault
  stopReqs := []
  env := .envMin
  memPort := []

end Sys2Proof.Machine
end

