-- ==== Sys2Proof/Machine/Taxonomy.lean ====
section
/-!
DEFINITION. The taxonomy encoder's tables (60_exceptions.md): the kind of each detail (R271), and the numeric codes of kinds (R270)
and Reasons (R288). It has no state (R281).
-/

namespace Sys2Proof.Machine

/-- The kind of each detail: the table of R271. No detail has kind `unavailableCsr` (R273). -/
def Detail.kind : Detail → FaultKind
  | .noTemplate => .illegalInstruction
  | .noStatement => .illegalInstruction
  | .csrUnavailable => .illegalInstruction
  | .csrReadOnly => .illegalInstruction
  | .fetch => .misalignedAccess
  | .load => .misalignedAccess
  | .store => .misalignedAccess
  | .csrGate => .privilegedAccessViolation
  | .textStore => .privilegedAccessViolation
  | .divZero => .arithmeticFault
  | .ebreak => .breakpoint

/-- The 3-bit code of a fault kind (R270). -/
def FaultKind.code : FaultKind → BitVec 3
  | .illegalInstruction => 0
  | .misalignedAccess => 1
  | .unavailableCsr => 2
  | .privilegedAccessViolation => 3
  | .arithmeticFault => 4
  | .breakpoint => 5

/-- The 3-bit code of a Reason (R288). -/
def Reason.code : Reason → BitVec 3
  | .normalTermination => 0
  | .breakpoint => 1
  | .exception => 2
  | .stepLimit => 3
  | .externalStop => 4

end Sys2Proof.Machine
end

