-- ==== Sys2Proof/Machine/Operands.lean ====
section
/-!
DEFINITION. The operand values of every format (30_encoding.md R105) and the register file's two primitives (10_state.md R21, R22).
-/

namespace Sys2Proof.Machine

/-- `x[i]`: `x[0]` reads 0 always (R21). -/
def readReg (r : RegIdx) (s : State) : Word := if r = 0#5 then 0#32 else s.regs[r.toNat]'r.isLt

/-- `x[i] <- v`: the write of `x[0]` has no effect (R22). -/
def writeReg (r : RegIdx) (v : Word) (s : State) : State :=
  { s with regs := if r = 0#5 then s.regs else s.regs.set r.toNat v r.isLt }

/-- The immediate of formats I and S: `sext_12` (R93, R95). -/
def imm12 (imm : BitVec 12) : Word := imm.signExtend 32

/-- The offset of format B: `sext_13` (R96). -/
def offsetB (imm : BitVec 13) : Word := imm.signExtend 32

/-- The offset of format J: `sext_21` (R98). -/
def offsetJ (imm : BitVec 21) : Word := imm.signExtend 32

/-- The value of format U: `{imm20, 0x000}` (R97). -/
def immU (imm20 : BitVec 20) : Word := imm20 ++ 0#12

/-- The immediate of format CSRI: `zext_5(uimm)` (R100). -/
def uimm5 (uimm : BitVec 5) : Word := uimm.setWidth 32

/-- The shift amount of a register shift: `x[rs2][4:0]` (R204). -/
def shiftAmount (v : Word) : BitVec 5 := v.extractLsb' 0 5

/-- The effective address, `(x[rs1] + imm) mod 2^32` (R235). -/
def effectiveAddress (rs1 : RegIdx) (imm : BitVec 12) (s : State) : Word := readReg rs1 s + imm12 imm

/-- `addr mod n != 0` (R67). -/
def misaligned (a : Word) (n : AccessSize) : Bool := a.toNat % n.bytes != 0

/-- `target[1:0] != 0` (R28, R220). -/
def misalignedTarget (a : Word) : Bool := a.extractLsb' 0 2 != 0#2

end Sys2Proof.Machine
end

