-- ==== Sys2Proof/Machine/Flags.lean ====
section
/-!
DEFINITION. The conditions. The block has no flags, condition codes or predicate registers (10_state.md R46): a comparison writes
0 or 1 to a register, or decides a branch directly. These are the comparisons.
-/

namespace Sys2Proof.Machine

/-- `signed(a) < signed(b)` (R194, R205, R225). -/
def signedLess (a b : Word) : Bool := a.slt b

/-- `unsigned(a) < unsigned(b)` (R195, R206, R227). -/
def unsignedLess (a b : Word) : Bool := a.ult b

/-- `c ? 1 : 0` as a register value (R194). -/
def wordOfBool (c : Bool) : Word := if c then 1#32 else 0#32

end Sys2Proof.Machine
end

