-- ==== Sys2Proof/Machine/Ops.lean ====
section
/-!
DEFINITION. The operations that the meanings share: retiring, halting and raising (40_dispatch.md R148, R149; 60_exceptions.md R275), the
text region (20_memory.md R70), load and store (45_load_store.md R236, R237), control transfer (44_control_transfer.md R220), the CSR
File and its gates (10_state.md R35 to R38; 41_csr_instructions.md R160, R161), and the environment (42_system.md R184, R185).
-/

namespace Sys2Proof.Machine

/-! ## Retire, halt, raise -/

/-- Retire with `Ok(next_pc)` (R148): `pc <- next_pc` and both counters advance, after every other effect (R39). -/
def retire (nextPc : Word) (s : State) : State :=
  { s with pc := nextPc, stepCount := s.stepCount + 1, steps64 := s.steps64 + 1 }

/-- Retire at the next instruction, `pc + 4` modulo `2^32` (R27). -/
def retireNext (s : State) : State := retire (s.pc + 4) s

/-- `halt(r)` (R149). -/
def halt (r : Reason) (s : State) : State := { s with runState := .halted, reason := some r }

/-- A byte address in the text region, `TEXT_BASE <= a < TEXT_BASE + 4*N` (R70). -/
def inText (s : State) (a : Word) : Bool :=
  s.textBase.toNat ≤ a.toNat && a.toNat < s.textBase.toNat + 4 * s.program.length

/-- The source line of the statement at `pc`, `PROGRAM[(pc - TEXT_BASE) / 4].line` in the text region, else none (R139; for a
pc that is no multiple of 4, log 23). -/
def lineAt (s : State) (pc : Word) : Option Nat :=
  if inText s pc then (s.program[(pc.toNat - s.textBase.toNat) / 4]?).map (·.line) else none

/-- The record the taxonomy encoder forms (R272, R275). -/
def faultRecord (word : Option Word) (d : Detail) (value : Option Word) (s : State) : FaultRecord where
  kind := d.kind
  detail := d
  pc := s.pc
  word := word
  line := lineAt s s.pc
  value := value

/-- `raise K(detail, v)`: taking a fault. There is no handler, no vector and no saved status (R291): the record is stored in `fault`
and the run halts with Reason `EXCEPTION`; nothing else changes (R275, R149). There is no return from a fault (R292). -/
def raise (word : Option Word) (d : Detail) (value : Option Word) (s : State) : State :=
  halt .exception { s with fault := some (faultRecord word d value s) }

/-- A handler's raise: `fault.word` is the fetched word (R272), which is the instruction's encoding, since the decoder drops no bit. -/
def raiseIn (i : Instr) (d : Detail) (value : Option Word) (s : State) : Result State :=
  .next (raise (some (encode i)) d value s)

/-- `x[rd] <- v` and `Ok(pc + 4)` (R190, R250). -/
def writeAndRetire (rd : RegIdx) (v : Word) (s : State) : Result State := .next (retireNext (writeReg rd v s))

/-! ## Memory -/

/-- `MEM_ADMIT(addr, n, kind)` (R66). -/
def admitted (s : State) (a : Word) (n : AccessSize) (k : AccessKind) : Bool :=
  !s.config.refused.any fun r => r.kind == k && r.size == n && decide (r.first ≤ a.toNat) && decide (a.toNat ≤ r.last)

/-- Log a request on the Memory port (R64, R65). -/
def issue (q : MemRequest) (s : State) : State := { s with memPort := q :: s.memPort }

/-- A performed `MemWrite` of Memory alone (R65). -/
def writeMem (a : Word) (n : AccessSize) (v : BitVec n.bits) (s : State) : State := { s with mem := s.mem.write a n v }

/-- The common load procedure of R236, from its second step on. The read is made and logged whatever `rd` is (R69). -/
def loadAt (i : Instr) (n : AccessSize) (ext : BitVec n.bits → Word) (rd : RegIdx) (ea : Word) (s : State) :
    Result State :=
  if misaligned ea n then raiseIn i .load (some ea) s
  else if admitted s ea n .load then
    .next (retireNext (writeReg rd (ext (s.mem.read ea n)) (issue (.read .load ea n) s)))
  else .fault (.accessNotAdmitted ea n .load)

/-- `SMC_MODE = off` and the address is in the text region: a write there does not change Memory (R74). -/
def textProtected (s : State) (a : Word) : Bool := s.config.smcMode == .off && inText s a

/-- The common store procedure of R237, from its second step on: misalignment, then the text region, then the write. -/
def storeAt (i : Instr) (n : AccessSize) (v : Word) (ea : Word) (s : State) : Result State :=
  if misaligned ea n then raiseIn i .store (some ea) s
  else if textProtected s ea then
    match s.config.storePolicy with
    | .reject => raiseIn i .textStore (some ea) s
    | .ignore => .next (retireNext s)
  else if admitted s ea n .store then
    .next (retireNext (writeMem ea n (v.setWidth n.bits) (issue (.write ea n ((v.setWidth n.bits).setWidth 32)) s)))
  else .fault (.accessNotAdmitted ea n .store)

/-! ## Control transfer -/

/-- A taken transfer to `t`, whose other effect is `s'` (the link register written): the target's alignment is checked before
anything is written, and the fault is the transferring instruction's own (R220). -/
def transfer (i : Instr) (t : Word) (s s' : State) : Result State :=
  if misalignedTarget t then raiseIn i .fetch (some t) s else .next (retire t s')

/-- JAL and JALR: `x[rd] <- pc + 4; pc <- t` (R221, R222). -/
def jumpAndLink (i : Instr) (rd : RegIdx) (t : Word) (s : State) : Result State :=
  transfer i t s (writeReg rd (s.pc + 4) s)

/-- A conditional branch (R223): not taken, it advances to `pc + 4` and never faults. -/
def branch (i : Instr) (taken : Bool) (imm : BitVec 13) (s : State) : Result State :=
  if taken then transfer i (s.pc + offsetB imm) s s else .next (retireNext s)

/-! ## The CSR File -/

/-- `csr_lookup(a)` (R35): the entry, or the CSR File's internal status `unavailableCsr` (R273). -/
def csrLookup (a : CsrAddr) (s : State) : Except FaultKind CsrReg :=
  match s.csrs.find? fun e => e.entry.addr == a.toNat with
  | some e => .ok e
  | none => .error .unavailableCsr

/-- `csr_check(a, will_write)` (R160): lookup, then the privilege gate, then the access policy. The first check's internal status is
translated at this boundary (R273). -/
def csrCheck (a : CsrAddr) (willWrite : Bool) (s : State) : Except Detail CsrReg :=
  match csrLookup a s with
  | .error _ => .error .csrUnavailable
  | .ok e =>
    if s.priv.toNat < e.entry.minPriv.toNat then .error .csrGate
    else if willWrite && e.entry.access == .RO then .error .csrReadOnly
    else .ok e

/-- `csr_get(e)` (R37). -/
def csrGet (e : CsrReg) (s : State) : Word :=
  match e.entry.update with
  | .none => e.value
  | .stepsLo => s.steps64.extractLsb' 0 32
  | .stepsHi => s.steps64.extractLsb' 32 32

/-- `csr_set(e, v)`: the stored value of the entry of that address is replaced, all 32 bits (R38). -/
def csrSet (e : CsrReg) (v : Word) (s : State) : State :=
  { s with csrs := s.csrs.map fun c => if c.entry.addr = e.entry.addr then { c with value := v } else c }

/-- The six CSR instructions in the micro-operation order of R161: gates, then (the source operand is in `new`) the prior value, the
new value when `will_write`, the destination register, and the counters at retire. -/
def csrAccess (i : Instr) (rd : RegIdx) (a : CsrAddr) (willWrite : Bool) (new : Word → Word) (s : State) : Result State :=
  match csrCheck a willWrite s with
  | .error d => raiseIn i d (some (a.setWidth 32)) s
  | .ok e => writeAndRetire rd (csrGet e s) (if willWrite then csrSet e (new (csrGet e s)) s else s)

/-! ## The environment -/

/-- The view that `ENV` has of the block (R184). Its reads of Memory are neither checked against `MEM_ADMIT` nor requests on the
Memory port: DESIGN CHOICE (unsafe, log 25). -/
def envView (s : State) : EnvView := ⟨s.regs.set 0 0#32, s.pc, s.mem⟩

/-- Consult `ENV` (R180, R185; log 6): its answer, and the state with a platform's recorded answer used up. -/
def consultEnv (s : State) : EnvResult × State :=
  match s.env with
  | .envMin => (.exit (readReg 10#5 s), s)
  | .platform (r :: rest) => (r, { s with env := .platform rest })
  | .platform [] => (Config.platformEnv s.stepCount (envView s), s)

/-- A Memory write of `ENV`: dropped in the text region when `SMC_MODE = off`, under both policies (R184; log 7). -/
def envWriteMem (a : Word) (n : AccessSize) (v : BitVec n.bits) (s : State) : State :=
  if textProtected s a then s else writeMem a n v s

/-- One write of `Continue(writes)` (R184). -/
def applyEnvWrite (s : State) : EnvWrite → State
  | .reg r v => writeReg r v s
  | .byte a v => envWriteMem a .byte v s
  | .half k v => envWriteMem (k ++ 0#1) .half v s
  | .word k v => envWriteMem (k ++ 0#2) .word v s

/-- All the writes of `Continue(writes)`, in order. -/
def applyEnvWrites (writes : List EnvWrite) (s : State) : State := writes.foldl applyEnvWrite s

/-- The end of a run by `Exit(code)` (R148): the ECALL retires, then `exit_code <- code` and `halt(NORMAL_TERMINATION)`. -/
def exitRun (code : Word) (s : State) : State :=
  halt .normalTermination { retireNext s with exitCode := some code }

/-- `getExitCode()` (R152): the exit code read as a signed integer (R44; log 20). -/
def getExitCode (s : State) : Option Int := s.exitCode.map BitVec.toInt

end Sys2Proof.Machine
end

