-- ==== Sys2Proof/Machine/Control.lean ====
section
/-!
DEFINITION. Control transfer (44_control_transfer.md): no delay slot; a taken transfer to a target that is not a multiple of 4 faults on the
transferring instruction itself, before the link register is written (R220).
-/

namespace Sys2Proof.Machine

/-- JAL: `t <- pc + imm; x[rd] <- pc + 4; pc <- t` (R221). -/
def execJal (rd : RegIdx) (imm : BitVec 21) (s : State) : Result State :=
  jumpAndLink (.jal rd imm) rd (s.pc + offsetJ imm) s

/-- JALR: `t <- (x[rs1] + imm) & 0xFFFFFFFE; x[rd] <- pc + 4; pc <- t`, the target from the old register (R222). -/
def execJalr (rd rs1 : RegIdx) (imm : BitVec 12) (s : State) : Result State :=
  jumpAndLink (.jalr rd rs1 imm) rd ((readReg rs1 s + imm12 imm) &&& 0xFFFFFFFE#32) s

/-- BEQ: branches when `x[rs1] = x[rs2]` (R223). -/
def execBeq (rs1 rs2 : RegIdx) (imm : BitVec 13) (s : State) : Result State :=
  branch (.beq rs1 rs2 imm) (readReg rs1 s == readReg rs2 s) imm s

/-- BNE: branches when `x[rs1] != x[rs2]` (R224). -/
def execBne (rs1 rs2 : RegIdx) (imm : BitVec 13) (s : State) : Result State :=
  branch (.bne rs1 rs2 imm) (readReg rs1 s != readReg rs2 s) imm s

/-- BLT: branches when `signed(x[rs1]) < signed(x[rs2])` (R225). -/
def execBlt (rs1 rs2 : RegIdx) (imm : BitVec 13) (s : State) : Result State :=
  branch (.blt rs1 rs2 imm) (signedLess (readReg rs1 s) (readReg rs2 s)) imm s

/-- BGE: branches when `signed(x[rs1]) >= signed(x[rs2])` (R226). -/
def execBge (rs1 rs2 : RegIdx) (imm : BitVec 13) (s : State) : Result State :=
  branch (.bge rs1 rs2 imm) (!signedLess (readReg rs1 s) (readReg rs2 s)) imm s

/-- BLTU: branches when `unsigned(x[rs1]) < unsigned(x[rs2])` (R227). -/
def execBltu (rs1 rs2 : RegIdx) (imm : BitVec 13) (s : State) : Result State :=
  branch (.bltu rs1 rs2 imm) (unsignedLess (readReg rs1 s) (readReg rs2 s)) imm s

/-- BGEU: branches when `unsigned(x[rs1]) >= unsigned(x[rs2])` (R228). -/
def execBgeu (rs1 rs2 : RegIdx) (imm : BitVec 13) (s : State) : Result State :=
  branch (.bgeu rs1 rs2 imm) (!unsignedLess (readReg rs1 s) (readReg rs2 s)) imm s

end Sys2Proof.Machine
end

