-- ==== Sys2Proof/Machine/Csr.lean ====
section
/-!
DEFINITION. The six CSR instructions (41_csr_instructions.md). `will_write` and the new value are the table of R162; the source operand is read
before anything is written (R161).
-/

namespace Sys2Proof.Machine

/-- CSRRW: new value `x[rs1]`, always written (R163). -/
def execCsrrw (rd : RegIdx) (csr : CsrAddr) (rs1 : RegIdx) (s : State) : Result State :=
  csrAccess (.csrrw rd csr rs1) rd csr true (fun _ => readReg rs1 s) s

/-- CSRRS: new value `old | x[rs1]`, written iff the index `rs1 != 0` (R164). -/
def execCsrrs (rd : RegIdx) (csr : CsrAddr) (rs1 : RegIdx) (s : State) : Result State :=
  csrAccess (.csrrs rd csr rs1) rd csr (rs1 != 0#5) (fun old => old ||| readReg rs1 s) s

/-- CSRRC: new value `old & ~x[rs1]`, written iff the index `rs1 != 0` (R165). -/
def execCsrrc (rd : RegIdx) (csr : CsrAddr) (rs1 : RegIdx) (s : State) : Result State :=
  csrAccess (.csrrc rd csr rs1) rd csr (rs1 != 0#5) (fun old => old &&& ~~~readReg rs1 s) s

/-- CSRRWI: new value `zext_5(uimm)`, always written (R166). -/
def execCsrrwi (rd : RegIdx) (csr : CsrAddr) (uimm : BitVec 5) (s : State) : Result State :=
  csrAccess (.csrrwi rd csr uimm) rd csr true (fun _ => uimm5 uimm) s

/-- CSRRSI: new value `old | zext_5(uimm)`, written iff `uimm != 0` (R167). -/
def execCsrrsi (rd : RegIdx) (csr : CsrAddr) (uimm : BitVec 5) (s : State) : Result State :=
  csrAccess (.csrrsi rd csr uimm) rd csr (uimm != 0#5) (fun old => old ||| uimm5 uimm) s

/-- CSRRCI: new value `old & ~zext_5(uimm)`, written iff `uimm != 0` (R168). -/
def execCsrrci (rd : RegIdx) (csr : CsrAddr) (uimm : BitVec 5) (s : State) : Result State :=
  csrAccess (.csrrci rd csr uimm) rd csr (uimm != 0#5) (fun old => old &&& ~~~uimm5 uimm) s

end Sys2Proof.Machine
end

