-- ==== Sys2Proof/Machine/Integer.lean ====
section
/-!
DEFINITION. Integer computational instructions (43_integer_computational.md). Each writes one register, faults never and retires at `pc + 4`
(R190).
-/

namespace Sys2Proof.Machine

/-! ## Upper immediate -/

/-- LUI: `x[rd] <- {imm20, 0x000}` (R191). -/
def execLui (rd : RegIdx) (imm20 : BitVec 20) (s : State) : Result State :=
  writeAndRetire rd (immU imm20) s

/-- AUIPC: `x[rd] <- pc + {imm20, 0x000}` (R192). -/
def execAuipc (rd : RegIdx) (imm20 : BitVec 20) (s : State) : Result State :=
  writeAndRetire rd (s.pc + immU imm20) s

/-! ## Register-immediate -/

/-- ADDI: `x[rd] <- x[rs1] + imm` (R193). -/
def execAddi (rd rs1 : RegIdx) (imm : BitVec 12) (s : State) : Result State :=
  writeAndRetire rd (readReg rs1 s + imm12 imm) s

/-- SLTI: `x[rd] <- (signed(x[rs1]) < signed(imm)) ? 1 : 0` (R194). -/
def execSlti (rd rs1 : RegIdx) (imm : BitVec 12) (s : State) : Result State :=
  writeAndRetire rd (wordOfBool (signedLess (readReg rs1 s) (imm12 imm))) s

/-- SLTIU: `x[rd] <- (unsigned(x[rs1]) < unsigned(imm)) ? 1 : 0` (R195). -/
def execSltiu (rd rs1 : RegIdx) (imm : BitVec 12) (s : State) : Result State :=
  writeAndRetire rd (wordOfBool (unsignedLess (readReg rs1 s) (imm12 imm))) s

/-- XORI: `x[rd] <- x[rs1] ^ imm` (R196). -/
def execXori (rd rs1 : RegIdx) (imm : BitVec 12) (s : State) : Result State :=
  writeAndRetire rd (readReg rs1 s ^^^ imm12 imm) s

/-- ORI: `x[rd] <- x[rs1] | imm` (R197). -/
def execOri (rd rs1 : RegIdx) (imm : BitVec 12) (s : State) : Result State :=
  writeAndRetire rd (readReg rs1 s ||| imm12 imm) s

/-- ANDI: `x[rd] <- x[rs1] & imm` (R198). -/
def execAndi (rd rs1 : RegIdx) (imm : BitVec 12) (s : State) : Result State :=
  writeAndRetire rd (readReg rs1 s &&& imm12 imm) s

/-! ## Shifts by immediate -/

/-- SLLI: `x[rd] <- x[rs1] << shamt` (R199). -/
def execSlli (rd rs1 : RegIdx) (shamt : BitVec 5) (s : State) : Result State :=
  writeAndRetire rd (readReg rs1 s <<< shamt.toNat) s

/-- SRLI: `x[rd] <- x[rs1] >>u shamt` (R200). -/
def execSrli (rd rs1 : RegIdx) (shamt : BitVec 5) (s : State) : Result State :=
  writeAndRetire rd (readReg rs1 s >>> shamt.toNat) s

/-- SRAI: `x[rd] <- x[rs1] >>s shamt` (R201). -/
def execSrai (rd rs1 : RegIdx) (shamt : BitVec 5) (s : State) : Result State :=
  writeAndRetire rd ((readReg rs1 s).sshiftRight shamt.toNat) s

/-! ## Register-register -/

/-- ADD: `x[rd] <- x[rs1] + x[rs2]` (R202). -/
def execAdd (rd rs1 rs2 : RegIdx) (s : State) : Result State :=
  writeAndRetire rd (readReg rs1 s + readReg rs2 s) s

/-- SUB: `x[rd] <- x[rs1] - x[rs2]` (R203). -/
def execSub (rd rs1 rs2 : RegIdx) (s : State) : Result State :=
  writeAndRetire rd (readReg rs1 s - readReg rs2 s) s

/-- SLL: `x[rd] <- x[rs1] << x[rs2][4:0]` (R204). -/
def execSll (rd rs1 rs2 : RegIdx) (s : State) : Result State :=
  writeAndRetire rd (readReg rs1 s <<< (shiftAmount (readReg rs2 s)).toNat) s

/-- SLT: `x[rd] <- (signed(x[rs1]) < signed(x[rs2])) ? 1 : 0` (R205). -/
def execSlt (rd rs1 rs2 : RegIdx) (s : State) : Result State :=
  writeAndRetire rd (wordOfBool (signedLess (readReg rs1 s) (readReg rs2 s))) s

/-- SLTU: `x[rd] <- (unsigned(x[rs1]) < unsigned(x[rs2])) ? 1 : 0` (R206). -/
def execSltu (rd rs1 rs2 : RegIdx) (s : State) : Result State :=
  writeAndRetire rd (wordOfBool (unsignedLess (readReg rs1 s) (readReg rs2 s))) s

/-- XOR: `x[rd] <- x[rs1] ^ x[rs2]` (R207). -/
def execXor (rd rs1 rs2 : RegIdx) (s : State) : Result State :=
  writeAndRetire rd (readReg rs1 s ^^^ readReg rs2 s) s

/-- SRL: `x[rd] <- x[rs1] >>u x[rs2][4:0]` (R208). -/
def execSrl (rd rs1 rs2 : RegIdx) (s : State) : Result State :=
  writeAndRetire rd (readReg rs1 s >>> (shiftAmount (readReg rs2 s)).toNat) s

/-- SRA: `x[rd] <- x[rs1] >>s x[rs2][4:0]` (R209). -/
def execSra (rd rs1 rs2 : RegIdx) (s : State) : Result State :=
  writeAndRetire rd ((readReg rs1 s).sshiftRight (shiftAmount (readReg rs2 s)).toNat) s

/-- OR: `x[rd] <- x[rs1] | x[rs2]` (R210). -/
def execOr (rd rs1 rs2 : RegIdx) (s : State) : Result State :=
  writeAndRetire rd (readReg rs1 s ||| readReg rs2 s) s

/-- AND: `x[rd] <- x[rs1] & x[rs2]` (R211). -/
def execAnd (rd rs1 rs2 : RegIdx) (s : State) : Result State :=
  writeAndRetire rd (readReg rs1 s &&& readReg rs2 s) s

end Sys2Proof.Machine
end

