-- ==== Sys2Proof/Machine/LoadStore.lean ====
section
/-!
DEFINITION. Loads and stores (45_load_store.md): the common procedures of R236 and R237 at each size and extension.
-/

namespace Sys2Proof.Machine

/-- LB: R236 with `n = 1`, `ext = sext_8` (R238). -/
def execLb (rd rs1 : RegIdx) (imm : BitVec 12) (s : State) : Result State :=
  loadAt (.lb rd rs1 imm) .byte (BitVec.signExtend 32) rd (effectiveAddress rs1 imm s) s

/-- LH: R236 with `n = 2`, `ext = sext_16` (R239). -/
def execLh (rd rs1 : RegIdx) (imm : BitVec 12) (s : State) : Result State :=
  loadAt (.lh rd rs1 imm) .half (BitVec.signExtend 32) rd (effectiveAddress rs1 imm s) s

/-- LW: R236 with `n = 4`, `ext` the identity (R240). -/
def execLw (rd rs1 : RegIdx) (imm : BitVec 12) (s : State) : Result State :=
  loadAt (.lw rd rs1 imm) .word id rd (effectiveAddress rs1 imm s) s

/-- LBU: R236 with `n = 1`, `ext = zext_8` (R241). -/
def execLbu (rd rs1 : RegIdx) (imm : BitVec 12) (s : State) : Result State :=
  loadAt (.lbu rd rs1 imm) .byte (BitVec.setWidth 32) rd (effectiveAddress rs1 imm s) s

/-- LHU: R236 with `n = 2`, `ext = zext_16` (R242). -/
def execLhu (rd rs1 : RegIdx) (imm : BitVec 12) (s : State) : Result State :=
  loadAt (.lhu rd rs1 imm) .half (BitVec.setWidth 32) rd (effectiveAddress rs1 imm s) s

/-- SB: R237 with `n = 1`, the low bits of `x[rs2]` (R243). -/
def execSb (rs2 rs1 : RegIdx) (imm : BitVec 12) (s : State) : Result State :=
  storeAt (.sb rs2 rs1 imm) .byte (readReg rs2 s) (effectiveAddress rs1 imm s) s

/-- SH: R237 with `n = 2`, the low bits of `x[rs2]` (R244). -/
def execSh (rs2 rs1 : RegIdx) (imm : BitVec 12) (s : State) : Result State :=
  storeAt (.sh rs2 rs1 imm) .half (readReg rs2 s) (effectiveAddress rs1 imm s) s

/-- SW: R237 with `n = 4`, the low bits of `x[rs2]` (R245). -/
def execSw (rs2 rs1 : RegIdx) (imm : BitVec 12) (s : State) : Result State :=
  storeAt (.sw rs2 rs1 imm) .word (readReg rs2 s) (effectiveAddress rs1 imm s) s

end Sys2Proof.Machine
end

