-- ==== Sys2Proof/Machine/MulDiv.lean ====
section
/-!
DEFINITION. Multiply and divide (46_muldiv.md). Products and quotients are formed in unbounded integers from the signed or unsigned reading of
each operand and then narrowed to 32 bits (R250). The results are functions of the two operand values `a = x[rs1]`, `b = x[rs2]`.
-/

namespace Sys2Proof.Machine

/-- `(a * b) mod 2^32` (R251). -/
def mulLow (a b : Word) : Word := a * b

/-- `floor((signed(a) * signed(b)) / 2^32) mod 2^32` (R252). `/` of a positive divisor is the floor. -/
def mulHighSigned (a b : Word) : Word := BitVec.ofInt 32 (a.toInt * b.toInt / 2 ^ 32)

/-- `floor((signed(a) * unsigned(b)) / 2^32) mod 2^32` (R253). -/
def mulHighSignedUnsigned (a b : Word) : Word := BitVec.ofInt 32 (a.toInt * (b.toNat : Int) / 2 ^ 32)

/-- `floor((unsigned(a) * unsigned(b)) / 2^32)` (R254). -/
def mulHighUnsigned (a b : Word) : Word := BitVec.ofNat 32 (a.toNat * b.toNat / 2 ^ 32)

/-- The overflow case of signed division, `-2^31 / -1` (R255, R257). -/
def divOverflow (a b : Word) : Bool := a == 0x80000000#32 && b == 0xFFFFFFFF#32

/-- The quotient of R255, rounding toward zero; all ones on division by zero. -/
def quotientSigned (a b : Word) : Word := 
  if b = 0#32 then 0xFFFFFFFF#32
  else if divOverflow a b then 0x80000000#32
  else BitVec.ofInt 32 (a.toInt.tdiv b.toInt)

/-- The quotient of R256. -/
def quotientUnsigned (a b : Word) : Word := 
  if b = 0#32 then 0xFFFFFFFF#32 else BitVec.ofNat 32 (a.toNat / b.toNat)

/-- The remainder of R257, with the sign of the dividend; the dividend on division by zero. -/
def remainderSigned (a b : Word) : Word := 
  if b = 0#32 then a
  else if divOverflow a b then 0#32
  else BitVec.ofInt 32 (a.toInt - a.toInt.tdiv b.toInt * b.toInt)

/-- The remainder of R258. -/
def remainderUnsigned (a b : Word) : Word := 
  if b = 0#32 then a else BitVec.ofNat 32 (a.toNat % b.toNat)

/-- DIV, DIVU, REM and REMU: a zero divisor raises ArithmeticFault(div_zero) when `ARITH_FAULT_ON_DIV_ZERO` is set, whatever `rd`
is; else the result is written (R259). -/
def divide (i : Instr) (rd : RegIdx) (b result : Word) (s : State) : Result State :=
  if s.config.arithFaultOnDivZero && b == 0#32 then raiseIn i .divZero none s else writeAndRetire rd result s

/-- MUL (R251). -/
def execMul (rd rs1 rs2 : RegIdx) (s : State) : Result State :=
  writeAndRetire rd (mulLow (readReg rs1 s) (readReg rs2 s)) s

/-- MULH (R252). -/
def execMulh (rd rs1 rs2 : RegIdx) (s : State) : Result State :=
  writeAndRetire rd (mulHighSigned (readReg rs1 s) (readReg rs2 s)) s

/-- MULHSU (R253). -/
def execMulhsu (rd rs1 rs2 : RegIdx) (s : State) : Result State :=
  writeAndRetire rd (mulHighSignedUnsigned (readReg rs1 s) (readReg rs2 s)) s

/-- MULHU (R254). -/
def execMulhu (rd rs1 rs2 : RegIdx) (s : State) : Result State :=
  writeAndRetire rd (mulHighUnsigned (readReg rs1 s) (readReg rs2 s)) s

/-- DIV (R255). -/
def execDiv (rd rs1 rs2 : RegIdx) (s : State) : Result State :=
  divide (.div rd rs1 rs2) rd (readReg rs2 s) (quotientSigned (readReg rs1 s) (readReg rs2 s)) s

/-- DIVU (R256). -/
def execDivu (rd rs1 rs2 : RegIdx) (s : State) : Result State :=
  divide (.divu rd rs1 rs2) rd (readReg rs2 s) (quotientUnsigned (readReg rs1 s) (readReg rs2 s)) s

/-- REM (R257). -/
def execRem (rd rs1 rs2 : RegIdx) (s : State) : Result State :=
  divide (.rem rd rs1 rs2) rd (readReg rs2 s) (remainderSigned (readReg rs1 s) (readReg rs2 s)) s

/-- REMU (R258). -/
def execRemu (rd rs1 rs2 : RegIdx) (s : State) : Result State :=
  divide (.remu rd rs1 rs2) rd (readReg rs2 s) (remainderUnsigned (readReg rs1 s) (readReg rs2 s)) s

end Sys2Proof.Machine
end

