-- ==== Sys2Proof/Machine/System.lean ====
section
/-!
DEFINITION. System instructions (42_system.md): ECALL, EBREAK, FENCE, FENCE.I. None is privileged (R186).
-/

namespace Sys2Proof.Machine

/-- FENCE: a no-op whatever its fields hold (R182). -/
def execFence (_pred _succ _fm : BitVec 4) (_rs1 _rd : RegIdx) (s : State) : Result State :=
  .next (retireNext s)

/-- FENCE.I: a no-op whatever its fields hold (R183). -/
def execFenceI (_imm : BitVec 12) (_rs1 _rd : RegIdx) (s : State) : Result State :=
  .next (retireNext s)

/-- ECALL: consult `ENV` once; `Exit(code)` ends the run, `Continue(writes)` applies the writes and goes on (R180). It is no fault. -/
def execEcall (s : State) : Result State :=
  match consultEnv s with
  | (.exit code, s') => .next (exitRun code s')
  | (.cont writes, s') => .next (retireNext (applyEnvWrites writes s'))

/-- EBREAK: always raises Breakpoint(ebreak) (R181). -/
def execEbreak (s : State) : Result State :=
  raiseIn .ebreak .ebreak none s

end Sys2Proof.Machine
end

