-- ==== Sys2Proof/Machine/Loop.lean ====
section
/-!
DEFINITION. The parts of the Simulator Loop's step that come before the handler (40_dispatch.md R145): the instruction boundary (R146,
R147, R283) and the fetch (20_memory.md R72).
-/

namespace Sys2Proof.Machine

/-- The sample of `stop_req` at this boundary (R146): the next of the samples to come, `none` when there is no more (log 5). -/
def stopSample (s : State) : StopReq := s.stopReqs.headD .none

/-- One sample is taken per boundary (R146). -/
def takeSample (s : State) : State := { s with stopReqs := s.stopReqs.tail }

/-- `MAX_STEPS != unlimited and step_count >= MAX_STEPS` (R147). -/
def stepLimitReached (s : State) : Bool :=
  match s.config.maxSteps with
  | none => false
  | some n => decide (n ≤ s.stepCount)

/-- What the instruction boundary answers. -/
inductive Boundary where
  /-- The run is over: `step` is undefined (R150). -/
  | undefined
  /-- A boundary halt (R146, R147). -/
  | halts (s : State)
  /-- The instruction is to be executed. -/
  | goes (s : State)
  deriving DecidableEq, Repr

/-- Items 1 and 2 of R145, in their order: the external request, then the step limit (R283). -/
def boundary (s : State) : Boundary :=
  match s.runState with
  | .halted => .undefined
  | .running =>
    match stopSample s with
    | .externalStop => .halts (halt .externalStop (takeSample s))
    | .breakpoint => .halts (halt .breakpoint (takeSample s))
    | .none =>
      if stepLimitReached s then .halts (halt .stepLimit (takeSample s)) else .goes (takeSample s)

/-- What the fetch answers. -/
inductive Fetched where
  /-- A fetch-stage fault: the state with the fault taken. -/
  | raises (s : State)
  /-- Memory does not admit the fetch (R66). -/
  | stuck (r : Fault)
  /-- The fetched word, and the state with the request logged. -/
  | word (w : Word) (s : State)
  deriving DecidableEq, Repr

/-- `fetch(pc)` (R72): alignment, then membership of the text region when `SMC_MODE = off`, then the read. A fetch-stage fault has no
word (R272, R276, R277). -/
def fetch (s : State) : Fetched :=
  if misalignedTarget s.pc then .raises (raise none .fetch (some s.pc) s)
  else if s.config.smcMode == .off && !inText s s.pc then .raises (raise none .noStatement none s)
  else if admitted s s.pc .word .fetch then
    .word (s.mem.read s.pc .word) (issue (.read .fetch s.pc .word) s)
  else .stuck (.accessNotAdmitted s.pc .word .fetch)

/-- `resolve` found no template: IllegalInstruction(no_template), the word recorded (R136, R276). -/
def raiseNoTemplate (w : Word) (s : State) : State := raise (some w) .noTemplate none s

/-- The program with the word as the statement at the pc (R70): the statement of the text region if the pc is in it, else a text
region of this one statement, which begins at the pc (log 24). -/
def placeStatement (w : Word) (s : State) : State :=
  if inText s s.pc then
    { s with program := s.program.modify ((s.pc.toNat - s.textBase.toNat) / 4) fun p => { p with word := w } }
  else { s with program := [⟨w, 0⟩], textBase := s.pc }

/-- Load the word where the next fetch reads it: in Memory at the pc (R72), and, when `SMC_MODE = off`, as the statement there, so
that the pc lies in the text region and the image invariant of R71 is kept (log 24). -/
def loadStatement (w : Word) (s : State) : State :=
  match s.config.smcMode with
  | .on => writeMem s.pc .word w s
  | .off => placeStatement w (writeMem s.pc .word w s)

end Sys2Proof.Machine
end

