-- ==== Sys2Proof/Machine/Step.lean ====
section
/-!
DEFINITION. The step function of the Simulator Loop (40_dispatch.md R145). Its parts stand in Machine/Loop.lean, Decode.lean and
Machine/Dispatch.lean; this file only puts them in their order.
-/

namespace Sys2Proof.Machine

/-- One step (R145): boundary, fetch, resolve and decode, handler. -/
def step (s : State) : Host.Outcome State Fault Refusal :=
  match boundary s with
  | .undefined => .fault .runHalted
  | .halts s' => .next s'
  | .goes s₁ =>
    match fetch s₁ with
    | .raises s' => .next s'
    | .stuck r => .fault r
    | .word w s₂ =>
      match decode w with
      | .error _ => .next (raiseNoTemplate w s₂)
      | .ok i => exec i s₂

/-- The host's question: `s` with a table row's bits loaded as the instruction at the pc, the bits above `nbits` zero (log 24). -/
def State.withFetchWord (s : State) (nbits w : Nat) : State := loadStatement (BitVec.ofNat 32 (w % 2 ^ nbits)) s

end Sys2Proof.Machine
end

