-- ==== Sys2Proof/Machine/Run.lean ====
section
/-!
DEFINITION. The run function (40_dispatch.md R150, R152). A run need not end, so the model bounds it (log 11): `simulate k` applies at most `k`
steps, and stops at the first state in `HALTED`.
-/

namespace Sys2Proof.Machine

/-- Apply `step` while `run_state = RUNNING`, at most `k` times (R150). -/
def simulate : Nat → State → Host.Outcome State Fault Refusal
  | 0, s => .next s
  | k + 1, s =>
    match s.runState with
    | .halted => .next s
    | .running =>
      match step s with
      | .next s' => simulate k s'
      | .fault r => .fault r
      | .refused r => .refused r

/-- What a caller reads when the run is over: `simulate() -> Reason` (R152). -/
def simulateReason (k : Nat) (s : State) : Option Reason :=
  match simulate k s with
  | .next s' => if s'.runState = .halted then s'.reason else none
  | .fault _ => none
  | .refused _ => none

end Sys2Proof.Machine
end

