-- ==== Sys2Proof/Machine/Setup.lean ====
section
/-!
DEFINITION. Run setup, the block's only reset (70_reset_and_hazards.md R310, R313): it checks its preconditions and answers either a
refusal, by name, or the state of 10_state.md R50.
-/

namespace Sys2Proof.Machine

/-- The configuration and the inputs of run setup (R310). -/
structure SetupInputs where
  config    : Config
  csrMap    : List CsrEntry
  privReset : BitVec 2
  env       : EnvSource
  program   : List Statement
  textBase  : Word
  startPc   : Word
  memInit   : List (Word × Byte)
  stopReqs  : List StopReq
  deriving DecidableEq, Repr

/-- A violated precondition of R310: a configuration error, never a fault or a Reason (R313). -/
inductive SetupRefusal where
  | csrMap
  | privReset
  | textBase
  | textBounds
  | image
  | startPc
  deriving DecidableEq, Repr

/-- An admissible privilege level: 0, 1 or 3 (R30). -/
def privLegal (p : BitVec 2) : Bool := p != 2#2

/-- `CSR_MAP` is well formed (R34): addresses distinct and below 4096, every updated entry read-only, every gate 0, 1 or 3. -/
def csrMapWellFormed (map : List CsrEntry) : Bool :=
  decide (map.Pairwise fun a b => a.addr ≠ b.addr)
    && map.all fun e => decide (e.addr < 4096) && (e.update == .none || e.access == .RO) && privLegal e.minPriv

/-- The address of statement `k`, `TEXT_BASE + 4*k` (R70). -/
def statementAddress (textBase : Word) (k : Nat) : Word := textBase + BitVec.ofNat 32 (4 * k)

/-- The image invariant of R71: Memory holds every statement's word at its address. -/
def imageHolds (mem : Memory) (textBase : Word) (program : List Statement) : Bool :=
  (List.range program.length).all fun k =>
    (program[k]?).map (·.word) == some (mem.read (statementAddress textBase k) .word)

/-- The state that setup installs (R50, R310). -/
def setupState (p : SetupInputs) : State where
  regs := Vector.replicate 32 0#32
  pc := p.startPc
  priv := p.privReset
  csrs := csrFileOf p.csrMap
  steps64 := 0#64
  runState := .running
  reason := none
  exitCode := none
  fault := none
  stepCount := 0
  mem := Memory.ofImage p.memInit
  config := p.config
  program := p.program
  textBase := p.textBase
  stopReqs := p.stopReqs
  env := p.env
  memPort := []

/-- Run setup (R310). Its catalog is `CATALOG_DEFAULT`, which the registry accepts. The order of the checks is the model's (log 22). -/
def setup (p : SetupInputs) : Except SetupRefusal State :=
  if !csrMapWellFormed p.csrMap then .error .csrMap
  else if !privLegal p.privReset then .error .privReset
  else if p.textBase.toNat % 4 != 0 then .error .textBase
  else if decide (2 ^ 32 < p.textBase.toNat + 4 * p.program.length) then .error .textBounds
  else if !imageHolds (Memory.ofImage p.memInit) p.textBase p.program then .error .image
  else if p.startPc.toNat % 4 != 0 then .error .startPc
  else .ok (setupState p)

/-- The defaults of R10, and this model's values for the inputs that have none (log 2), the empty list of `stop_req` samples among
them: DESIGN CHOICE (unsafe, log 5). -/
def setupDefault : SetupInputs where
  config := configDefault
  csrMap := csrMapDefault
  privReset := privResetDefault
  env := .envMin
  program := programDefault
  textBase := textBaseDefault
  startPc := startPcDefault
  memInit := memInitDefault
  stopReqs := []

end Sys2Proof.Machine
end

