-- ==== Sys2Proof/Safety.lean ====
section
/-!
DEFINITION. What claims about the block are stated in: the invariant of a run, the frames (what an instruction leaves unchanged), and
what a precise fault is.
-/

namespace Sys2Proof

/-! ## The opcode map and the classes of instructions -/

/-- The opcode map in prose: the mnemonic that the major opcode (R109), `funct3` and `funct7` select (R110, R111, R112), or none.
It is written from the prose, not from the templates. -/
def opcodeMap (w : Word) : Option String :=
  let funct3 := (fieldFunct3 w).toNat
  let funct7 := (fieldFunct7 w).toNat
  match (fieldOpcode w).toNat with
  | 0b0110111 => some "lui"
  | 0b0010111 => some "auipc"
  | 0b1101111 => some "jal"
  | 0b1100111 => if funct3 = 0 then some "jalr" else none
  | 0b1100011 => [some "beq", some "bne", none, none, some "blt", some "bge", some "bltu", some "bgeu"][funct3]?.join
  | 0b0000011 => [some "lb", some "lh", some "lw", none, some "lbu", some "lhu", none, none][funct3]?.join
  | 0b0100011 => ["sb", "sh", "sw"][funct3]?
  | 0b0010011 =>
    if funct3 = 1 then (if funct7 = 0 then some "slli" else none)
    else if funct3 = 5 then (if funct7 = 0 then some "srli" else if funct7 = 0b0100000 then some "srai" else none)
    else [some "addi", none, some "slti", some "sltiu", some "xori", none, some "ori", some "andi"][funct3]?.join
  | 0b0110011 =>
    if funct7 = 0 then ["add", "sll", "slt", "sltu", "xor", "srl", "or", "and"][funct3]?
    else if funct7 = 0b0100000 then (if funct3 = 0 then some "sub" else if funct3 = 5 then some "sra" else none)
    else if funct7 = 1 then ["mul", "mulh", "mulhsu", "mulhu", "div", "divu", "rem", "remu"][funct3]?
    else none
  | 0b0001111 => ["fence", "fence.i"][funct3]?
  | 0b1110011 =>
    if funct3 = 0 then
      (if w = 0x00000073#32 then some "ecall" else if w = 0x00100073#32 then some "ebreak" else none)
    else [none, some "csrrw", some "csrrs", some "csrrc", none, some "csrrwi", some "csrrsi", some "csrrci"][funct3]?.join
  | _ => none

/-- The six CSR instructions (R36). -/
def Instr.accessesCsr : Instr → Bool
  | .csrrw .. | .csrrs .. | .csrrc .. | .csrrwi .. | .csrrsi .. | .csrrci .. => true
  | .lui .. | .auipc .. | .jal .. | .jalr .. | .beq .. | .bne .. | .blt .. | .bge .. | .bltu .. | .bgeu .. => false
  | .lb .. | .lh .. | .lw .. | .lbu .. | .lhu .. | .sb .. | .sh .. | .sw .. => false
  | .addi .. | .slti .. | .sltiu .. | .xori .. | .ori .. | .andi .. | .slli .. | .srli .. | .srai .. => false
  | .add .. | .sub .. | .sll .. | .slt .. | .sltu .. | .xor .. | .srl .. | .sra .. | .or .. | .and .. => false
  | .fence .. | .fenceI .. | .ecall | .ebreak => false
  | .mul .. | .mulh .. | .mulhsu .. | .mulhu .. | .div .. | .divu .. | .rem .. | .remu .. => false

/-- The destination register and the source registers of an integer computational instruction (R190), else none. -/
def Instr.integerOperands : Instr → Option (RegIdx × List RegIdx)
  | .lui rd _ | .auipc rd _ => some (rd, [])
  | .addi rd rs1 _ | .slti rd rs1 _ | .sltiu rd rs1 _ | .xori rd rs1 _ | .ori rd rs1 _ | .andi rd rs1 _ => some (rd, [rs1])
  | .slli rd rs1 _ | .srli rd rs1 _ | .srai rd rs1 _ => some (rd, [rs1])
  | .add rd rs1 rs2 | .sub rd rs1 rs2 | .sll rd rs1 rs2 | .slt rd rs1 rs2 | .sltu rd rs1 rs2 => some (rd, [rs1, rs2])
  | .xor rd rs1 rs2 | .srl rd rs1 rs2 | .sra rd rs1 rs2 | .or rd rs1 rs2 | .and rd rs1 rs2 => some (rd, [rs1, rs2])
  | .jal .. | .jalr .. | .beq .. | .bne .. | .blt .. | .bge .. | .bltu .. | .bgeu .. => none
  | .lb .. | .lh .. | .lw .. | .lbu .. | .lhu .. | .sb .. | .sh .. | .sw .. => none
  | .fence .. | .fenceI .. | .ecall | .ebreak => none
  | .csrrw .. | .csrrs .. | .csrrc .. | .csrrwi .. | .csrrsi .. | .csrrci .. => none
  | .mul .. | .mulh .. | .mulhsu .. | .mulhu .. | .div .. | .divu .. | .rem .. | .remu .. => none

/-! ## The environment's writes, location by location -/

/-- What a write of `ENV` puts in a register, if it is a write of it (R184). -/
def EnvWrite.valueFor (r : RegIdx) : EnvWrite → Option Word
  | .reg q v => if q = r then some v else none
  | _ => none

/-- What a write of `ENV` puts in the byte at an address, if it is a write of it (R184, R65). -/
def EnvWrite.byteFor (a : Word) : EnvWrite → Option Byte
  | .reg _ _ => none
  | .byte b v => if a = b then some v else none
  | .half k v =>
    if a = k ++ 0#1 then some (v.extractLsb' 0 8) else if a = k ++ 1#1 then some (v.extractLsb' 8 8) else none
  | .word k v =>
    if a = k ++ 0#2 then some (v.extractLsb' 0 8) else if a = k ++ 1#2 then some (v.extractLsb' 8 8)
    else if a = k ++ 2#2 then some (v.extractLsb' 16 8) else if a = k ++ 3#2 then some (v.extractLsb' 24 8) else none

end Sys2Proof

namespace Sys2Proof.Machine

/-! ## The invariant of a run -/

/-- The outputs are valid as R290 says: none while `RUNNING` (R50); in `HALTED` a Reason, `exit_code` exactly for
`NORMAL_TERMINATION` and `fault` exactly for `EXCEPTION`. -/
abbrev OutputsValid (s : State) : Prop :=
  (s.runState = .running → s.reason = none) ∧
  (s.runState = .halted → s.reason ≠ none) ∧
  (s.exitCode ≠ none ↔ s.reason = some .normalTermination) ∧
  (s.fault ≠ none ↔ s.reason = some .exception)

/-- A stored fault record names the pc it stopped at, and its kind is its detail's (R27, R271). -/
abbrev FaultPrecise (s : State) : Prop :=
  ∀ f, f ∈ s.fault → f.pc = s.pc ∧ f.kind = f.detail.kind

/-- The text region is aligned and ends within the address space (R70). -/
abbrev TextPlaced (s : State) : Prop :=
  s.textBase.toNat % 4 = 0 ∧ s.textBase.toNat + 4 * s.program.length ≤ 2 ^ 32

/-- With `SMC_MODE = off` Memory holds every statement's word at its address (R71, R75). -/
abbrev ImageKept (s : State) : Prop :=
  s.config.smcMode = .off → imageHolds s.mem s.textBase s.program = true

/-- What every step keeps, and run setup establishes. -/
structure RunInv (s : State) : Prop where
  /-- Memory is in its canonical form. -/
  mem : s.mem.wf
  /-- Nothing is ever stored in the slot of `x[0]` (R22). -/
  zero : s.regs[0] = 0#32
  /-- The pc is a multiple of 4 (R28, R277). -/
  pc : s.pc.toNat % 4 = 0
  /-- `priv` is 0, 1 or 3 (R30). -/
  priv : privLegal s.priv = true
  /-- The CSR File has the entries of a well-formed `CSR_MAP` (R34). -/
  csrs : csrMapWellFormed (s.csrs.map (·.entry)) = true
  /-- The step counter is the count of retired steps modulo `2^64` (R39, R44). -/
  counters : s.steps64 = BitVec.ofNat 64 s.stepCount
  text : TextPlaced s
  image : ImageKept s
  outputs : OutputsValid s
  faults : FaultPrecise s

/-! ## Frames -/

/-- The fields that no step changes: privilege (R31), configuration, program and text region (R20). -/
structure SameFixed (s t : State) : Prop where
  priv : t.priv = s.priv
  config : t.config = s.config
  program : t.program = s.program
  textBase : t.textBase = s.textBase

/-- The loop state but for `step_count`, and the interface fields but for the Memory port: unchanged. -/
structure SameLoop (s t : State) : Prop where
  runState : t.runState = s.runState
  reason : t.reason = s.reason
  exitCode : t.exitCode = s.exitCode
  fault : t.fault = s.fault
  stopReqs : t.stopReqs = s.stopReqs
  env : t.env = s.env

/-- Every general register reads as before. -/
abbrev SameRegs (s t : State) : Prop := ∀ r, readReg r t = readReg r s

/-- Every byte of Memory reads as before. -/
abbrev SameMemory (s t : State) : Prop := ∀ a : Word, t.mem.byteAt a = s.mem.byteAt a

/-- The instruction retired at `nextPc` (R148): the pc and both counters, and nothing of the loop state or the fixed fields. -/
structure RetiredAt (nextPc : Word) (s t : State) : Prop where
  pc : t.pc = nextPc
  stepCount : t.stepCount = s.stepCount + 1
  steps64 : t.steps64 = s.steps64 + 1
  fixed : SameFixed s t
  loop : SameLoop s t

/-- Of the registers only `x[rd]` may differ, and it reads `v`; `x[0]` reads 0 whatever `rd` is (R21, R22). -/
abbrev RegWritten (rd : RegIdx) (v : Word) (s t : State) : Prop :=
  ∀ r, readReg r t = if r = rd ∧ rd ≠ 0#5 then v else readReg r s

/-- A register result (R190, R250): `x[rd]` is `v`, the pc moves to `nextPc`, and every other register, every CSR, every byte of
Memory and the Memory port are as before. -/
structure WritesOnlyReg (rd : RegIdx) (v : Word) (nextPc : Word) (s t : State) : Prop where
  regs : RegWritten rd v s t
  retired : RetiredAt nextPc s t
  csrs : t.csrs = s.csrs
  memory : SameMemory s t
  port : t.memPort = s.memPort

/-- No register result: the pc moves to `nextPc` and every register, every CSR, every byte of Memory and the Memory port are as
before. -/
structure MovesOnlyPc (nextPc : Word) (s t : State) : Prop where
  regs : SameRegs s t
  retired : RetiredAt nextPc s t
  csrs : t.csrs = s.csrs
  memory : SameMemory s t
  port : t.memPort = s.memPort

/-- A load's result (R236): as a register result, with one read request issued. -/
structure Loads (rd : RegIdx) (v : Word) (request : MemRequest) (s t : State) : Prop where
  regs : RegWritten rd v s t
  retired : RetiredAt (s.pc + 4) s t
  csrs : t.csrs = s.csrs
  memory : SameMemory s t
  port : t.memPort = request :: s.memPort

/-- A store's result (R237): every register and CSR as before, one write request issued, and every byte of Memory outside the
`count` bytes from `ea` as before. -/
structure Stores (ea : Word) (count : Nat) (request : MemRequest) (s t : State) : Prop where
  regs : SameRegs s t
  retired : RetiredAt (s.pc + 4) s t
  csrs : t.csrs = s.csrs
  memory : ∀ a : Word, (∀ k, k < count → a ≠ ea + BitVec.ofNat 32 k) → t.mem.byteAt a = s.mem.byteAt a
  port : t.memPort = request :: s.memPort

/-- A CSR instruction's result (R161): `x[rd]` is `old`; the stored value of the entry at address `a` is `new` and every other entry
is as before; Memory and its port are as before. -/
structure CsrExchanged (rd : RegIdx) (old : Word) (a : CsrAddr) (new : CsrReg → Word) (s t : State) : Prop where
  regs : RegWritten rd old s t
  retired : RetiredAt (s.pc + 4) s t
  csrs : t.csrs = s.csrs.map fun e => if e.entry.addr = a.toNat then ⟨e.entry, new e⟩ else e
  memory : SameMemory s t
  port : t.memPort = s.memPort

/-- The line that a fault record holds (R139, R272), said without `lineAt`: that of the statement whose four bytes the pc is among,
and none outside the text region. For a pc at no statement's first byte this is the model's choice (log 23). -/
structure LineRecorded (s : State) (line : Option Nat) : Prop where
  inside : ∀ k st, s.program[k]? = some st → s.textBase.toNat + 4 * k ≤ s.pc.toNat →
    s.pc.toNat < s.textBase.toNat + 4 * k + 4 → line = some st.line
  outside : s.pc.toNat < s.textBase.toNat ∨ s.textBase.toNat + 4 * s.program.length ≤ s.pc.toNat → line = none

/-- A fault taken (R275, R149): the record is stored, with the line of the statement at the pc, the run is halted with Reason
`EXCEPTION`, and every other field of the state is as before: registers, pc, CSRs, counters, Memory. -/
def FaultTaken (word : Option Word) (d : Detail) (value : Option Word) (s t : State) : Prop :=
  ∃ line, LineRecorded s line ∧ t = { s with
    runState := .halted
    reason := some .exception
    fault := some ⟨d.kind, d, s.pc, word, line, value⟩ }

/-! ## The CSR File, in the words of the spec -/

/-- `csr_lookup(a)` yields `e` in a well-formed CSR File (R34, R35). -/
structure CsrEntryAt (a : CsrAddr) (s : State) (e : CsrReg) : Prop where
  wf : csrMapWellFormed (s.csrs.map (·.entry)) = true
  mem : e ∈ s.csrs
  addr : e.entry.addr = a.toNat

/-- `e.min_priv > priv`: the entry is behind the privilege gate (R160). -/
abbrev Gated (e : CsrReg) (s : State) : Prop := s.priv.toNat < e.entry.minPriv.toNat

/-- The value that entry `e` reads as (R37). -/
def CsrReadsAs (e : CsrReg) (s : State) (v : Word) : Prop :=
  match e.entry.update with
  | .none => v = e.value
  | .stepsLo => v = BitVec.ofNat 32 s.steps64.toNat
  | .stepsHi => v = BitVec.ofNat 32 (s.steps64.toNat / 2 ^ 32)

/-- The state with other values in the CSR entries behind the privilege gate. -/
def withGatedValues (f : Nat → Word) (s : State) : State :=
  { s with csrs := s.csrs.map fun e => if s.priv.toNat < e.entry.minPriv.toNat then ⟨e.entry, f e.entry.addr⟩ else e }

/-! ## What an ECALL leaves (R180) -/

/-- An ECALL that goes on (R180, R184): `pc` and the counters move, the last write to each register and byte holds, a write into
the text region of a block with `SMC_MODE = off` is dropped, and nothing else changes but `env`. -/
structure EnvContinued (writes : List EnvWrite) (s t : State) : Prop where
  regs : ∀ r, r ≠ 0#5 → readReg r t = (writes.reverse.findSome? (EnvWrite.valueFor r)).getD (readReg r s)
  memory : ∀ a, t.mem.byteAt a =
    if s.config.smcMode = .off ∧ inText s a = true then s.mem.byteAt a
    else (writes.reverse.findSome? (EnvWrite.byteFor a)).getD (s.mem.byteAt a)
  pc : t.pc = s.pc + 4
  stepCount : t.stepCount = s.stepCount + 1
  steps64 : t.steps64 = s.steps64 + 1
  fixed : SameFixed s t
  csrs : t.csrs = s.csrs
  runState : t.runState = s.runState
  reason : t.reason = s.reason
  exitCode : t.exitCode = s.exitCode
  fault : t.fault = s.fault
  stopReqs : t.stopReqs = s.stopReqs
  port : t.memPort = s.memPort

/-- An ECALL that exits with `code` (R148, R180): it retires, and the run ends with that exit code; nothing else changes but
`env`. -/
def EnvExited (code : Word) (s t : State) : Prop :=
  t = { s with
    pc := s.pc + 4
    stepCount := s.stepCount + 1
    steps64 := s.steps64 + 1
    exitCode := some code
    runState := .halted
    reason := some .normalTermination
    env := t.env }

/-! ## Safe runs -/

/-- The run has ended by a fault. -/
abbrev Faulted (s : State) : Prop := s.runState = .halted ∧ s.reason = some .exception

/-- A run of at most `k` steps from `s` meets no fault and is never stuck. -/
def SafeFor (k : Nat) (s : State) : Prop := ∃ t, simulate k s = .next t ∧ ¬ Faulted t

end Sys2Proof.Machine
end

