-- ==== Sys2Proof/WellFormed.lean ====
section
/-!
DEFINITION. Which terms of `Instr` some word encodes. Every register field, CSR address, shift amount and immediate field is a
bit vector of its field's width, so the one thing left to check is that bit 0 of a branch or jump offset is 0: the encoding has
no bit for it (30_encoding.md R96, R98).
-/

namespace Sys2Proof

/-- The offset of a format B or format J instruction is even: "whose bit 0 is always 0" (R96, R98). -/
abbrev evenOffset {n : Nat} (imm : BitVec n) : Bool := imm.getLsbD 0 == false

/-- The terms that a 32-bit word encodes. -/
def Instr.wellFormed : Instr → Bool
  | .jal _ imm => evenOffset imm
  | .beq _ _ imm => evenOffset imm
  | .bne _ _ imm => evenOffset imm
  | .blt _ _ imm => evenOffset imm
  | .bge _ _ imm => evenOffset imm
  | .bltu _ _ imm => evenOffset imm
  | .bgeu _ _ imm => evenOffset imm
  | .lui _ _ => true
  | .auipc _ _ => true
  | .jalr _ _ _ => true
  | .lb _ _ _ => true
  | .lh _ _ _ => true
  | .lw _ _ _ => true
  | .lbu _ _ _ => true
  | .lhu _ _ _ => true
  | .sb _ _ _ => true
  | .sh _ _ _ => true
  | .sw _ _ _ => true
  | .addi _ _ _ => true
  | .slti _ _ _ => true
  | .sltiu _ _ _ => true
  | .xori _ _ _ => true
  | .ori _ _ _ => true
  | .andi _ _ _ => true
  | .slli _ _ _ => true
  | .srli _ _ _ => true
  | .srai _ _ _ => true
  | .add _ _ _ => true
  | .sub _ _ _ => true
  | .sll _ _ _ => true
  | .slt _ _ _ => true
  | .sltu _ _ _ => true
  | .xor _ _ _ => true
  | .srl _ _ _ => true
  | .sra _ _ _ => true
  | .or _ _ _ => true
  | .and _ _ _ => true
  | .fence _ _ _ _ _ => true
  | .fenceI _ _ _ => true
  | .ecall => true
  | .ebreak => true
  | .csrrw _ _ _ => true
  | .csrrs _ _ _ => true
  | .csrrc _ _ _ => true
  | .csrrwi _ _ _ => true
  | .csrrsi _ _ _ => true
  | .csrrci _ _ _ => true
  | .mul _ _ _ => true
  | .mulh _ _ _ => true
  | .mulhsu _ _ _ => true
  | .mulhu _ _ _ => true
  | .div _ _ _ => true
  | .divu _ _ _ => true
  | .rem _ _ _ => true
  | .remu _ _ _ => true

end Sys2Proof
end

