-- ==== Sys2Proof/Certificates/Slice0/Obligations.lean ====
section
/-!
DEFINITION. The statements for the provers. Each docstring names the rules of spec/ it formalises; where a statement rests on a
choice of the model it names the log entry. In a statement about an instruction the first clause of each pair is its encoding,
written out from the format tables of 30_encoding.md, and the second its effect and its frame. The word that a handler's fault
records is named `encode i`: by `EncodeOfDecode` that is the fetched word, and `EveryFaultIsPrecise` says so of a step. The line
that it records is the one of R139; in a state whose pc is at no statement's first byte, which no run reaches (`RunInv.pc`),
it is the model's choice (log 23).
-/

open Sys2Proof Sys2Proof.Machine

/-! ## Encoding and the registry -/

/-- One word or more of every family, from the bits of R92 to R102 and the vectors of 95_test_vectors.md, decodes to the
instruction it stands for. In the FENCE word (vector E9) R104 makes only `pred` 3 and `succ` 3 operands; that its ignored
fields `fm`, `rs1` and `rd` (R101) stand in the instruction too is the model's choice (log 14). -/
def Obligations.SpecWordsDecode : Prop :=
  decode 0x12345537#32 = .ok (.lui 10 0x12345) ∧ decode 0xFFDFF06F#32 = .ok (.jal 0 (-4)) ∧
  decode 0x00D280E7#32 = .ok (.jalr 1 5 13) ∧ decode 0xFE029CE3#32 = .ok (.bne 5 0 (-8)) ∧
  decode 0x00344503#32 = .ok (.lbu 10 8 3) ∧ decode 0x80A42023#32 = .ok (.sw 10 8 (-2048)) ∧
  decode 0x40000013#32 = .ok (.addi 0 0 1024) ∧ decode 0x41F35293#32 = .ok (.srai 5 6 31) ∧
  decode 0x407302B3#32 = .ok (.sub 5 6 7) ∧ decode 0x8330000F#32 = .ok (.fence 3 3 8 0 0) ∧
  decode 0x00100073#32 = .ok .ebreak ∧ decode 0x70FFD2F3#32 = .ok (.csrrwi 5 1807 31) ∧
  decode 0x027322B3#32 = .ok (.mulhsu 5 6 7) ∧
  decode 0x30200073#32 = .error (.noTemplate 0x30200073) ∧ decode 0x02035293#32 = .error (.noTemplate 0x02035293)

/-- Decode after encode: every well-formed instruction, with every operand at every value, is read back from its word, and from
its four bytes, lowest address first (R63, R90, R103). That the ignored fields of FENCE and FENCE.I are among the operands is
the model's choice (log 14). -/
def Obligations.DecodeOfEncode : Prop :=
  ∀ i : Instr, i.wellFormed = true →
    decode (encode i) = .ok i ∧ ∀ rest, decodeBytes (encodeBytes i ++ rest) = .ok (i, rest)

/-- Encode after decode: a word that decodes is the encoding of what it decodes to, which is well formed. No bit of a word is
dropped; that this holds of the ignored fields of a FENCE or FENCE.I word is the model's choice, which keeps them as operands
where R104 gives FENCE.I none and FENCE only `pred` and `succ` (log 14). -/
def Obligations.EncodeOfDecode : Prop :=
  ∀ (w : Word) (i : Instr), decode w = .ok i → encode i = w ∧ i.wellFormed = true

/-- R135: `resolve` yields the unique entry of the catalog that the word matches, and none exactly when none matches. -/
def Obligations.ResolveYieldsTheUniqueEntry : Prop :=
  ∀ w : Word,
    (∀ e, resolve w = some e ↔ e ∈ catalog ∧ w &&& e.mask = e.pattern) ∧
    (∀ a ∈ catalog, ∀ b ∈ catalog, w &&& a.mask = a.pattern → w &&& b.mask = b.pattern → a = b) ∧
    (resolve w = none ↔ ∀ e ∈ catalog, w &&& e.mask ≠ e.pattern)

/-- R133: two entries collide exactly when some word matches both; registration accepts an entry exactly when it fits its format
and collides with nothing; a catalog is built exactly when it is well formed; `CATALOG_DEFAULT` is. -/
def Obligations.RegistryRefusesCollisions : Prop :=
  (∀ a b : CatalogEntry, a.wellFormed = true → b.wellFormed = true →
    (a.collides b = true ↔ ∃ w, a.accepts w = true ∧ b.accepts w = true) ∧
    (a.collides b = true ↔ (a.pattern ^^^ b.pattern) &&& a.mask &&& b.mask = 0#32)) ∧
  (∀ (c : Catalog) (e : CatalogEntry),
    ((∃ c', register c e = .ok c') ↔ e.wellFormed = true ∧ ∀ o ∈ c, e.collides o = false) ∧
    ∀ c', register c e = .ok c' → c' = c ++ [e]) ∧
  (∀ rows : Catalog, buildRegistry rows = .ok rows ↔
    (∀ e ∈ rows, e.wellFormed = true) ∧ rows.Pairwise fun a b => b.collides a = false) ∧
  buildRegistry catalog = .ok catalog

/-- R107, R108: an entry that fits its format has a template of 32 characters, and a word matches it exactly when every `0` and
`1` of the template stands at that bit of the word, the leftmost character at bit 31. -/
def Obligations.TemplateDecidesTheMatch : Prop :=
  ∀ e : CatalogEntry, e.wellFormed = true →
    e.template.length = 32 ∧
    ∀ w : Word, e.accepts w = true ↔
      ∀ k, k < 32 → (e.template[k]? = some .zero → w.getLsbD (31 - k) = false) ∧
        (e.template[k]? = some .one → w.getLsbD (31 - k) = true)

/-- R109 to R112: for every word, the catalog's templates select the mnemonic that the prose map of major opcode, `funct3` and
`funct7` selects. -/
def Obligations.TemplatesRefineTheOpcodeMap : Prop :=
  ∀ w : Word, (resolve w).map (·.mnemonic) = opcodeMap w

/-- R115: the reserved sub-encodings match no template. -/
def Obligations.ReservedSubEncodingsHaveNoTemplate : Prop :=
  ∀ w : Word,
    (fieldOpcode w = 0b0010011 ∧ fieldFunct3 w = 0b001 ∧ fieldFunct7 w ≠ 0 ∨
     fieldOpcode w = 0b0010011 ∧ fieldFunct3 w = 0b101 ∧ fieldFunct7 w ≠ 0 ∧ fieldFunct7 w ≠ 0b0100000 ∨
     fieldOpcode w = 0b0010011 ∧ (fieldFunct3 w = 0b001 ∨ fieldFunct3 w = 0b101) ∧ w.getLsbD 25 = true ∨
     fieldOpcode w = 0b0110011 ∧ fieldFunct7 w ≠ 0 ∧ fieldFunct7 w ≠ 1 ∧
       ¬ (fieldFunct7 w = 0b0100000 ∧ (fieldFunct3 w = 0b000 ∨ fieldFunct3 w = 0b101)) ∨
     fieldOpcode w = 0b1110011 ∧ fieldFunct3 w = 0b100 ∨
     fieldOpcode w = 0b1110011 ∧ fieldFunct3 w = 0b000 ∧ w ≠ 0x00000073#32 ∧ w ≠ 0x00100073#32) →
    decode w = .error (.noTemplate w)

/-! ## The step and the loop -/

/-- A step whose boundary holds nothing back and whose fetch is admitted runs the instruction that the four bytes at the pc
decode to, on the state with one `stop_req` sample taken and one fetch issued (R145; the sample list is log 5, the request
list log 12, that `exec` is handler and retire together log 16, and that a fetch leaves Memory as before log 10). -/
def Obligations.StepRunsTheDecodedInstruction : Prop :=
  ∀ (s : State) (i : Instr),
    s.runState = .running → s.stopReqs.headD .none = .none → (∀ n, s.config.maxSteps = some n → s.stepCount < n) →
    s.pc.toNat % 4 = 0 → (s.config.smcMode = .off → inText s s.pc = true) → admitted s s.pc .word .fetch = true →
    decodeBytes [s.mem.byteAt s.pc, s.mem.byteAt (s.pc + 1), s.mem.byteAt (s.pc + 2), s.mem.byteAt (s.pc + 3)]
      = .ok (i, []) →
    step s = exec i { s with stopReqs := s.stopReqs.tail, memPort := .read .fetch s.pc .word :: s.memPort }

/-- R150: a halted run is final, `step` has no answer there (the model's fault `runHalted`, log 9), and `simulate` returns it. -/
def Obligations.HaltedRunIsFinal : Prop :=
  ∀ s : State, s.runState = .halted → step s = .fault .runHalted ∧ ∀ k, simulate k s = .next s

/-- R146, R283: at a boundary the external request comes first, whatever the step limit and the instruction are, then the step
limit, then the instruction, which alone can end the run by exit or fault; a boundary halt changes nothing but the loop state
(and takes the sample, log 5). -/
def Obligations.BoundaryEventsComeInOrder : Prop :=
  ∀ s : State, s.runState = .running →
    (s.stopReqs.headD .none = .externalStop → step s = .next { s with
      runState := .halted, reason := some .externalStop, stopReqs := s.stopReqs.tail }) ∧
    (s.stopReqs.headD .none = .breakpoint → step s = .next { s with
      runState := .halted, reason := some .breakpoint, stopReqs := s.stopReqs.tail }) ∧
    (∀ n, s.stopReqs.headD .none = .none → s.config.maxSteps = some n → n ≤ s.stepCount → step s = .next { s with
      runState := .halted, reason := some .stepLimit, stopReqs := s.stopReqs.tail }) ∧
    (s.stopReqs.headD .none = .none → (∀ n, s.config.maxSteps = some n → s.stepCount < n) → ∀ t, step s = .next t →
      t.reason = s.reason ∨ t.reason = some .normalTermination ∨ t.reason = some .exception)

/-- R147: with `MAX_STEPS = n` a run never retires more than `n` instructions, and within `n` steps and one more it is over or
stuck at an access that Memory does not admit. -/
def Obligations.StepLimitEndsTheRun : Prop :=
  ∀ (s : State) (n k : Nat), s.runState = .running → s.config.maxSteps = some n → s.stepCount ≤ n →
    (∀ t, simulate k s = .next t → t.stepCount ≤ n) ∧
    (n - s.stepCount < k →
      (∃ t, simulate k s = .next t ∧ t.runState = .halted) ∨
      ∃ a z kind, simulate k s = .fault (.accessNotAdmitted a z kind))

/-- R72, R136: the conditions of the fetch in their order, and the word that matches no template; each record holds the line of the
statement at the pc (R139). A fetch that Memory does not admit leaves no step. The model's choices here: the line recorded at
a misaligned pc (log 23), the taken sample (log 5), the logged request (log 12), a fetch that leaves Memory as before (log
10) and the stuck answer's name (log 8). -/
def Obligations.FetchAndResolveFaultInOrder : Prop :=
  ∀ s : State, s.runState = .running → s.stopReqs.headD .none = .none →
    (∀ n, s.config.maxSteps = some n → s.stepCount < n) →
    (s.pc.toNat % 4 ≠ 0 → ∃ t, step s = .next t ∧
      FaultTaken none .fetch (some s.pc) { s with stopReqs := s.stopReqs.tail } t) ∧
    (s.pc.toNat % 4 = 0 → s.config.smcMode = .off → inText s s.pc = false → ∃ t, step s = .next t ∧
      FaultTaken none .noStatement none { s with stopReqs := s.stopReqs.tail } t) ∧
    (s.pc.toNat % 4 = 0 → (s.config.smcMode = .off → inText s s.pc = true) → admitted s s.pc .word .fetch = false →
      step s = .fault (.accessNotAdmitted s.pc .word .fetch)) ∧
    (∀ w, s.pc.toNat % 4 = 0 → (s.config.smcMode = .off → inText s s.pc = true) →
      admitted s s.pc .word .fetch = true → s.mem.read s.pc .word = w → resolve w = none → ∃ t, step s = .next t ∧
        FaultTaken (some w) .noTemplate none
          { s with stopReqs := s.stopReqs.tail, memPort := .read .fetch s.pc .word :: s.memPort } t)

/-- R140, R284, R272: a step that ends in a fault leaves the whole state at the boundary before it, but for the loop state and
the taken sample; the record names the faulting pc, the line of the statement there, none outside the text region (R139), and
either no word or the word in Memory there; and the only request it may have issued is its own fetch. The model's choices
here: the line at a misaligned pc (log 23), the taken sample (log 5), the request list (log 12) and a fetch that leaves
Memory as before (log 10). -/
def Obligations.EveryFaultIsPrecise : Prop :=
  ∀ s t : State, s.reason = none → step s = .next t → t.reason = some .exception →
    ∃ f, t = { s with
        runState := .halted, reason := some .exception, fault := some f, stopReqs := s.stopReqs.tail, memPort := t.memPort } ∧
      f.pc = s.pc ∧ f.kind = f.detail.kind ∧ LineRecorded s f.line ∧
      (f.word = none ∧ t.memPort = s.memPort ∨
        f.word = some (s.mem.read s.pc .word) ∧ t.memPort = .read .fetch s.pc .word :: s.memPort)

/-- The invariant of a run is kept by every step: Memory canonical, `x[0]` 0, the pc aligned, a legal privilege level, a
well-formed CSR File, equal counters, the text region placed and its image kept, outputs valid, faults precise. -/
def Obligations.InvariantKeptByEveryStep : Prop :=
  ∀ s t : State, RunInv s → step s = .next t → RunInv t

/-- The invariant holds of the state right after reset (whose open inputs are log 2, log 3 and, for `stop_req`, log 5). -/
def Obligations.InvariantHoldsAtReset : Prop := RunInv State.reset

/-- The invariant holds of every state that run setup yields, for every configuration and every input. -/
def Obligations.SetupEstablishesTheInvariant : Prop :=
  ∀ (p : SetupInputs) (s : State), setup p = .ok s → RunInv s

/-- R34, R50, R310, R313: run setup succeeds exactly under its preconditions, and then every element of the state has the value
of R50's table. -/
def Obligations.SetupInstallsTheResetValues : Prop :=
  buildRegistry catalog = .ok catalog ∧
  ∀ p : SetupInputs,
    ((∃ s, setup p = .ok s) ↔
      (p.csrMap.Pairwise fun a b => a.addr ≠ b.addr) ∧
      (∀ e ∈ p.csrMap, e.addr < 4096 ∧ (e.update ≠ .none → e.access = .RO) ∧
        (e.minPriv = 0 ∨ e.minPriv = 1 ∨ e.minPriv = 3)) ∧
      (p.privReset = 0 ∨ p.privReset = 1 ∨ p.privReset = 3) ∧
      p.textBase.toNat % 4 = 0 ∧ p.textBase.toNat + 4 * p.program.length ≤ 2 ^ 32 ∧
      (∀ k st, p.program[k]? = some st →
        (Memory.ofImage p.memInit).read (p.textBase + BitVec.ofNat 32 (4 * k)) .word = st.word) ∧
      p.startPc.toNat % 4 = 0) ∧
    ∀ s, setup p = .ok s →
      (∀ r, readReg r s = 0#32) ∧ s.pc = p.startPc ∧ s.priv = p.privReset ∧
      s.csrs.map (fun e => (e.entry, e.value)) = p.csrMap.map (fun e => (e, e.reset)) ∧
      s.steps64 = 0 ∧ s.runState = .running ∧ s.reason = none ∧ s.exitCode = none ∧ s.fault = none ∧ s.stepCount = 0 ∧
      s.mem = Memory.ofImage p.memInit ∧ s.config = p.config ∧ s.program = p.program ∧ s.textBase = p.textBase ∧
      s.env = p.env

/-- The model's reset state is run setup with the spec's default parameters and this model's values for the open inputs
(START_PC, TEXT_BASE, PRIV_RESET, PROGRAM, MEM_INIT: log 2; no `stop_req` to come: log 5). -/
def Obligations.ResetIsSetupWithTheDefaults : Prop :=
  setup setupDefault = .ok State.reset ∧ State.reset.config = ⟨.off, .reject, none, false, []⟩ ∧
  State.reset.env = .envMin ∧
  State.reset.csrs.map (fun e => (e.entry.addr, e.entry.name, e.value)) =
    [(0xC00, "cycle", 0), (0xC02, "instret", 0), (0xC80, "cycleh", 0), (0xC82, "instreth", 0), (0x340, "mscratch", 0)]

/-- R75: with `SMC_MODE = off`, as long as a run goes, Memory holds every statement's word at its address, so a fetch in the text
region returns the originally assembled encoding. -/
def Obligations.TextIsImmutableWithSmcOff : Prop :=
  ∀ (p : SetupInputs) (s t : State) (k : Nat), setup p = .ok s → p.config.smcMode = .off → simulate k s = .next t →
    ∀ j st, p.program[j]? = some st →
      t.mem.read (p.textBase + BitVec.ofNat 32 (4 * j)) .word = st.word ∧
      (t.pc = p.textBase + BitVec.ofNat 32 (4 * j) → ∀ w u, fetch t = .word w u → w = st.word)

/-- R73: with `SMC_MODE = on` a store to any address, the text region included, is performed, and the very next fetch of any
aligned address reads the stored bytes, with no fence between. -/
def Obligations.StoresAreFetchedWithSmcOn : Prop :=
  ∀ (s : State) (rs1 rs2 : RegIdx) (imm : BitVec 12), s.mem.wf → s.config.smcMode = .on →
    ∀ p ∈ [(Instr.sb rs2 rs1 imm, AccessSize.byte), (.sh rs2 rs1 imm, .half), (.sw rs2 rs1 imm, .word)],
      let ea := readReg rs1 s + imm.signExtend 32
      ea.toNat % p.2.bytes = 0 → admitted s ea p.2 .store = true →
      ∃ t, exec p.1 s = .next t ∧
        ∀ a : Word, a.toNat % 4 = 0 → admitted s a .word .fetch = true →
          ∃ w u, fetch { t with pc := a } = .word w u ∧
            ∀ j, j < 4 → w.extractLsb' (8 * j) 8 =
              if (a.toNat + j - ea.toNat < p.2.bytes ∧ ea.toNat ≤ a.toNat + j)
              then (readReg rs2 s).extractLsb' (8 * (a.toNat + j - ea.toNat)) 8
              else s.mem.byteAt (a + BitVec.ofNat 32 j)

/-- R31: `priv` holds `PRIV_RESET` from run setup to the end of the run: no instruction, fault or environment changes it. -/
def Obligations.PrivilegeLevelNeverChanges : Prop :=
  (∀ s t : State, step s = .next t → t.priv = s.priv) ∧
  ∀ (p : SetupInputs) (s t : State) (k : Nat), setup p = .ok s → simulate k s = .next t → t.priv = p.privReset

/-- R20: nothing in a run changes the configuration: the parameters, the program and its place, the static attributes of
the CSR entries (all carried in the state, log 1). -/
def Obligations.ConfigurationIsFixed : Prop :=
  ∀ (s t : State) (k : Nat), simulate k s = .next t →
    t.config = s.config ∧ t.program = s.program ∧ t.textBase = s.textBase ∧
    t.csrs.map (·.entry) = s.csrs.map (·.entry)

/-- R39, R148, R149: a step either retires, and both counters advance by one, the run going on or ending by a normal
termination; or it halts at the same pc with both counters as they were, by a fault, the step limit or a request. -/
def Obligations.CountersCountRetiredSteps : Prop :=
  ∀ s t : State, step s = .next t →
    (t.stepCount = s.stepCount + 1 ∧ t.steps64 = s.steps64 + 1 ∧
      (t.runState = .running ∧ t.reason = s.reason ∧ t.exitCode = s.exitCode ∨
        t.runState = .halted ∧ t.reason = some .normalTermination ∧ t.exitCode ≠ none ∧ t.pc = s.pc + 4) ∧
      t.fault = s.fault) ∨
    (t.stepCount = s.stepCount ∧ t.steps64 = s.steps64 ∧ t.pc = s.pc ∧ t.runState = .halted ∧
      t.exitCode = s.exitCode ∧
      (t.reason = some .exception ∧ t.fault ≠ none ∨
        t.reason = some .stepLimit ∧ t.fault = s.fault ∨ t.reason = some .breakpoint ∧ t.fault = s.fault ∨
        t.reason = some .externalStop ∧ t.fault = s.fault))

/-- R64, R65, R69, R141: a step issues nothing, or its one fetch, or its one fetch and after it one data access (the request list
is the model's, log 12). -/
def Obligations.OneRequestPerAccess : Prop :=
  ∀ s t : State, step s = .next t →
    t.memPort = s.memPort ∨ t.memPort = .read .fetch s.pc .word :: s.memPort ∨
    (∃ a n, t.memPort = .read .load a n :: .read .fetch s.pc .word :: s.memPort) ∨
    ∃ a n v, t.memPort = .write a n v :: .read .fetch s.pc .word :: s.memPort

/-- R273: an absent CSR's internal status is translated at the CSR boundary, and no run ever ends with the kind
`UnavailableCsr`. -/
def Obligations.UnavailableCsrIsNeverReported : Prop :=
  (∀ (a : CsrAddr) (w : Bool) (s : State), (∀ e ∈ s.csrs, e.entry.addr ≠ a.toNat) →
    csrLookup a s = .error .unavailableCsr ∧ csrCheck a w s = .error .csrUnavailable) ∧
  FaultKind.code .unavailableCsr = 2 ∧ Detail.kind .csrUnavailable = .illegalInstruction ∧
  ∀ (p : SetupInputs) (s t : State) (k : Nat), setup p = .ok s → simulate k s = .next t →
    ∀ f, t.fault = some f → f.kind = f.detail.kind ∧ f.kind ≠ .unavailableCsr

/-- R290: the outputs of a run that has ended: a Reason, an exit code exactly for `NORMAL_TERMINATION`, a fault exactly for
`EXCEPTION`, both none for the other three; while it runs, none of the three. -/
def Obligations.OutputsAreValidPerReason : Prop :=
  ∀ (p : SetupInputs) (s t : State) (k : Nat), setup p = .ok s → simulate k s = .next t →
    (t.runState = .running → t.reason = none ∧ t.exitCode = none ∧ t.fault = none) ∧
    (t.runState = .halted → ∃ r, t.reason = some r ∧ (t.exitCode ≠ none ↔ r = .normalTermination) ∧
      (t.fault ≠ none ↔ r = .exception))

/-- The codes and pairs of the taxonomy's tables: the code of each fault kind (R270), the kind of each detail (R271), the code of
each Reason (R288). -/
def Obligations.TaxonomyTables : Prop :=
  ([FaultKind.illegalInstruction, .misalignedAccess, .unavailableCsr, .privilegedAccessViolation, .arithmeticFault,
    .breakpoint].map FaultKind.code = [0, 1, 2, 3, 4, 5]) ∧
  ([Detail.noStatement, .noTemplate, .csrUnavailable, .csrReadOnly].map Detail.kind =
    List.replicate 4 FaultKind.illegalInstruction) ∧
  ([Detail.fetch, .load, .store].map Detail.kind = List.replicate 3 FaultKind.misalignedAccess) ∧
  ([Detail.csrGate, .textStore].map Detail.kind = List.replicate 2 FaultKind.privilegedAccessViolation) ∧
  Detail.kind .divZero = .arithmeticFault ∧ Detail.kind .ebreak = .breakpoint ∧
  ([Reason.normalTermination, .breakpoint, .exception, .stepLimit, .externalStop].map Reason.code = [0, 1, 2, 3, 4])

/-! ## Registers and Memory -/

/-- R21, R22: a register reads the value last written to it and every other register is unchanged; register 0 reads 0 and its
writes are discarded. -/
def Obligations.RegisterWriteThenRead : Prop :=
  ∀ (s : State) (q r : RegIdx) (v : Word),
    (r ≠ 0#5 → readReg r (writeReg r v s) = v) ∧ readReg 0#5 s = 0#32 ∧ writeReg 0#5 v s = s ∧
    (q ≠ r → readReg q (writeReg r v s) = readReg q s)

/-- R63, R64, R65: a read is little-endian in the bytes it covers, a write sets those bytes and no other, at every size and
every address modulo 2^32, and keeps the canonical form. -/
def Obligations.MemoryReadsWhatWasWritten : Prop :=
  ∀ (m : Memory) (a : Word) (n : AccessSize) (v : BitVec n.bits), m.wf →
    (m.write a n v).wf ∧
    (∀ k, k < n.bytes → (m.read a n).extractLsb' (8 * k) 8 = m.byteAt (a + BitVec.ofNat 32 k)) ∧
    (∀ k, k < n.bytes → (m.write a n v).byteAt (a + BitVec.ofNat 32 k) = v.extractLsb' (8 * k) 8) ∧
    (∀ b : Word, (∀ k, k < n.bytes → b ≠ a + BitVec.ofNat 32 k) → (m.write a n v).byteAt b = m.byteAt b) ∧
    (m.write a n v).read a n = v

/-! ## Integer computational instructions -/

/-- LUI and AUIPC (R191, R192): encoding, result and frame. -/
def Obligations.UpperImmediateResults : Prop :=
  ∀ (s : State) (rd : RegIdx) (imm20 : BitVec 20),
    (decode (imm20 ++ rd ++ 0b0110111#7) = .ok (.lui rd imm20) ∧
      ∃ t, exec (.lui rd imm20) s = .next t ∧
        WritesOnlyReg rd (BitVec.ofNat 32 (imm20.toNat * 2 ^ 12)) (s.pc + 4) s t) ∧
    (decode (imm20 ++ rd ++ 0b0010111#7) = .ok (.auipc rd imm20) ∧
      ∃ t, exec (.auipc rd imm20) s = .next t ∧
        WritesOnlyReg rd (BitVec.ofNat 32 (s.pc.toNat + imm20.toNat * 2 ^ 12)) (s.pc + 4) s t)

/-- ADDI, ADD and SUB (R193, R202, R203): encoding, result modulo 2^32 and frame. -/
def Obligations.AddAndSubtractResults : Prop :=
  ∀ (s : State) (rd rs1 rs2 : RegIdx) (imm : BitVec 12),
    (decode (imm ++ rs1 ++ 0b000#3 ++ rd ++ 0b0010011#7) = .ok (.addi rd rs1 imm) ∧
      ∃ t, exec (.addi rd rs1 imm) s = .next t ∧
        WritesOnlyReg rd (BitVec.ofInt 32 ((readReg rs1 s).toInt + imm.toInt)) (s.pc + 4) s t) ∧
    (decode (0b0000000#7 ++ rs2 ++ rs1 ++ 0b000#3 ++ rd ++ 0b0110011#7) = .ok (.add rd rs1 rs2) ∧
      ∃ t, exec (.add rd rs1 rs2) s = .next t ∧
        WritesOnlyReg rd (BitVec.ofNat 32 ((readReg rs1 s).toNat + (readReg rs2 s).toNat)) (s.pc + 4) s t) ∧
    (decode (0b0100000#7 ++ rs2 ++ rs1 ++ 0b000#3 ++ rd ++ 0b0110011#7) = .ok (.sub rd rs1 rs2) ∧
      ∃ t, exec (.sub rd rs1 rs2) s = .next t ∧
        WritesOnlyReg rd (BitVec.ofInt 32 ((readReg rs1 s).toInt - (readReg rs2 s).toInt)) (s.pc + 4) s t)

/-- SLTI, SLTIU, SLT and SLTU (R194, R195, R205, R206): encoding, result and frame. There is no flag (R46). -/
def Obligations.CompareResults : Prop :=
  ∀ (s : State) (rd rs1 rs2 : RegIdx) (imm : BitVec 12),
    (decode (imm ++ rs1 ++ 0b010#3 ++ rd ++ 0b0010011#7) = .ok (.slti rd rs1 imm) ∧
      ∃ t, exec (.slti rd rs1 imm) s = .next t ∧
        WritesOnlyReg rd (if (readReg rs1 s).toInt < imm.toInt then 1#32 else 0#32) (s.pc + 4) s t) ∧
    (decode (imm ++ rs1 ++ 0b011#3 ++ rd ++ 0b0010011#7) = .ok (.sltiu rd rs1 imm) ∧
      ∃ t, exec (.sltiu rd rs1 imm) s = .next t ∧
        WritesOnlyReg rd (if (readReg rs1 s).toNat < (imm.signExtend 32).toNat then 1#32 else 0#32) (s.pc + 4) s t) ∧
    (decode (0b0000000#7 ++ rs2 ++ rs1 ++ 0b010#3 ++ rd ++ 0b0110011#7) = .ok (.slt rd rs1 rs2) ∧
      ∃ t, exec (.slt rd rs1 rs2) s = .next t ∧
        WritesOnlyReg rd (if (readReg rs1 s).toInt < (readReg rs2 s).toInt then 1#32 else 0#32) (s.pc + 4) s t) ∧
    (decode (0b0000000#7 ++ rs2 ++ rs1 ++ 0b011#3 ++ rd ++ 0b0110011#7) = .ok (.sltu rd rs1 rs2) ∧
      ∃ t, exec (.sltu rd rs1 rs2) s = .next t ∧
        WritesOnlyReg rd (if (readReg rs1 s).toNat < (readReg rs2 s).toNat then 1#32 else 0#32) (s.pc + 4) s t)

/-- XORI, ORI, ANDI, XOR, OR and AND (R196, R197, R198, R207, R210, R211): encoding, result bit by bit and frame. Bit `k` of a
sign-extended immediate is bit `k` of the field, or its bit 11 from there up. -/
def Obligations.LogicResults : Prop :=
  ∀ (s : State) (rd rs1 rs2 : RegIdx) (imm : BitVec 12),
    (decode (imm ++ rs1 ++ 0b100#3 ++ rd ++ 0b0010011#7) = .ok (.xori rd rs1 imm) ∧
      ∃ t v, exec (.xori rd rs1 imm) s = .next t ∧ WritesOnlyReg rd v (s.pc + 4) s t ∧
        ∀ k, k < 32 → v.getLsbD k = ((readReg rs1 s).getLsbD k != imm.getLsbD (min k 11))) ∧
    (decode (imm ++ rs1 ++ 0b110#3 ++ rd ++ 0b0010011#7) = .ok (.ori rd rs1 imm) ∧
      ∃ t v, exec (.ori rd rs1 imm) s = .next t ∧ WritesOnlyReg rd v (s.pc + 4) s t ∧
        ∀ k, k < 32 → v.getLsbD k = ((readReg rs1 s).getLsbD k || imm.getLsbD (min k 11))) ∧
    (decode (imm ++ rs1 ++ 0b111#3 ++ rd ++ 0b0010011#7) = .ok (.andi rd rs1 imm) ∧
      ∃ t v, exec (.andi rd rs1 imm) s = .next t ∧ WritesOnlyReg rd v (s.pc + 4) s t ∧
        ∀ k, k < 32 → v.getLsbD k = ((readReg rs1 s).getLsbD k && imm.getLsbD (min k 11))) ∧
    (decode (0b0000000#7 ++ rs2 ++ rs1 ++ 0b100#3 ++ rd ++ 0b0110011#7) = .ok (.xor rd rs1 rs2) ∧
      ∃ t v, exec (.xor rd rs1 rs2) s = .next t ∧ WritesOnlyReg rd v (s.pc + 4) s t ∧
        ∀ k, k < 32 → v.getLsbD k = ((readReg rs1 s).getLsbD k != (readReg rs2 s).getLsbD k)) ∧
    (decode (0b0000000#7 ++ rs2 ++ rs1 ++ 0b110#3 ++ rd ++ 0b0110011#7) = .ok (.or rd rs1 rs2) ∧
      ∃ t v, exec (.or rd rs1 rs2) s = .next t ∧ WritesOnlyReg rd v (s.pc + 4) s t ∧
        ∀ k, k < 32 → v.getLsbD k = ((readReg rs1 s).getLsbD k || (readReg rs2 s).getLsbD k)) ∧
    (decode (0b0000000#7 ++ rs2 ++ rs1 ++ 0b111#3 ++ rd ++ 0b0110011#7) = .ok (.and rd rs1 rs2) ∧
      ∃ t v, exec (.and rd rs1 rs2) s = .next t ∧ WritesOnlyReg rd v (s.pc + 4) s t ∧
        ∀ k, k < 32 → v.getLsbD k = ((readReg rs1 s).getLsbD k && (readReg rs2 s).getLsbD k))

/-- SLLI, SRLI, SRAI, SLL, SRL and SRA (R199, R200, R201, R204, R208, R209): encoding, result and frame. A left shift multiplies by a
power of two modulo 2^32, a right shift is the floor of the unsigned or the signed reading; a register shift uses the low
five bits of `x[rs2]`. -/
def Obligations.ShiftResults : Prop :=
  ∀ (s : State) (rd rs1 rs2 : RegIdx) (shamt : BitVec 5),
    (decode (0b0000000#7 ++ shamt ++ rs1 ++ 0b001#3 ++ rd ++ 0b0010011#7) = .ok (.slli rd rs1 shamt) ∧
      ∃ t, exec (.slli rd rs1 shamt) s = .next t ∧
        WritesOnlyReg rd (BitVec.ofNat 32 ((readReg rs1 s).toNat * 2 ^ shamt.toNat)) (s.pc + 4) s t) ∧
    (decode (0b0000000#7 ++ shamt ++ rs1 ++ 0b101#3 ++ rd ++ 0b0010011#7) = .ok (.srli rd rs1 shamt) ∧
      ∃ t, exec (.srli rd rs1 shamt) s = .next t ∧
        WritesOnlyReg rd (BitVec.ofNat 32 ((readReg rs1 s).toNat / 2 ^ shamt.toNat)) (s.pc + 4) s t) ∧
    (decode (0b0100000#7 ++ shamt ++ rs1 ++ 0b101#3 ++ rd ++ 0b0010011#7) = .ok (.srai rd rs1 shamt) ∧
      ∃ t, exec (.srai rd rs1 shamt) s = .next t ∧
        WritesOnlyReg rd (BitVec.ofInt 32 ((readReg rs1 s).toInt / 2 ^ shamt.toNat)) (s.pc + 4) s t) ∧
    (decode (0b0000000#7 ++ rs2 ++ rs1 ++ 0b001#3 ++ rd ++ 0b0110011#7) = .ok (.sll rd rs1 rs2) ∧
      ∃ t, exec (.sll rd rs1 rs2) s = .next t ∧
        WritesOnlyReg rd (BitVec.ofNat 32 ((readReg rs1 s).toNat * 2 ^ ((readReg rs2 s).toNat % 32))) (s.pc + 4) s t) ∧
    (decode (0b0000000#7 ++ rs2 ++ rs1 ++ 0b101#3 ++ rd ++ 0b0110011#7) = .ok (.srl rd rs1 rs2) ∧
      ∃ t, exec (.srl rd rs1 rs2) s = .next t ∧
        WritesOnlyReg rd (BitVec.ofNat 32 ((readReg rs1 s).toNat / 2 ^ ((readReg rs2 s).toNat % 32))) (s.pc + 4) s t) ∧
    (decode (0b0100000#7 ++ rs2 ++ rs1 ++ 0b101#3 ++ rd ++ 0b0110011#7) = .ok (.sra rd rs1 rs2) ∧
      ∃ t, exec (.sra rd rs1 rs2) s = .next t ∧
        WritesOnlyReg rd (BitVec.ofInt 32 ((readReg rs1 s).toInt / 2 ^ ((readReg rs2 s).toNat % 32))) (s.pc + 4) s t)

/-- R190: every integer computational instruction completes in every state at `pc + 4`, writes its one destination register and
nothing else, and what it writes depends on nothing but its at most two source registers and the pc: two states that agree
on these get the same value. -/
def Obligations.IntegerResultsDependOnSourcesOnly : Prop :=
  ∀ (i : Instr) (rd : RegIdx) (sources : List RegIdx), i.integerOperands = some (rd, sources) →
    sources.length ≤ 2 ∧ ∀ s s' : State, s'.pc = s.pc → (∀ r ∈ sources, readReg r s' = readReg r s) →
      ∃ v t t', exec i s = .next t ∧ WritesOnlyReg rd v (s.pc + 4) s t ∧
        exec i s' = .next t' ∧ WritesOnlyReg rd v (s.pc + 4) s' t'

/-! ## Multiply and divide -/

/-- MUL, MULH, MULHSU and MULHU (R251 to R254): encoding, result and frame. The high halves are stated by what a floor is: the
largest integer whose product with 2^32 does not exceed the product. -/
def Obligations.MultiplyResults : Prop :=
  ∀ (s : State) (rd rs1 rs2 : RegIdx),
    let a := readReg rs1 s
    let b := readReg rs2 s
    (decode (0b0000001#7 ++ rs2 ++ rs1 ++ 0b000#3 ++ rd ++ 0b0110011#7) = .ok (.mul rd rs1 rs2) ∧
      ∃ t, exec (.mul rd rs1 rs2) s = .next t ∧
        WritesOnlyReg rd (BitVec.ofInt 32 (a.toInt * b.toInt)) (s.pc + 4) s t) ∧
    (decode (0b0000001#7 ++ rs2 ++ rs1 ++ 0b001#3 ++ rd ++ 0b0110011#7) = .ok (.mulh rd rs1 rs2) ∧
      ∃ t v, exec (.mulh rd rs1 rs2) s = .next t ∧ WritesOnlyReg rd v (s.pc + 4) s t ∧
        v.toInt * 2 ^ 32 ≤ a.toInt * b.toInt ∧ a.toInt * b.toInt < (v.toInt + 1) * 2 ^ 32) ∧
    (decode (0b0000001#7 ++ rs2 ++ rs1 ++ 0b010#3 ++ rd ++ 0b0110011#7) = .ok (.mulhsu rd rs1 rs2) ∧
      ∃ t v, exec (.mulhsu rd rs1 rs2) s = .next t ∧ WritesOnlyReg rd v (s.pc + 4) s t ∧
        v.toInt * 2 ^ 32 ≤ a.toInt * (b.toNat : Int) ∧ a.toInt * (b.toNat : Int) < (v.toInt + 1) * 2 ^ 32) ∧
    (decode (0b0000001#7 ++ rs2 ++ rs1 ++ 0b011#3 ++ rd ++ 0b0110011#7) = .ok (.mulhu rd rs1 rs2) ∧
      ∃ t v, exec (.mulhu rd rs1 rs2) s = .next t ∧ WritesOnlyReg rd v (s.pc + 4) s t ∧
        v.toNat * 2 ^ 32 ≤ a.toNat * b.toNat ∧ a.toNat * b.toNat < (v.toNat + 1) * 2 ^ 32)

/-- DIV, DIVU, REM and REMU (R255 to R258): encoding; a zero divisor under `ARITH_FAULT_ON_DIV_ZERO` faults before anything is
written; otherwise the result, with its corner cases, and the frame. -/
def Obligations.DivideResults : Prop :=
  ∀ (s : State) (rd rs1 rs2 : RegIdx),
    let a := readReg rs1 s
    let b := readReg rs2 s
    (∀ p ∈ [(0b100#3, Instr.div rd rs1 rs2), (0b101#3, .divu rd rs1 rs2), (0b110#3, .rem rd rs1 rs2),
        (0b111#3, .remu rd rs1 rs2)],
      decode (0b0000001#7 ++ rs2 ++ rs1 ++ p.1 ++ rd ++ 0b0110011#7) = .ok p.2 ∧
      (s.config.arithFaultOnDivZero = true → b = 0#32 →
        ∃ t, exec p.2 s = .next t ∧ FaultTaken (some (encode p.2)) .divZero none s t)) ∧
    (¬ (s.config.arithFaultOnDivZero = true ∧ b = 0#32) →
      (∃ t q, exec (.div rd rs1 rs2) s = .next t ∧ WritesOnlyReg rd q (s.pc + 4) s t ∧
        (b = 0#32 → q = 0xFFFFFFFF#32) ∧ (a = 0x80000000#32 → b = 0xFFFFFFFF#32 → q = 0x80000000#32) ∧
        (b ≠ 0#32 → ¬ (a = 0x80000000#32 ∧ b = 0xFFFFFFFF#32) → q.toInt = a.toInt.tdiv b.toInt)) ∧
      (∃ t q, exec (.divu rd rs1 rs2) s = .next t ∧ WritesOnlyReg rd q (s.pc + 4) s t ∧
        (b = 0#32 → q = 0xFFFFFFFF#32) ∧ (b ≠ 0#32 → q.toNat = a.toNat / b.toNat)) ∧
      (∃ t r, exec (.rem rd rs1 rs2) s = .next t ∧ WritesOnlyReg rd r (s.pc + 4) s t ∧
        (b = 0#32 → r = a) ∧ (a = 0x80000000#32 → b = 0xFFFFFFFF#32 → r = 0#32) ∧
        (b ≠ 0#32 → ¬ (a = 0x80000000#32 ∧ b = 0xFFFFFFFF#32) → r.toInt = a.toInt - a.toInt.tdiv b.toInt * b.toInt)) ∧
      (∃ t r, exec (.remu rd rs1 rs2) s = .next t ∧ WritesOnlyReg rd r (s.pc + 4) s t ∧
        (b = 0#32 → r = a) ∧ (b ≠ 0#32 → r.toNat = a.toNat % b.toNat)))

/-- R250, R255 to R258: the quotient and the remainder that the instructions leave for one pair of operands satisfy the division
identity: with `|r| < |b|` and the dividend's sign in the integers, and for DIV and REM modulo 2^32 in every case, the
overflow and a zero divisor included. -/
def Obligations.QuotientAndRemainderAgree : Prop :=
  ∀ (s : State) (rd rs1 rs2 : RegIdx), rd ≠ 0#5 → s.config.arithFaultOnDivZero = false →
    let a := readReg rs1 s
    let b := readReg rs2 s
    (∃ t u, exec (.div rd rs1 rs2) s = .next t ∧ exec (.rem rd rs1 rs2) s = .next u ∧
      a = readReg rd t * b + readReg rd u ∧
      (b ≠ 0#32 → (readReg rd u).toInt.natAbs < b.toInt.natAbs ∧
        (0 ≤ a.toInt → 0 ≤ (readReg rd u).toInt) ∧ (a.toInt ≤ 0 → (readReg rd u).toInt ≤ 0)) ∧
      (b ≠ 0#32 → ¬ (a = 0x80000000#32 ∧ b = 0xFFFFFFFF#32) →
        a.toInt = (readReg rd t).toInt * b.toInt + (readReg rd u).toInt)) ∧
    (∃ t u, exec (.divu rd rs1 rs2) s = .next t ∧ exec (.remu rd rs1 rs2) s = .next u ∧
      (b ≠ 0#32 → a.toNat = (readReg rd t).toNat * b.toNat + (readReg rd u).toNat ∧
        (readReg rd u).toNat < b.toNat))

/-- R259: under `ARITH_FAULT_ON_DIV_ZERO` a zero divisor raises ArithmeticFault(div_zero) on each of the four, whatever `rd` is, and
nothing is written; without it no instruction of the catalog raises ArithmeticFault, and with it no other one does. -/
def Obligations.ArithmeticFaultOnlyOnZeroDivisor : Prop :=
  ∀ (s : State) (rd rs1 rs2 : RegIdx),
    (s.config.arithFaultOnDivZero = true → readReg rs2 s = 0#32 →
      ∀ i ∈ [Instr.div rd rs1 rs2, .divu rd rs1 rs2, .rem rd rs1 rs2, .remu rd rs1 rs2],
        ∃ t, exec i s = .next t ∧ FaultTaken (some (encode i)) .divZero none s t) ∧
    ∀ (i : Instr) (t : State) (f : FaultRecord), s.fault = none → exec i s = .next t → t.fault = some f →
      f.kind = .arithmeticFault →
      s.config.arithFaultOnDivZero = true ∧ f.detail = .divZero ∧
        ∃ qd q1 q2, readReg q2 s = 0#32 ∧
          i ∈ [Instr.div qd q1 q2, .divu qd q1 q2, .rem qd q1 q2, .remu qd q1 q2]

/-! ## Control transfer -/

/-- JAL and JALR (R221, R222; the common rule R220): encoding; to an aligned target the link register is written and the pc moves
there; to another the fault is the jump's own, its value the target, and nothing is written. -/
def Obligations.JumpResults : Prop :=
  ∀ (s : State) (rd rs1 : RegIdx) (offset : BitVec 21) (imm : BitVec 12),
    (offset.getLsbD 0 = false → decode (offset.extractLsb' 20 1 ++ offset.extractLsb' 1 10 ++ offset.extractLsb' 11 1 ++
      offset.extractLsb' 12 8 ++ rd ++ 0b1101111#7) = .ok (.jal rd offset)) ∧
    decode (imm ++ rs1 ++ 0b000#3 ++ rd ++ 0b1100111#7) = .ok (.jalr rd rs1 imm) ∧
    ∀ p ∈ [(Instr.jal rd offset, BitVec.ofInt 32 (s.pc.toInt + offset.toInt)),
        (Instr.jalr rd rs1 imm, BitVec.ofNat 32 ((readReg rs1 s + imm.signExtend 32).toNat / 2 * 2))],
      (p.2.toNat % 4 = 0 → ∃ t, exec p.1 s = .next t ∧ WritesOnlyReg rd (s.pc + 4) p.2 s t) ∧
      (p.2.toNat % 4 ≠ 0 → ∃ t, exec p.1 s = .next t ∧ FaultTaken (some (encode p.1)) .fetch (some p.2) s t)

/-- BEQ, BNE, BLT, BGE, BLTU and BGEU (R223 to R228; the common rule R220): encoding; not taken, the branch goes on at `pc + 4` and
never faults, whatever its offset; taken to an aligned target it moves the pc there; taken to another it faults on itself. -/
def Obligations.BranchResults : Prop :=
  ∀ (s : State) (rs1 rs2 : RegIdx) (offset : BitVec 13),
    let a := readReg rs1 s
    let b := readReg rs2 s
    let target : Word := BitVec.ofInt 32 (s.pc.toInt + offset.toInt)
    ∀ p ∈ [(Instr.beq rs1 rs2 offset, 0b000#3, decide (a = b)), (.bne rs1 rs2 offset, 0b001#3, decide (a ≠ b)),
        (.blt rs1 rs2 offset, 0b100#3, decide (a.toInt < b.toInt)), (.bge rs1 rs2 offset, 0b101#3, decide (a.toInt ≥ b.toInt)),
        (.bltu rs1 rs2 offset, 0b110#3, decide (a.toNat < b.toNat)),
        (.bgeu rs1 rs2 offset, 0b111#3, decide (a.toNat ≥ b.toNat))],
      (offset.getLsbD 0 = false → decode (offset.extractLsb' 12 1 ++ offset.extractLsb' 5 6 ++ rs2 ++ rs1 ++ p.2.1 ++
        offset.extractLsb' 1 4 ++ offset.extractLsb' 11 1 ++ 0b1100011#7) = .ok p.1) ∧
      (p.2.2 = false → ∃ t, exec p.1 s = .next t ∧ MovesOnlyPc (s.pc + 4) s t) ∧
      (p.2.2 = true → target.toNat % 4 = 0 → ∃ t, exec p.1 s = .next t ∧ MovesOnlyPc target s t) ∧
      (p.2.2 = true → target.toNat % 4 ≠ 0 → ∃ t, exec p.1 s = .next t ∧
        FaultTaken (some (encode p.1)) .fetch (some target) s t)

/-! ## Loads and stores -/

/-- LB, LH, LW, LBU and LHU (R236, R238 to R242, with R235's address): encoding; a misaligned address faults before any request; an
aligned and admitted load writes `x[rd]` from the bytes at the address and issues exactly one read, `rd = x0` included; one
that Memory does not admit leaves no step (R66). That a load leaves every byte of Memory as before is the model's choice: R69
leaves a read's side effects to Memory, and the model's is plain storage (log 10). -/
def Obligations.LoadResults : Prop :=
  ∀ (s : State) (rd rs1 : RegIdx) (imm : BitVec 12),
    let ea := readReg rs1 s + imm.signExtend 32
    let half : BitVec 16 := s.mem.byteAt (ea + 1) ++ s.mem.byteAt ea
    ∀ p ∈ [(Instr.lb rd rs1 imm, 0b000#3, AccessSize.byte, BitVec.ofInt 32 (s.mem.byteAt ea).toInt),
        (.lh rd rs1 imm, 0b001#3, .half, BitVec.ofInt 32 half.toInt),
        (.lw rd rs1 imm, 0b010#3, .word,
          s.mem.byteAt (ea + 3) ++ s.mem.byteAt (ea + 2) ++ s.mem.byteAt (ea + 1) ++ s.mem.byteAt ea),
        (.lbu rd rs1 imm, 0b100#3, .byte, BitVec.ofNat 32 (s.mem.byteAt ea).toNat),
        (.lhu rd rs1 imm, 0b101#3, .half, BitVec.ofNat 32 half.toNat)],
      decode (imm ++ rs1 ++ p.2.1 ++ rd ++ 0b0000011#7) = .ok p.1 ∧
      (ea.toNat % p.2.2.1.bytes ≠ 0 → ∃ t, exec p.1 s = .next t ∧
        FaultTaken (some (encode p.1)) .load (some ea) s t) ∧
      (ea.toNat % p.2.2.1.bytes = 0 → admitted s ea p.2.2.1 .load = true → ∃ t, exec p.1 s = .next t ∧
        Loads rd p.2.2.2 (.read .load ea p.2.2.1) s t) ∧
      (ea.toNat % p.2.2.1.bytes = 0 → admitted s ea p.2.2.1 .load = false →
        exec p.1 s = .fault (.accessNotAdmitted ea p.2.2.1 .load))

/-- SB, SH and SW (R237, R243 to R245, with R235's address and R74's text region): encoding; the misalignment check, then the text
region under the configured policy, then the write: the low bytes of `x[rs2]` at the address, no other byte, and exactly one
request; a store that Memory does not admit leaves no step (R66). -/
def Obligations.StoreResults : Prop :=
  ∀ (s : State) (rs1 rs2 : RegIdx) (imm : BitVec 12), s.mem.wf →
    let ea := readReg rs1 s + imm.signExtend 32
    let shielded := s.config.smcMode = .off ∧ s.textBase.toNat ≤ ea.toNat ∧
      ea.toNat < s.textBase.toNat + 4 * s.program.length
    ∀ p ∈ [(Instr.sb rs2 rs1 imm, 0b000#3, AccessSize.byte), (.sh rs2 rs1 imm, 0b001#3, .half),
        (.sw rs2 rs1 imm, 0b010#3, .word)],
      decode (imm.extractLsb' 5 7 ++ rs2 ++ rs1 ++ p.2.1 ++ imm.extractLsb' 0 5 ++ 0b0100011#7) = .ok p.1 ∧
      (ea.toNat % p.2.2.bytes ≠ 0 → ∃ t, exec p.1 s = .next t ∧
        FaultTaken (some (encode p.1)) .store (some ea) s t) ∧
      (ea.toNat % p.2.2.bytes = 0 → shielded → s.config.storePolicy = .reject → ∃ t, exec p.1 s = .next t ∧
        FaultTaken (some (encode p.1)) .textStore (some ea) s t) ∧
      (ea.toNat % p.2.2.bytes = 0 → shielded → s.config.storePolicy = .ignore → ∃ t, exec p.1 s = .next t ∧
        MovesOnlyPc (s.pc + 4) s t) ∧
      (ea.toNat % p.2.2.bytes = 0 → ¬ shielded → admitted s ea p.2.2 .store = true → ∃ t v, exec p.1 s = .next t ∧
        Stores ea p.2.2.bytes (.write ea p.2.2 v) s t ∧ v.toNat = (readReg rs2 s).toNat % 2 ^ (8 * p.2.2.bytes) ∧
        ∀ k, k < p.2.2.bytes → t.mem.byteAt (ea + BitVec.ofNat 32 k) = (readReg rs2 s).extractLsb' (8 * k) 8) ∧
      (ea.toNat % p.2.2.bytes = 0 → ¬ shielded → admitted s ea p.2.2 .store = false →
        exec p.1 s = .fault (.accessNotAdmitted ea p.2.2 .store))

/-! ## System instructions -/

/-- FENCE and FENCE.I (R182, R183): whatever its fields, such a word decodes to a FENCE or a FENCE.I, which changes the pc and the
counters only, in every state. That the instruction keeps the ignored fields as operands is the model's choice (log 14): R104
gives FENCE only `pred` and `succ` and FENCE.I none, and words that R101 calls the same instruction are here different
terms of one constructor, with the same effect. -/
def Obligations.FencesOnlyAdvance : Prop :=
  ∀ (s : State) (fm pred succ : BitVec 4) (imm : BitVec 12) (rs1 rd : RegIdx),
    (decode (fm ++ pred ++ succ ++ rs1 ++ 0b000#3 ++ rd ++ 0b0001111#7) = .ok (.fence pred succ fm rs1 rd) ∧
      ∃ t, exec (.fence pred succ fm rs1 rd) s = .next t ∧ MovesOnlyPc (s.pc + 4) s t) ∧
    (decode (imm ++ rs1 ++ 0b001#3 ++ rd ++ 0b0001111#7) = .ok (.fenceI imm rs1 rd) ∧
      ∃ t, exec (.fenceI imm rs1 rd) s = .next t ∧ MovesOnlyPc (s.pc + 4) s t)

/-- R185 with R148: under `ENV_MIN` every ECALL ends the run with the exit code `signed(x[10])`; it retires first, at every
privilege level. -/
def Obligations.EcallExitsUnderEnvMin : Prop :=
  decode 0x00000073#32 = .ok .ecall ∧
  ∀ s : State, s.env = .envMin → ∃ t, exec .ecall s = .next t ∧ EnvExited (readReg 10#5 s) s t ∧ t.env = .envMin ∧
    getExitCode t = some (readReg 10#5 s).toInt

/-- R180, R184: with a platform's recorded answers, the next one decides: `Exit(code)` ends the run with that code, and
`Continue(writes)` applies the writes, drops those into a shielded text region, and goes on at `pc + 4` (the recorded answers and the
order of the writes are log 6 and log 7). -/
def Obligations.EcallFollowsTheRecordedAnswer : Prop :=
  ∀ (s : State) (rest : List EnvResult), s.mem.wf → TextPlaced s →
    (∀ code, s.env = .platform (.exit code :: rest) → ∃ t, exec .ecall s = .next t ∧ EnvExited code s t ∧
      t.env = .platform rest) ∧
    (∀ writes, s.env = .platform (.cont writes :: rest) → ∃ t, exec .ecall s = .next t ∧ EnvContinued writes s t ∧
      t.env = .platform rest)

/-- R180, R184: under every environment an ECALL completes, is no fault, and does what that environment answers: with `Exit(code)`
the run ends with that code, with `Continue(writes)` it goes on with those writes and no other. The answer is `ENV_MIN`'s
(R185), the next recorded one, or, when these are used up, the constant of which nothing is known, applied to the count of
retired steps and the view of R184: the registers, `x[0]` as 0, the pc and Memory. The sources of the answers are the model's
choice (log 6), and so are the order of the writes (log 7) and a view that shows all of Memory (log 25). -/
def Obligations.EcallCompletesUnderAnyEnvironment : Prop :=
  ∀ s : State, s.mem.wf → TextPlaced s →
    ((∀ r : RegIdx, (envView s).regs[r.toNat]'r.isLt = readReg r s) ∧ (envView s).pc = s.pc ∧ (envView s).mem = s.mem) ∧
    ∀ answer,
      (s.env = .envMin ∧ answer = .exit (readReg 10#5 s) ∨ (∃ rest, s.env = .platform (answer :: rest)) ∨
        s.env = .platform [] ∧ answer = Config.platformEnv s.stepCount (envView s)) →
      (consultEnv s).1 = answer ∧ ∃ t, exec .ecall s = .next t ∧
        (∀ code, answer = .exit code → EnvExited code s t) ∧ (∀ writes, answer = .cont writes → EnvContinued writes s t) ∧
        (s.env = .platform [] → t.env = .platform [])

/-- R181: EBREAK always raises Breakpoint(ebreak), in every state; the Reason is `EXCEPTION`, the recorded word its own, and nothing
else changes. -/
def Obligations.EbreakRaisesBreakpoint : Prop :=
  decode 0x00100073#32 = .ok .ebreak ∧ Detail.kind .ebreak = .breakpoint ∧
  ∀ s : State, ∃ t, exec .ebreak s = .next t ∧ FaultTaken (some 0x00100073#32) .ebreak none s t

/-! ## CSR instructions -/

/-- CSRRW and CSRRWI (R163, R166): encoding; on a readable and writable entry not behind the gate, `x[rd]` receives the prior
value and the entry the new one, all 32 bits, the source read first (so `rd = rs1` exchanges them), every other entry kept. -/
def Obligations.CsrWritesExchange : Prop :=
  ∀ (s : State) (rd rs1 : RegIdx) (csr : CsrAddr) (uimm : BitVec 5),
    decode (csr ++ rs1 ++ 0b001#3 ++ rd ++ 0b1110011#7) = .ok (.csrrw rd csr rs1) ∧
    decode (csr ++ uimm ++ 0b101#3 ++ rd ++ 0b1110011#7) = .ok (.csrrwi rd csr uimm) ∧
    ∀ e, CsrEntryAt csr s e → ¬ Gated e s → e.entry.access = .RW →
      (∃ t, exec (.csrrw rd csr rs1) s = .next t ∧ CsrExchanged rd e.value csr (fun _ => readReg rs1 s) s t) ∧
      (∃ t, exec (.csrrwi rd csr uimm) s = .next t ∧
        CsrExchanged rd e.value csr (fun _ => BitVec.ofNat 32 uimm.toNat) s t)

/-- CSRRS, CSRRC, CSRRSI and CSRRCI (R164, R165, R167, R168, with R162's suppression): encoding; with a source index or immediate not 0 the
prior value's bits are set or cleared, on an `RW` entry; with 0 it is a pure read, on a read-only entry too, and changes no
CSR. -/
def Obligations.CsrSetAndClearBits : Prop :=
  ∀ (s : State) (rd rs1 : RegIdx) (csr : CsrAddr) (uimm : BitVec 5),
    decode (csr ++ rs1 ++ 0b010#3 ++ rd ++ 0b1110011#7) = .ok (.csrrs rd csr rs1) ∧
    decode (csr ++ rs1 ++ 0b011#3 ++ rd ++ 0b1110011#7) = .ok (.csrrc rd csr rs1) ∧
    decode (csr ++ uimm ++ 0b110#3 ++ rd ++ 0b1110011#7) = .ok (.csrrsi rd csr uimm) ∧
    decode (csr ++ uimm ++ 0b111#3 ++ rd ++ 0b1110011#7) = .ok (.csrrci rd csr uimm) ∧
    ∀ e, CsrEntryAt csr s e → ¬ Gated e s →
      (e.entry.access = .RW → rs1 ≠ 0#5 →
        (∃ t, exec (.csrrs rd csr rs1) s = .next t ∧
          CsrExchanged rd e.value csr (fun _ => e.value ||| readReg rs1 s) s t) ∧
        (∃ t, exec (.csrrc rd csr rs1) s = .next t ∧
          CsrExchanged rd e.value csr (fun _ => e.value &&& ~~~readReg rs1 s) s t)) ∧
      (e.entry.access = .RW → uimm ≠ 0#5 →
        (∃ t, exec (.csrrsi rd csr uimm) s = .next t ∧
          CsrExchanged rd e.value csr (fun _ => e.value ||| BitVec.ofNat 32 uimm.toNat) s t) ∧
        (∃ t, exec (.csrrci rd csr uimm) s = .next t ∧
          CsrExchanged rd e.value csr (fun _ => e.value &&& ~~~BitVec.ofNat 32 uimm.toNat) s t)) ∧
      ∀ i ∈ [Instr.csrrs rd csr 0#5, .csrrc rd csr 0#5, .csrrsi rd csr 0#5, .csrrci rd csr 0#5],
        ∃ t v, exec i s = .next t ∧ CsrReadsAs e s v ∧ WritesOnlyReg rd v (s.pc + 4) s t

/-- R160, R170: the gates in their order, for each of the six: an absent address, then the privilege gate, then a write of a
read-only entry; each faults with the CSR address as value and changes nothing; when all three pass the check yields the
entry. -/
def Obligations.CsrGatesFaultInOrder : Prop :=
  ∀ (s : State) (rd rs1 : RegIdx) (csr : CsrAddr) (uimm : BitVec 5),
    ∀ p ∈ [(Instr.csrrw rd csr rs1, true), (.csrrwi rd csr uimm, true), (.csrrs rd csr rs1, decide (rs1 ≠ 0#5)),
        (.csrrc rd csr rs1, decide (rs1 ≠ 0#5)), (.csrrsi rd csr uimm, decide (uimm ≠ 0#5)),
        (.csrrci rd csr uimm, decide (uimm ≠ 0#5))],
      ((∀ e ∈ s.csrs, e.entry.addr ≠ csr.toNat) → ∃ t, exec p.1 s = .next t ∧
        FaultTaken (some (encode p.1)) .csrUnavailable (some (BitVec.ofNat 32 csr.toNat)) s t) ∧
      ∀ e, CsrEntryAt csr s e →
        (Gated e s → ∃ t, exec p.1 s = .next t ∧
          FaultTaken (some (encode p.1)) .csrGate (some (BitVec.ofNat 32 csr.toNat)) s t) ∧
        (¬ Gated e s → p.2 = true → e.entry.access = .RO → ∃ t, exec p.1 s = .next t ∧
          FaultTaken (some (encode p.1)) .csrReadOnly (some (BitVec.ofNat 32 csr.toNat)) s t) ∧
        (¬ Gated e s → (p.2 = true → e.entry.access = .RW) → csrCheck csr p.2 s = .ok e)

/-- R318, R39: a read of a counter entry yields the number of instructions retired before it, modulo 2^32, and the read right after
it exactly one more. -/
def Obligations.ConsecutiveCounterReadsDifferByOne : Prop :=
  ∀ (s : State) (csr : CsrAddr) (e : CsrReg) (rd rd' : RegIdx), CsrEntryAt csr s e → ¬ Gated e s →
    e.entry.update = .stepsLo → s.steps64 = BitVec.ofNat 64 s.stepCount → rd ≠ 0#5 → rd' ≠ 0#5 →
    ∃ t u, exec (.csrrs rd csr 0#5) s = .next t ∧ exec (.csrrs rd' csr 0#5) t = .next u ∧
      readReg rd t = BitVec.ofNat 32 s.stepCount ∧ readReg rd' u = readReg rd t + 1

/-- R36: the CSR space is separate from Memory: only the six CSR instructions change a stored CSR value, and they reach no byte of
Memory and no port. -/
def Obligations.CsrSpaceIsSeparateFromMemory : Prop :=
  ∀ (i : Instr) (s t : State), exec i s = .next t →
    (i.accessesCsr = false → t.csrs = s.csrs) ∧ (i.accessesCsr = true → t.mem = s.mem ∧ t.memPort = s.memPort)

/-- R38, R160, R295: as long as a run goes, no entry that is read-only or behind the privilege gate changes its stored value. -/
def Obligations.ProtectedCsrsNeverChange : Prop :=
  ∀ (s t : State) (k j : Nat) (e : CsrReg), csrMapWellFormed (s.csrs.map (·.entry)) = true → simulate k s = .next t →
    s.csrs[j]? = some e → e.entry.access = .RO ∨ Gated e s → t.csrs[j]? = some e

/-- R160, R295: what stands behind the privilege gate cannot be learned: with other values there, a run takes the same steps to the
same end and differs nowhere else. -/
def Obligations.GatedCsrsAreNotObservable : Prop :=
  ∀ (f : Nat → Word) (s : State) (k : Nat), csrMapWellFormed (s.csrs.map (·.entry)) = true →
    (∀ t, simulate k s = .next t → simulate k (withGatedValues f s) = .next (withGatedValues f t)) ∧
    (∀ r, simulate k s = .fault r → simulate k (withGatedValues f s) = .fault r)

/-! ## Completeness -/

/-- No instruction is refused, and none is stuck but at an access that Memory does not admit (R66, R142): with `MEM_ADMIT` true
everywhere, the default, every instruction answers a next state in every state, and so does every step of a run that has not
ended. -/
def Obligations.EveryInstructionRuns : Prop :=
  (∀ (i : Instr) (s : State), (∃ t, exec i s = .next t) ∨
    ∃ a n k, exec i s = .fault (.accessNotAdmitted a n k) ∧ admitted s a n k = false) ∧
  (∀ (i : Instr) (s : State), s.config.refused = [] → ∃ t, exec i s = .next t) ∧
  ∀ s : State, s.config.refused = [] → s.runState = .running → ∃ t, step s = .next t
end

