-- ==== Sys2Proof/Laws/Decode.lean ====
section
/-!
SUPPORT. What the operand tuple of an encoded word is (30_encoding.md R92 to R105), and which templates it matches (R108).
-/

namespace Sys2Proof

/-! ## Slices of a concatenation -/

/-- A slice above the low part is a slice of the high part. -/
theorem slice_up {v w s len : Nat} (hi : BitVec v) (lo : BitVec w) :
    (hi ++ lo).extractLsb' (s + w) len = hi.extractLsb' s len := by
  rw [BitVec.extractLsb'_append_eq_of_le (Nat.le_add_left w s), Nat.add_sub_cancel]

/-- The low part. -/
theorem slice_low {v w : Nat} (hi : BitVec v) (lo : BitVec w) : (hi ++ lo).extractLsb' 0 w = lo := by
  rw [BitVec.extractLsb'_append_eq_of_add_le (by omega)]
  exact BitVec.extractLsb'_eq_self

/-- The whole. -/
theorem slice_all {w : Nat} (x : BitVec w) : x.extractLsb' 0 w = x := BitVec.extractLsb'_eq_self

/-- Two adjacent slices join. -/
theorem slice_join {n a b : Nat} (s : Nat) (x : BitVec n) :
    x.extractLsb' (s + b) a ++ x.extractLsb' s b = x.extractLsb' s (a + b) := by
  apply BitVec.eq_of_getLsbD_eq
  intro i hi
  rw [BitVec.getLsbD_append]
  split
  · rename_i h; simp [h, hi]
  · have e : s + b + (i - b) = s + i := by omega
    have h1 : i - b < a := by omega
    simp [e, hi, h1]

/-- Bit 0 of an even offset. -/
theorem slice_even {n : Nat} (imm : BitVec n) (h : evenOffset imm = true) : imm.extractLsb' 0 1 = 0#1 := by
  apply BitVec.eq_of_getLsbD_eq
  intro i hi
  obtain rfl : i = 0 := by omega
  simpa [evenOffset] using h

/-! ## Immediates put together again (R95, R96, R98) -/

theorem join_immS (imm : BitVec 12) : imm.extractLsb' 5 7 ++ imm.extractLsb' 0 5 = imm :=
  (slice_join 0 imm).trans (slice_all imm)

theorem join_immB (imm : BitVec 13) (h : evenOffset imm = true) :
    imm.extractLsb' 12 1 ++ imm.extractLsb' 11 1 ++ imm.extractLsb' 5 6 ++ imm.extractLsb' 1 4 ++ 0#1 = imm := by
  have h1 : imm.extractLsb' 12 1 ++ imm.extractLsb' 11 1 = imm.extractLsb' 11 (1 + 1) := slice_join 11 imm
  have h2 : imm.extractLsb' 11 (1 + 1) ++ imm.extractLsb' 5 6 = imm.extractLsb' 5 (1 + 1 + 6) := slice_join 5 imm
  have h3 : imm.extractLsb' 5 (1 + 1 + 6) ++ imm.extractLsb' 1 4 = imm.extractLsb' 1 (1 + 1 + 6 + 4) :=
    slice_join 1 imm
  have h4 : imm.extractLsb' 1 (1 + 1 + 6 + 4) ++ imm.extractLsb' 0 1 = imm.extractLsb' 0 (1 + 1 + 6 + 4 + 1) :=
    slice_join 0 imm
  rw [h1, h2, h3, ← slice_even imm h, h4]
  exact slice_all imm

theorem join_immJ (imm : BitVec 21) (h : evenOffset imm = true) :
    imm.extractLsb' 20 1 ++ imm.extractLsb' 12 8 ++ imm.extractLsb' 11 1 ++ imm.extractLsb' 1 10 ++ 0#1 = imm := by
  have h1 : imm.extractLsb' 20 1 ++ imm.extractLsb' 12 8 = imm.extractLsb' 12 (1 + 8) := slice_join 12 imm
  have h2 : imm.extractLsb' 12 (1 + 8) ++ imm.extractLsb' 11 1 = imm.extractLsb' 11 (1 + 8 + 1) := slice_join 11 imm
  have h3 : imm.extractLsb' 11 (1 + 8 + 1) ++ imm.extractLsb' 1 10 = imm.extractLsb' 1 (1 + 8 + 1 + 10) :=
    slice_join 1 imm
  have h4 : imm.extractLsb' 1 (1 + 8 + 1 + 10) ++ imm.extractLsb' 0 1 = imm.extractLsb' 0 (1 + 8 + 1 + 10 + 1) :=
    slice_join 0 imm
  rw [h1, h2, h3, ← slice_even imm h, h4]
  exact slice_all imm

/-! ## The operand tuple of each format's encoding -/

section
variable (f7 : BitVec 7) (f3 : BitVec 3) (op : BitVec 7) (rd rs1 rs2 : RegIdx)

theorem operands_encodeR : decodeOperands (encodeR f7 f3 op rd rs1 rs2) .R = ⟨rd, rs1, rs2⟩ := by
  have h1 : fieldRd (encodeR f7 f3 op rd rs1 rs2) = rd := (slice_up ..).trans (slice_low ..)
  have h2 : fieldRs1 (encodeR f7 f3 op rd rs1 rs2) = rs1 :=
    (slice_up ..).trans ((slice_up ..).trans ((slice_up ..).trans (slice_low ..)))
  have h3 : fieldRs2 (encodeR f7 f3 op rd rs1 rs2) = rs2 :=
    (slice_up ..).trans ((slice_up ..).trans ((slice_up ..).trans ((slice_up ..).trans (slice_low ..))))
  simp only [decodeOperands, h1, h2, h3]

/-- Format SH has format R's bits, with the shift amount in the place of `rs2` (R94). -/
theorem operands_encodeSH (shamt : BitVec 5) :
    decodeOperands (encodeR f7 f3 op rd rs1 shamt) .SH = ⟨rd, rs1, shamt⟩ := by
  have h := operands_encodeR f7 f3 op rd rs1 shamt
  simp only [decodeOperands, OperandsR.mk.injEq] at h
  obtain ⟨h1, h2, h3⟩ := h
  simp only [decodeOperands, h1, h2, OperandsSH.mk.injEq, true_and]
  exact h3

theorem operands_encodeI (imm : BitVec 12) : decodeOperands (encodeI f3 op rd rs1 imm) .I = ⟨rd, rs1, imm⟩ := by
  have h1 : fieldRd (encodeI f3 op rd rs1 imm) = rd := (slice_up ..).trans (slice_low ..)
  have h2 : fieldRs1 (encodeI f3 op rd rs1 imm) = rs1 :=
    (slice_up ..).trans ((slice_up ..).trans ((slice_up ..).trans (slice_low ..)))
  have h3 : fieldImmI (encodeI f3 op rd rs1 imm) = imm :=
    (slice_up ..).trans ((slice_up ..).trans ((slice_up ..).trans ((slice_up ..).trans (slice_all ..))))
  simp only [decodeOperands, h1, h2, h3]

theorem operands_encodeS (imm : BitVec 12) : decodeOperands (encodeS f3 op rs2 rs1 imm) .S = ⟨rs2, rs1, imm⟩ := by
  have h1 : fieldRs1 (encodeS f3 op rs2 rs1 imm) = rs1 :=
    (slice_up ..).trans ((slice_up ..).trans ((slice_up ..).trans (slice_low ..)))
  have h2 : fieldRs2 (encodeS f3 op rs2 rs1 imm) = rs2 :=
    (slice_up ..).trans ((slice_up ..).trans ((slice_up ..).trans ((slice_up ..).trans (slice_low ..))))
  have h3 : (encodeS f3 op rs2 rs1 imm).extractLsb' 25 7 = imm.extractLsb' 5 7 :=
    (slice_up ..).trans ((slice_up ..).trans ((slice_up ..).trans ((slice_up ..).trans ((slice_up ..).trans
      (slice_all ..)))))
  have h4 : (encodeS f3 op rs2 rs1 imm).extractLsb' 7 5 = imm.extractLsb' 0 5 := (slice_up ..).trans (slice_low ..)
  simp only [decodeOperands, fieldImmS, h1, h2, h3, h4, join_immS]

theorem operands_encodeB (imm : BitVec 13) (h : evenOffset imm = true) :
    decodeOperands (encodeB f3 op rs1 rs2 imm) .B = ⟨rs1, rs2, imm⟩ := by
  have h1 : fieldRs1 (encodeB f3 op rs1 rs2 imm) = rs1 :=
    (slice_up ..).trans ((slice_up ..).trans ((slice_up ..).trans ((slice_up ..).trans (slice_low ..))))
  have h2 : fieldRs2 (encodeB f3 op rs1 rs2 imm) = rs2 :=
    (slice_up ..).trans ((slice_up ..).trans ((slice_up ..).trans ((slice_up ..).trans ((slice_up ..).trans
      (slice_low ..)))))
  have h3 : (encodeB f3 op rs1 rs2 imm).extractLsb' 31 1 = imm.extractLsb' 12 1 :=
    (slice_up ..).trans ((slice_up ..).trans ((slice_up ..).trans ((slice_up ..).trans ((slice_up ..).trans
      ((slice_up ..).trans ((slice_up ..).trans (slice_all ..)))))))
  have h4 : (encodeB f3 op rs1 rs2 imm).extractLsb' 7 1 = imm.extractLsb' 11 1 := (slice_up ..).trans (slice_low ..)
  have h5 : (encodeB f3 op rs1 rs2 imm).extractLsb' 25 6 = imm.extractLsb' 5 6 :=
    (slice_up ..).trans ((slice_up ..).trans ((slice_up ..).trans ((slice_up ..).trans ((slice_up ..).trans
      ((slice_up ..).trans (slice_low ..))))))
  have h6 : (encodeB f3 op rs1 rs2 imm).extractLsb' 8 4 = imm.extractLsb' 1 4 :=
    (slice_up ..).trans ((slice_up ..).trans (slice_low ..))
  simp only [decodeOperands, fieldImmB, h1, h2, h3, h4, h5, h6, join_immB imm h]

theorem operands_encodeU (imm20 : BitVec 20) : decodeOperands (encodeU op rd imm20) .U = ⟨rd, imm20⟩ := by
  have h1 : fieldRd (encodeU op rd imm20) = rd := (slice_up ..).trans (slice_low ..)
  have h2 : fieldImm20 (encodeU op rd imm20) = imm20 := (slice_up ..).trans ((slice_up ..).trans (slice_all ..))
  simp only [decodeOperands, h1, h2]

theorem operands_encodeJ (imm : BitVec 21) (h : evenOffset imm = true) :
    decodeOperands (encodeJ op rd imm) .J = ⟨rd, imm⟩ := by
  have h1 : fieldRd (encodeJ op rd imm) = rd := (slice_up ..).trans (slice_low ..)
  have h2 : (encodeJ op rd imm).extractLsb' 31 1 = imm.extractLsb' 20 1 :=
    (slice_up ..).trans ((slice_up ..).trans ((slice_up ..).trans ((slice_up ..).trans ((slice_up ..).trans
      (slice_all ..)))))
  have h3 : (encodeJ op rd imm).extractLsb' 12 8 = imm.extractLsb' 12 8 :=
    (slice_up ..).trans ((slice_up ..).trans (slice_low ..))
  have h4 : (encodeJ op rd imm).extractLsb' 20 1 = imm.extractLsb' 11 1 :=
    (slice_up ..).trans ((slice_up ..).trans ((slice_up ..).trans (slice_low ..)))
  have h5 : (encodeJ op rd imm).extractLsb' 21 10 = imm.extractLsb' 1 10 :=
    (slice_up ..).trans ((slice_up ..).trans ((slice_up ..).trans ((slice_up ..).trans (slice_low ..))))
  simp only [decodeOperands, fieldImmJ, h1, h2, h3, h4, h5, join_immJ imm h]

theorem operands_encodeCsrR (csr : CsrAddr) : decodeOperands (encodeCsrR f3 rd csr rs1) .CSRR = ⟨rd, csr, rs1⟩ := by
  have h := operands_encodeI f3 0b1110011#7 rd rs1 csr
  simp only [decodeOperands, OperandsI.mk.injEq] at h
  obtain ⟨h1, h2, h3⟩ := h
  simp only [decodeOperands, OperandsCSRR.mk.injEq]
  exact ⟨h1, h3, h2⟩

theorem operands_encodeCsrI (csr : CsrAddr) (uimm : BitVec 5) :
    decodeOperands (encodeCsrI f3 rd csr uimm) .CSRI = ⟨rd, csr, uimm⟩ := by
  have h := operands_encodeI f3 0b1110011#7 rd uimm csr
  simp only [decodeOperands, OperandsI.mk.injEq] at h
  obtain ⟨h1, h2, h3⟩ := h
  simp only [decodeOperands, OperandsCSRI.mk.injEq]
  exact ⟨h1, h3, h2⟩

/-! ## The bits a mask keeps of an encoding (R108) -/

theorem mask_encodeR : encodeR f7 f3 op rd rs1 rs2 &&& 0xFE00707F#32 = encodeR f7 f3 op 0 0 0 := by
  rw [show 0xFE00707F#32 = encodeR (BitVec.allOnes 7) (BitVec.allOnes 3) (BitVec.allOnes 7) 0 0 0 by decide]
  show (f7 ++ rs2 ++ rs1 ++ f3 ++ rd ++ op) &&&
      (BitVec.allOnes 7 ++ 0#5 ++ 0#5 ++ BitVec.allOnes 3 ++ 0#5 ++ BitVec.allOnes 7)
    = f7 ++ 0#5 ++ 0#5 ++ f3 ++ 0#5 ++ op
  simp only [BitVec.and_append, BitVec.and_allOnes, BitVec.and_zero]

theorem mask_encodeI (imm : BitVec 12) : encodeI f3 op rd rs1 imm &&& 0x707F#32 = encodeI f3 op 0 0 0 := by
  rw [show 0x707F#32 = encodeI (BitVec.allOnes 3) (BitVec.allOnes 7) 0 0 0 by decide]
  show (imm ++ rs1 ++ f3 ++ rd ++ op) &&& (0#12 ++ 0#5 ++ BitVec.allOnes 3 ++ 0#5 ++ BitVec.allOnes 7)
    = 0#12 ++ 0#5 ++ f3 ++ 0#5 ++ op
  simp only [BitVec.and_append, BitVec.and_allOnes, BitVec.and_zero]

theorem mask_encodeS (imm : BitVec 12) : encodeS f3 op rs2 rs1 imm &&& 0x707F#32 = encodeS f3 op 0 0 0 := by
  rw [show 0x707F#32 = encodeI (BitVec.allOnes 3) (BitVec.allOnes 7) 0 0 0 by decide]
  show (imm.extractLsb' 5 7 ++ rs2 ++ rs1 ++ f3 ++ imm.extractLsb' 0 5 ++ op) &&&
      (0#7 ++ 0#5 ++ 0#5 ++ BitVec.allOnes 3 ++ 0#5 ++ BitVec.allOnes 7)
    = 0#7 ++ 0#5 ++ 0#5 ++ f3 ++ 0#5 ++ op
  simp only [BitVec.and_append, BitVec.and_allOnes, BitVec.and_zero]

theorem mask_encodeB (imm : BitVec 13) : encodeB f3 op rs1 rs2 imm &&& 0x707F#32 = encodeB f3 op 0 0 0 := by
  rw [show 0x707F#32 = encodeI (BitVec.allOnes 3) (BitVec.allOnes 7) 0 0 0 by decide]
  show (imm.extractLsb' 12 1 ++ imm.extractLsb' 5 6 ++ rs2 ++ rs1 ++ f3 ++ imm.extractLsb' 1 4 ++ imm.extractLsb' 11 1
      ++ op) &&& (0#1 ++ 0#6 ++ 0#5 ++ 0#5 ++ BitVec.allOnes 3 ++ 0#4 ++ 0#1 ++ BitVec.allOnes 7)
    = 0#1 ++ 0#6 ++ 0#5 ++ 0#5 ++ f3 ++ 0#4 ++ 0#1 ++ op
  simp only [BitVec.and_append, BitVec.and_allOnes, BitVec.and_zero]

theorem mask_encodeU (imm20 : BitVec 20) : encodeU op rd imm20 &&& 0x7F#32 = encodeU op 0 0 := by
  rw [show 0x7F#32 = encodeU (BitVec.allOnes 7) 0 0 by decide]
  show (imm20 ++ rd ++ op) &&& (0#20 ++ 0#5 ++ BitVec.allOnes 7) = 0#20 ++ 0#5 ++ op
  simp only [BitVec.and_append, BitVec.and_allOnes, BitVec.and_zero]

theorem mask_encodeJ (imm : BitVec 21) : encodeJ op rd imm &&& 0x7F#32 = encodeJ op 0 0 := by
  rw [show 0x7F#32 = encodeU (BitVec.allOnes 7) 0 0 by decide]
  show (imm.extractLsb' 20 1 ++ imm.extractLsb' 1 10 ++ imm.extractLsb' 11 1 ++ imm.extractLsb' 12 8 ++ rd ++ op) &&&
      (0#1 ++ 0#10 ++ 0#1 ++ 0#8 ++ 0#5 ++ BitVec.allOnes 7)
    = 0#1 ++ 0#10 ++ 0#1 ++ 0#8 ++ 0#5 ++ op
  simp only [BitVec.and_append, BitVec.and_allOnes, BitVec.and_zero]

theorem mask_encodeCsrR (csr : CsrAddr) : encodeCsrR f3 rd csr rs1 &&& 0x707F#32 = encodeCsrR f3 0 0 0 :=
  mask_encodeI f3 0b1110011#7 rd rs1 csr

theorem mask_encodeCsrI (csr : CsrAddr) (uimm : BitVec 5) :
    encodeCsrI f3 rd csr uimm &&& 0x707F#32 = encodeCsrI f3 0 0 0 :=
  mask_encodeI f3 0b1110011#7 rd uimm csr

end

end Sys2Proof
end

