-- ==== Sys2Proof/Laws/Memory.lean ====
section
/-!
SUPPORT. The laws of Memory (20_memory.md R64, R65): reading after a write, and that every operation keeps the canonical form.
-/

namespace Sys2Proof.Machine

/-- Below every listed address, nothing is listed. -/
theorem Memory.get_of_lt {m : Memory} {k : Nat} (h : ∀ c ∈ m, k < c.1) : m.get k = Memory.unlisted := by
  induction m with
  | nil => rfl
  | cons c rest ih =>
    obtain ⟨a, b⟩ := c
    have hk : k ≠ a := Nat.ne_of_lt (h _ (List.mem_cons_self ..))
    simp only [Memory.get, hk, if_false]
    exact ih fun c hc => h c (List.mem_cons_of_mem _ hc)

theorem Memory.get_cons {m : Memory} {k j : Nat} {v : Byte} (h : ∀ c ∈ m, k < c.1) :
    (Memory.cons k v m).get j = if j = k then v else m.get j := by
  unfold Memory.cons
  split
  · rename_i hv
    split
    · rename_i hj; subst hj hv; exact Memory.get_of_lt h
    · rfl
  · rfl

/-- Reading a byte after writing one (R64, R65). -/
theorem Memory.get_set {m : Memory} (hm : m.Pairwise (fun c d => c.1 < d.1)) (k j : Nat) (v : Byte) :
    (m.set k v).get j = if j = k then v else m.get j := by
  induction m with
  | nil => simpa [Memory.set] using Memory.get_cons (m := []) (k := k) (j := j) (v := v) (by simp)
  | cons c rest ih =>
    obtain ⟨a, b⟩ := c
    have hrest := List.pairwise_cons.mp hm
    unfold Memory.set
    split
    · rename_i hlt
      refine Memory.get_cons fun c hc => ?_
      rcases List.mem_cons.mp hc with rfl | hc
      · exact hlt
      · exact Nat.lt_trans hlt (hrest.1 c hc)
    · split
      · rename_i _ hka; subst hka
        rw [Memory.get_cons hrest.1]
        by_cases hj : j = k <;> simp [hj, Memory.get]
      · rename_i hlt hne
        simp only [Memory.get, ih hrest.2]
        by_cases hj : j = a
        · subst hj; simp [Ne.symm hne]
        · simp [hj]

theorem Memory.cons_bound {m : Memory} {n k : Nat} {v : Byte} (hk : n < k) (hm : ∀ c ∈ m, n < c.1) :
    ∀ c ∈ Memory.cons k v m, n < c.1 := by
  unfold Memory.cons
  split
  · exact hm
  · intro c hc
    rcases List.mem_cons.mp hc with rfl | hc
    · exact hk
    · exact hm c hc

theorem Memory.set_bound {m : Memory} {n k : Nat} {v : Byte} (hk : n < k) (hm : ∀ c ∈ m, n < c.1) :
    ∀ c ∈ m.set k v, n < c.1 := by
  induction m with
  | nil => exact Memory.cons_bound hk hm
  | cons c rest ih =>
    obtain ⟨a, b⟩ := c
    have hr : ∀ c ∈ rest, n < c.1 := fun c hc => hm c (List.mem_cons_of_mem _ hc)
    unfold Memory.set
    split
    · exact Memory.cons_bound hk hm
    · split
      · exact Memory.cons_bound hk hr
      · intro c hc
        rcases List.mem_cons.mp hc with rfl | hc
        · exact hm _ (List.mem_cons_self ..)
        · exact ih hr c hc

theorem Memory.wf_tail {c : Host.Cell} {m : Memory} (h : Memory.wf (c :: m)) : m.wf :=
  ⟨(List.pairwise_cons.mp h.1).2, fun d hd => h.2 d (List.mem_cons_of_mem _ hd)⟩

theorem Memory.wf_cons {m : Memory} {k : Nat} {v : Byte} (hm : m.wf) (hk : k < 2 ^ 32) (hb : ∀ c ∈ m, k < c.1) :
    (Memory.cons k v m).wf := by
  unfold Memory.cons
  split
  · exact hm
  · rename_i hv
    refine ⟨List.pairwise_cons.mpr ⟨hb, hm.1⟩, fun c hc => ?_⟩
    rcases List.mem_cons.mp hc with rfl | hc
    · exact ⟨hk, hv⟩
    · exact hm.2 c hc

/-- A byte write keeps the canonical form. -/
theorem Memory.wf_set {m : Memory} (hm : m.wf) {k : Nat} (hk : k < 2 ^ 32) (v : Byte) : (m.set k v).wf := by
  induction m with
  | nil => exact Memory.wf_cons hm hk (by simp)
  | cons c rest ih =>
    obtain ⟨a, b⟩ := c
    have hrest := List.pairwise_cons.mp hm.1
    have ht := Memory.wf_tail hm
    unfold Memory.set
    split
    · rename_i hlt
      refine Memory.wf_cons hm hk fun c hc => ?_
      rcases List.mem_cons.mp hc with rfl | hc
      · exact hlt
      · exact Nat.lt_trans hlt (hrest.1 c hc)
    · split
      · rename_i _ hka; subst hka
        exact Memory.wf_cons ht hk hrest.1
      · rename_i hlt hne
        refine ⟨List.pairwise_cons.mpr ⟨Memory.set_bound (by simp at hlt ⊢; omega) hrest.1, (ih ht).1⟩, fun c hc => ?_⟩
        rcases List.mem_cons.mp hc with rfl | hc
        · exact hm.2 _ (List.mem_cons_self ..)
        · exact (ih ht).2 c hc

theorem Memory.wf_setByte {m : Memory} (hm : m.wf) (a : Word) (v : Byte) : (m.setByte a v).wf :=
  Memory.wf_set hm a.isLt v

theorem Memory.byteAt_setByte {m : Memory} (hm : m.wf) (a b : Word) (v : Byte) :
    (m.setByte a v).byteAt b = if b = a then v else m.byteAt b := by
  simp only [Memory.byteAt, Memory.setByte, Memory.get_set hm.1, BitVec.toNat_inj]

/-- Every `MemWrite` keeps the canonical form (R65). -/
theorem Memory.wf_write {m : Memory} (hm : m.wf) (a : Word) (n : AccessSize) (v : BitVec n.bits) :
    (m.write a n v).wf := by
  cases n
  · exact Memory.wf_setByte hm _ _
  · exact Memory.wf_setByte (Memory.wf_setByte hm _ _) _ _
  · exact Memory.wf_setByte (Memory.wf_setByte (Memory.wf_setByte (Memory.wf_setByte hm _ _) _ _) _ _) _ _

theorem Memory.byteAt_write_byte {m : Memory} (hm : m.wf) (a b : Word) (v : BitVec 8) :
    (m.write a .byte v).byteAt b = if b = a then v else m.byteAt b :=
  Memory.byteAt_setByte hm a b v

theorem Memory.byteAt_write_half {m : Memory} (hm : m.wf) (a b : Word) (v : BitVec 16) :
    (m.write a .half v).byteAt b =
      if b = a + 1 then v.extractLsb' 8 8 else if b = a then v.extractLsb' 0 8 else m.byteAt b := by
  simp only [Memory.write, Memory.byteAt_setByte (Memory.wf_setByte hm _ _), Memory.byteAt_setByte hm]

theorem Memory.byteAt_write_word {m : Memory} (hm : m.wf) (a b : Word) (v : BitVec 32) :
    (m.write a .word v).byteAt b =
      if b = a + 3 then v.extractLsb' 24 8 else if b = a + 2 then v.extractLsb' 16 8
      else if b = a + 1 then v.extractLsb' 8 8 else if b = a then v.extractLsb' 0 8 else m.byteAt b := by
  have h0 := Memory.wf_setByte hm a (v.extractLsb' 0 8)
  have h1 := Memory.wf_setByte h0 (a + 1) (v.extractLsb' 8 8)
  have h2 := Memory.wf_setByte h1 (a + 2) (v.extractLsb' 16 8)
  simp only [Memory.write, Memory.byteAt_setByte h2, Memory.byteAt_setByte h1, Memory.byteAt_setByte h0,
    Memory.byteAt_setByte hm]

/-- The memory image of run setup is canonical. -/
theorem Memory.wf_ofImage (image : List (Word × Byte)) : (Memory.ofImage image).wf := by
  suffices h : ∀ m : Memory, m.wf → (image.foldl (fun m c => m.setByte c.1 c.2) m).wf from
    h [] ⟨List.Pairwise.nil, by simp⟩
  induction image with
  | nil => exact fun m hm => hm
  | cons c rest ih => exact fun m hm => ih _ (Memory.wf_setByte hm _ _)

end Sys2Proof.Machine
end

