-- ==== Sys2Proof/Laws/State.lean ====
section
/-!
SUPPORT. One lemma per field per update of State, true by rfl, so that no later proof unfolds a record update.
-/

namespace Sys2Proof.Machine

/-! ## `writeReg` -/

@[simp] theorem writeReg_regs (r : RegIdx) (v : Word) (s : State) : (writeReg r v s).regs = if r = 0#5 then s.regs else s.regs.set r.toNat v r.isLt := rfl
@[simp] theorem writeReg_pc (r : RegIdx) (v : Word) (s : State) : (writeReg r v s).pc = s.pc := rfl
@[simp] theorem writeReg_priv (r : RegIdx) (v : Word) (s : State) : (writeReg r v s).priv = s.priv := rfl
@[simp] theorem writeReg_csrs (r : RegIdx) (v : Word) (s : State) : (writeReg r v s).csrs = s.csrs := rfl
@[simp] theorem writeReg_steps64 (r : RegIdx) (v : Word) (s : State) : (writeReg r v s).steps64 = s.steps64 := rfl
@[simp] theorem writeReg_runState (r : RegIdx) (v : Word) (s : State) : (writeReg r v s).runState = s.runState := rfl
@[simp] theorem writeReg_reason (r : RegIdx) (v : Word) (s : State) : (writeReg r v s).reason = s.reason := rfl
@[simp] theorem writeReg_exitCode (r : RegIdx) (v : Word) (s : State) : (writeReg r v s).exitCode = s.exitCode := rfl
@[simp] theorem writeReg_fault (r : RegIdx) (v : Word) (s : State) : (writeReg r v s).fault = s.fault := rfl
@[simp] theorem writeReg_stepCount (r : RegIdx) (v : Word) (s : State) : (writeReg r v s).stepCount = s.stepCount := rfl
@[simp] theorem writeReg_mem (r : RegIdx) (v : Word) (s : State) : (writeReg r v s).mem = s.mem := rfl
@[simp] theorem writeReg_config (r : RegIdx) (v : Word) (s : State) : (writeReg r v s).config = s.config := rfl
@[simp] theorem writeReg_program (r : RegIdx) (v : Word) (s : State) : (writeReg r v s).program = s.program := rfl
@[simp] theorem writeReg_textBase (r : RegIdx) (v : Word) (s : State) : (writeReg r v s).textBase = s.textBase := rfl
@[simp] theorem writeReg_stopReqs (r : RegIdx) (v : Word) (s : State) : (writeReg r v s).stopReqs = s.stopReqs := rfl
@[simp] theorem writeReg_env (r : RegIdx) (v : Word) (s : State) : (writeReg r v s).env = s.env := rfl
@[simp] theorem writeReg_memPort (r : RegIdx) (v : Word) (s : State) : (writeReg r v s).memPort = s.memPort := rfl
@[simp] theorem inText_writeReg (r : RegIdx) (v : Word) (s : State) (x : Word) : inText (writeReg r v s) x = inText s x := rfl

/-! ## `retire` -/

@[simp] theorem retire_regs (p : Word) (s : State) : (retire p s).regs = s.regs := rfl
@[simp] theorem retire_pc (p : Word) (s : State) : (retire p s).pc = p := rfl
@[simp] theorem retire_priv (p : Word) (s : State) : (retire p s).priv = s.priv := rfl
@[simp] theorem retire_csrs (p : Word) (s : State) : (retire p s).csrs = s.csrs := rfl
@[simp] theorem retire_steps64 (p : Word) (s : State) : (retire p s).steps64 = s.steps64 + 1 := rfl
@[simp] theorem retire_runState (p : Word) (s : State) : (retire p s).runState = s.runState := rfl
@[simp] theorem retire_reason (p : Word) (s : State) : (retire p s).reason = s.reason := rfl
@[simp] theorem retire_exitCode (p : Word) (s : State) : (retire p s).exitCode = s.exitCode := rfl
@[simp] theorem retire_fault (p : Word) (s : State) : (retire p s).fault = s.fault := rfl
@[simp] theorem retire_stepCount (p : Word) (s : State) : (retire p s).stepCount = s.stepCount + 1 := rfl
@[simp] theorem retire_mem (p : Word) (s : State) : (retire p s).mem = s.mem := rfl
@[simp] theorem retire_config (p : Word) (s : State) : (retire p s).config = s.config := rfl
@[simp] theorem retire_program (p : Word) (s : State) : (retire p s).program = s.program := rfl
@[simp] theorem retire_textBase (p : Word) (s : State) : (retire p s).textBase = s.textBase := rfl
@[simp] theorem retire_stopReqs (p : Word) (s : State) : (retire p s).stopReqs = s.stopReqs := rfl
@[simp] theorem retire_env (p : Word) (s : State) : (retire p s).env = s.env := rfl
@[simp] theorem retire_memPort (p : Word) (s : State) : (retire p s).memPort = s.memPort := rfl
@[simp] theorem readReg_retire (k : RegIdx) (p : Word) (s : State) : readReg k (retire p s) = readReg k s := rfl
@[simp] theorem inText_retire (p : Word) (s : State) (x : Word) : inText (retire p s) x = inText s x := rfl

/-! ## `retireNext` -/

@[simp] theorem retireNext_regs (s : State) : (retireNext s).regs = s.regs := rfl
@[simp] theorem retireNext_pc (s : State) : (retireNext s).pc = s.pc + 4 := rfl
@[simp] theorem retireNext_priv (s : State) : (retireNext s).priv = s.priv := rfl
@[simp] theorem retireNext_csrs (s : State) : (retireNext s).csrs = s.csrs := rfl
@[simp] theorem retireNext_steps64 (s : State) : (retireNext s).steps64 = s.steps64 + 1 := rfl
@[simp] theorem retireNext_runState (s : State) : (retireNext s).runState = s.runState := rfl
@[simp] theorem retireNext_reason (s : State) : (retireNext s).reason = s.reason := rfl
@[simp] theorem retireNext_exitCode (s : State) : (retireNext s).exitCode = s.exitCode := rfl
@[simp] theorem retireNext_fault (s : State) : (retireNext s).fault = s.fault := rfl
@[simp] theorem retireNext_stepCount (s : State) : (retireNext s).stepCount = s.stepCount + 1 := rfl
@[simp] theorem retireNext_mem (s : State) : (retireNext s).mem = s.mem := rfl
@[simp] theorem retireNext_config (s : State) : (retireNext s).config = s.config := rfl
@[simp] theorem retireNext_program (s : State) : (retireNext s).program = s.program := rfl
@[simp] theorem retireNext_textBase (s : State) : (retireNext s).textBase = s.textBase := rfl
@[simp] theorem retireNext_stopReqs (s : State) : (retireNext s).stopReqs = s.stopReqs := rfl
@[simp] theorem retireNext_env (s : State) : (retireNext s).env = s.env := rfl
@[simp] theorem retireNext_memPort (s : State) : (retireNext s).memPort = s.memPort := rfl
@[simp] theorem readReg_retireNext (k : RegIdx) (s : State) : readReg k (retireNext s) = readReg k s := rfl
@[simp] theorem inText_retireNext (s : State) (x : Word) : inText (retireNext s) x = inText s x := rfl

/-! ## `halt` -/

@[simp] theorem halt_regs (r : Reason) (s : State) : (halt r s).regs = s.regs := rfl
@[simp] theorem halt_pc (r : Reason) (s : State) : (halt r s).pc = s.pc := rfl
@[simp] theorem halt_priv (r : Reason) (s : State) : (halt r s).priv = s.priv := rfl
@[simp] theorem halt_csrs (r : Reason) (s : State) : (halt r s).csrs = s.csrs := rfl
@[simp] theorem halt_steps64 (r : Reason) (s : State) : (halt r s).steps64 = s.steps64 := rfl
@[simp] theorem halt_runState (r : Reason) (s : State) : (halt r s).runState = .halted := rfl
@[simp] theorem halt_reason (r : Reason) (s : State) : (halt r s).reason = some r := rfl
@[simp] theorem halt_exitCode (r : Reason) (s : State) : (halt r s).exitCode = s.exitCode := rfl
@[simp] theorem halt_fault (r : Reason) (s : State) : (halt r s).fault = s.fault := rfl
@[simp] theorem halt_stepCount (r : Reason) (s : State) : (halt r s).stepCount = s.stepCount := rfl
@[simp] theorem halt_mem (r : Reason) (s : State) : (halt r s).mem = s.mem := rfl
@[simp] theorem halt_config (r : Reason) (s : State) : (halt r s).config = s.config := rfl
@[simp] theorem halt_program (r : Reason) (s : State) : (halt r s).program = s.program := rfl
@[simp] theorem halt_textBase (r : Reason) (s : State) : (halt r s).textBase = s.textBase := rfl
@[simp] theorem halt_stopReqs (r : Reason) (s : State) : (halt r s).stopReqs = s.stopReqs := rfl
@[simp] theorem halt_env (r : Reason) (s : State) : (halt r s).env = s.env := rfl
@[simp] theorem halt_memPort (r : Reason) (s : State) : (halt r s).memPort = s.memPort := rfl
@[simp] theorem readReg_halt (k : RegIdx) (r : Reason) (s : State) : readReg k (halt r s) = readReg k s := rfl
@[simp] theorem inText_halt (r : Reason) (s : State) (x : Word) : inText (halt r s) x = inText s x := rfl

/-! ## `raise` -/

@[simp] theorem raise_regs (w : Option Word) (d : Detail) (v : Option Word) (s : State) : (raise w d v s).regs = s.regs := rfl
@[simp] theorem raise_pc (w : Option Word) (d : Detail) (v : Option Word) (s : State) : (raise w d v s).pc = s.pc := rfl
@[simp] theorem raise_priv (w : Option Word) (d : Detail) (v : Option Word) (s : State) : (raise w d v s).priv = s.priv := rfl
@[simp] theorem raise_csrs (w : Option Word) (d : Detail) (v : Option Word) (s : State) : (raise w d v s).csrs = s.csrs := rfl
@[simp] theorem raise_steps64 (w : Option Word) (d : Detail) (v : Option Word) (s : State) : (raise w d v s).steps64 = s.steps64 := rfl
@[simp] theorem raise_runState (w : Option Word) (d : Detail) (v : Option Word) (s : State) : (raise w d v s).runState = .halted := rfl
@[simp] theorem raise_reason (w : Option Word) (d : Detail) (v : Option Word) (s : State) : (raise w d v s).reason = some .exception := rfl
@[simp] theorem raise_exitCode (w : Option Word) (d : Detail) (v : Option Word) (s : State) : (raise w d v s).exitCode = s.exitCode := rfl
@[simp] theorem raise_fault (w : Option Word) (d : Detail) (v : Option Word) (s : State) : (raise w d v s).fault = some (faultRecord w d v s) := rfl
@[simp] theorem raise_stepCount (w : Option Word) (d : Detail) (v : Option Word) (s : State) : (raise w d v s).stepCount = s.stepCount := rfl
@[simp] theorem raise_mem (w : Option Word) (d : Detail) (v : Option Word) (s : State) : (raise w d v s).mem = s.mem := rfl
@[simp] theorem raise_config (w : Option Word) (d : Detail) (v : Option Word) (s : State) : (raise w d v s).config = s.config := rfl
@[simp] theorem raise_program (w : Option Word) (d : Detail) (v : Option Word) (s : State) : (raise w d v s).program = s.program := rfl
@[simp] theorem raise_textBase (w : Option Word) (d : Detail) (v : Option Word) (s : State) : (raise w d v s).textBase = s.textBase := rfl
@[simp] theorem raise_stopReqs (w : Option Word) (d : Detail) (v : Option Word) (s : State) : (raise w d v s).stopReqs = s.stopReqs := rfl
@[simp] theorem raise_env (w : Option Word) (d : Detail) (v : Option Word) (s : State) : (raise w d v s).env = s.env := rfl
@[simp] theorem raise_memPort (w : Option Word) (d : Detail) (v : Option Word) (s : State) : (raise w d v s).memPort = s.memPort := rfl
@[simp] theorem readReg_raise (k : RegIdx) (w : Option Word) (d : Detail) (v : Option Word) (s : State) : readReg k (raise w d v s) = readReg k s := rfl
@[simp] theorem inText_raise (w : Option Word) (d : Detail) (v : Option Word) (s : State) (x : Word) : inText (raise w d v s) x = inText s x := rfl

/-! ## `issue` -/

@[simp] theorem issue_regs (q : MemRequest) (s : State) : (issue q s).regs = s.regs := rfl
@[simp] theorem issue_pc (q : MemRequest) (s : State) : (issue q s).pc = s.pc := rfl
@[simp] theorem issue_priv (q : MemRequest) (s : State) : (issue q s).priv = s.priv := rfl
@[simp] theorem issue_csrs (q : MemRequest) (s : State) : (issue q s).csrs = s.csrs := rfl
@[simp] theorem issue_steps64 (q : MemRequest) (s : State) : (issue q s).steps64 = s.steps64 := rfl
@[simp] theorem issue_runState (q : MemRequest) (s : State) : (issue q s).runState = s.runState := rfl
@[simp] theorem issue_reason (q : MemRequest) (s : State) : (issue q s).reason = s.reason := rfl
@[simp] theorem issue_exitCode (q : MemRequest) (s : State) : (issue q s).exitCode = s.exitCode := rfl
@[simp] theorem issue_fault (q : MemRequest) (s : State) : (issue q s).fault = s.fault := rfl
@[simp] theorem issue_stepCount (q : MemRequest) (s : State) : (issue q s).stepCount = s.stepCount := rfl
@[simp] theorem issue_mem (q : MemRequest) (s : State) : (issue q s).mem = s.mem := rfl
@[simp] theorem issue_config (q : MemRequest) (s : State) : (issue q s).config = s.config := rfl
@[simp] theorem issue_program (q : MemRequest) (s : State) : (issue q s).program = s.program := rfl
@[simp] theorem issue_textBase (q : MemRequest) (s : State) : (issue q s).textBase = s.textBase := rfl
@[simp] theorem issue_stopReqs (q : MemRequest) (s : State) : (issue q s).stopReqs = s.stopReqs := rfl
@[simp] theorem issue_env (q : MemRequest) (s : State) : (issue q s).env = s.env := rfl
@[simp] theorem issue_memPort (q : MemRequest) (s : State) : (issue q s).memPort = q :: s.memPort := rfl
@[simp] theorem readReg_issue (k : RegIdx) (q : MemRequest) (s : State) : readReg k (issue q s) = readReg k s := rfl
@[simp] theorem inText_issue (q : MemRequest) (s : State) (x : Word) : inText (issue q s) x = inText s x := rfl

/-! ## `writeMem` -/

@[simp] theorem writeMem_regs (a : Word) (n : AccessSize) (v : BitVec n.bits) (s : State) : (writeMem a n v s).regs = s.regs := rfl
@[simp] theorem writeMem_pc (a : Word) (n : AccessSize) (v : BitVec n.bits) (s : State) : (writeMem a n v s).pc = s.pc := rfl
@[simp] theorem writeMem_priv (a : Word) (n : AccessSize) (v : BitVec n.bits) (s : State) : (writeMem a n v s).priv = s.priv := rfl
@[simp] theorem writeMem_csrs (a : Word) (n : AccessSize) (v : BitVec n.bits) (s : State) : (writeMem a n v s).csrs = s.csrs := rfl
@[simp] theorem writeMem_steps64 (a : Word) (n : AccessSize) (v : BitVec n.bits) (s : State) : (writeMem a n v s).steps64 = s.steps64 := rfl
@[simp] theorem writeMem_runState (a : Word) (n : AccessSize) (v : BitVec n.bits) (s : State) : (writeMem a n v s).runState = s.runState := rfl
@[simp] theorem writeMem_reason (a : Word) (n : AccessSize) (v : BitVec n.bits) (s : State) : (writeMem a n v s).reason = s.reason := rfl
@[simp] theorem writeMem_exitCode (a : Word) (n : AccessSize) (v : BitVec n.bits) (s : State) : (writeMem a n v s).exitCode = s.exitCode := rfl
@[simp] theorem writeMem_fault (a : Word) (n : AccessSize) (v : BitVec n.bits) (s : State) : (writeMem a n v s).fault = s.fault := rfl
@[simp] theorem writeMem_stepCount (a : Word) (n : AccessSize) (v : BitVec n.bits) (s : State) : (writeMem a n v s).stepCount = s.stepCount := rfl
@[simp] theorem writeMem_mem (a : Word) (n : AccessSize) (v : BitVec n.bits) (s : State) : (writeMem a n v s).mem = s.mem.write a n v := rfl
@[simp] theorem writeMem_config (a : Word) (n : AccessSize) (v : BitVec n.bits) (s : State) : (writeMem a n v s).config = s.config := rfl
@[simp] theorem writeMem_program (a : Word) (n : AccessSize) (v : BitVec n.bits) (s : State) : (writeMem a n v s).program = s.program := rfl
@[simp] theorem writeMem_textBase (a : Word) (n : AccessSize) (v : BitVec n.bits) (s : State) : (writeMem a n v s).textBase = s.textBase := rfl
@[simp] theorem writeMem_stopReqs (a : Word) (n : AccessSize) (v : BitVec n.bits) (s : State) : (writeMem a n v s).stopReqs = s.stopReqs := rfl
@[simp] theorem writeMem_env (a : Word) (n : AccessSize) (v : BitVec n.bits) (s : State) : (writeMem a n v s).env = s.env := rfl
@[simp] theorem writeMem_memPort (a : Word) (n : AccessSize) (v : BitVec n.bits) (s : State) : (writeMem a n v s).memPort = s.memPort := rfl
@[simp] theorem readReg_writeMem (k : RegIdx) (a : Word) (n : AccessSize) (v : BitVec n.bits) (s : State) : readReg k (writeMem a n v s) = readReg k s := rfl
@[simp] theorem inText_writeMem (a : Word) (n : AccessSize) (v : BitVec n.bits) (s : State) (x : Word) : inText (writeMem a n v s) x = inText s x := rfl

/-! ## `csrSet` -/

@[simp] theorem csrSet_regs (e : CsrReg) (v : Word) (s : State) : (csrSet e v s).regs = s.regs := rfl
@[simp] theorem csrSet_pc (e : CsrReg) (v : Word) (s : State) : (csrSet e v s).pc = s.pc := rfl
@[simp] theorem csrSet_priv (e : CsrReg) (v : Word) (s : State) : (csrSet e v s).priv = s.priv := rfl
@[simp] theorem csrSet_csrs (e : CsrReg) (v : Word) (s : State) : (csrSet e v s).csrs = s.csrs.map fun c => if c.entry.addr = e.entry.addr then { c with value := v } else c := rfl
@[simp] theorem csrSet_steps64 (e : CsrReg) (v : Word) (s : State) : (csrSet e v s).steps64 = s.steps64 := rfl
@[simp] theorem csrSet_runState (e : CsrReg) (v : Word) (s : State) : (csrSet e v s).runState = s.runState := rfl
@[simp] theorem csrSet_reason (e : CsrReg) (v : Word) (s : State) : (csrSet e v s).reason = s.reason := rfl
@[simp] theorem csrSet_exitCode (e : CsrReg) (v : Word) (s : State) : (csrSet e v s).exitCode = s.exitCode := rfl
@[simp] theorem csrSet_fault (e : CsrReg) (v : Word) (s : State) : (csrSet e v s).fault = s.fault := rfl
@[simp] theorem csrSet_stepCount (e : CsrReg) (v : Word) (s : State) : (csrSet e v s).stepCount = s.stepCount := rfl
@[simp] theorem csrSet_mem (e : CsrReg) (v : Word) (s : State) : (csrSet e v s).mem = s.mem := rfl
@[simp] theorem csrSet_config (e : CsrReg) (v : Word) (s : State) : (csrSet e v s).config = s.config := rfl
@[simp] theorem csrSet_program (e : CsrReg) (v : Word) (s : State) : (csrSet e v s).program = s.program := rfl
@[simp] theorem csrSet_textBase (e : CsrReg) (v : Word) (s : State) : (csrSet e v s).textBase = s.textBase := rfl
@[simp] theorem csrSet_stopReqs (e : CsrReg) (v : Word) (s : State) : (csrSet e v s).stopReqs = s.stopReqs := rfl
@[simp] theorem csrSet_env (e : CsrReg) (v : Word) (s : State) : (csrSet e v s).env = s.env := rfl
@[simp] theorem csrSet_memPort (e : CsrReg) (v : Word) (s : State) : (csrSet e v s).memPort = s.memPort := rfl
@[simp] theorem readReg_csrSet (k : RegIdx) (e : CsrReg) (v : Word) (s : State) : readReg k (csrSet e v s) = readReg k s := rfl
@[simp] theorem inText_csrSet (e : CsrReg) (v : Word) (s : State) (x : Word) : inText (csrSet e v s) x = inText s x := rfl

/-! ## `takeSample` -/

@[simp] theorem takeSample_regs (s : State) : (takeSample s).regs = s.regs := rfl
@[simp] theorem takeSample_pc (s : State) : (takeSample s).pc = s.pc := rfl
@[simp] theorem takeSample_priv (s : State) : (takeSample s).priv = s.priv := rfl
@[simp] theorem takeSample_csrs (s : State) : (takeSample s).csrs = s.csrs := rfl
@[simp] theorem takeSample_steps64 (s : State) : (takeSample s).steps64 = s.steps64 := rfl
@[simp] theorem takeSample_runState (s : State) : (takeSample s).runState = s.runState := rfl
@[simp] theorem takeSample_reason (s : State) : (takeSample s).reason = s.reason := rfl
@[simp] theorem takeSample_exitCode (s : State) : (takeSample s).exitCode = s.exitCode := rfl
@[simp] theorem takeSample_fault (s : State) : (takeSample s).fault = s.fault := rfl
@[simp] theorem takeSample_stepCount (s : State) : (takeSample s).stepCount = s.stepCount := rfl
@[simp] theorem takeSample_mem (s : State) : (takeSample s).mem = s.mem := rfl
@[simp] theorem takeSample_config (s : State) : (takeSample s).config = s.config := rfl
@[simp] theorem takeSample_program (s : State) : (takeSample s).program = s.program := rfl
@[simp] theorem takeSample_textBase (s : State) : (takeSample s).textBase = s.textBase := rfl
@[simp] theorem takeSample_stopReqs (s : State) : (takeSample s).stopReqs = s.stopReqs.tail := rfl
@[simp] theorem takeSample_env (s : State) : (takeSample s).env = s.env := rfl
@[simp] theorem takeSample_memPort (s : State) : (takeSample s).memPort = s.memPort := rfl
@[simp] theorem readReg_takeSample (k : RegIdx) (s : State) : readReg k (takeSample s) = readReg k s := rfl
@[simp] theorem inText_takeSample (s : State) (x : Word) : inText (takeSample s) x = inText s x := rfl

/-! ## `exitRun` -/

@[simp] theorem exitRun_regs (c : Word) (s : State) : (exitRun c s).regs = s.regs := rfl
@[simp] theorem exitRun_pc (c : Word) (s : State) : (exitRun c s).pc = s.pc + 4 := rfl
@[simp] theorem exitRun_priv (c : Word) (s : State) : (exitRun c s).priv = s.priv := rfl
@[simp] theorem exitRun_csrs (c : Word) (s : State) : (exitRun c s).csrs = s.csrs := rfl
@[simp] theorem exitRun_steps64 (c : Word) (s : State) : (exitRun c s).steps64 = s.steps64 + 1 := rfl
@[simp] theorem exitRun_runState (c : Word) (s : State) : (exitRun c s).runState = .halted := rfl
@[simp] theorem exitRun_reason (c : Word) (s : State) : (exitRun c s).reason = some .normalTermination := rfl
@[simp] theorem exitRun_exitCode (c : Word) (s : State) : (exitRun c s).exitCode = some c := rfl
@[simp] theorem exitRun_fault (c : Word) (s : State) : (exitRun c s).fault = s.fault := rfl
@[simp] theorem exitRun_stepCount (c : Word) (s : State) : (exitRun c s).stepCount = s.stepCount + 1 := rfl
@[simp] theorem exitRun_mem (c : Word) (s : State) : (exitRun c s).mem = s.mem := rfl
@[simp] theorem exitRun_config (c : Word) (s : State) : (exitRun c s).config = s.config := rfl
@[simp] theorem exitRun_program (c : Word) (s : State) : (exitRun c s).program = s.program := rfl
@[simp] theorem exitRun_textBase (c : Word) (s : State) : (exitRun c s).textBase = s.textBase := rfl
@[simp] theorem exitRun_stopReqs (c : Word) (s : State) : (exitRun c s).stopReqs = s.stopReqs := rfl
@[simp] theorem exitRun_env (c : Word) (s : State) : (exitRun c s).env = s.env := rfl
@[simp] theorem exitRun_memPort (c : Word) (s : State) : (exitRun c s).memPort = s.memPort := rfl
@[simp] theorem readReg_exitRun (k : RegIdx) (c : Word) (s : State) : readReg k (exitRun c s) = readReg k s := rfl
@[simp] theorem inText_exitRun (c : Word) (s : State) (x : Word) : inText (exitRun c s) x = inText s x := rfl

end Sys2Proof.Machine
end

