-- ==== Sys2Proof/Laws/Registers.lean ====
section
/-!
SUPPORT. The register file's two primitives (10_state.md R21, R22).
-/

namespace Sys2Proof.Machine

@[simp] theorem readReg_zero (s : State) : readReg 0#5 s = 0#32 := by simp [readReg]

/-- Reading after a write, in every case of R21 and R22. -/
theorem readReg_writeReg (k r : RegIdx) (v : Word) (s : State) :
    readReg k (writeReg r v s) = if k = r ∧ r ≠ 0#5 then v else readReg k s := by
  by_cases hr : r = 0#5
  · simp [hr, readReg, writeReg]
  · by_cases hk : k = r
    · subst hk; simp [hr, readReg, writeReg]
    · have hn : r.toNat ≠ k.toNat := fun h => hk (BitVec.eq_of_toNat_eq h.symm)
      simp [hr, hk, readReg, writeReg, Vector.getElem_set_ne _ _ hn]

/-- A write never reaches the slot of `x[0]` (R22). -/
theorem writeReg_slot_zero (r : RegIdx) (v : Word) (s : State) : (writeReg r v s).regs[0] = s.regs[0] := by
  by_cases hr : r = 0#5
  · simp [hr]
  · have hn : r.toNat ≠ 0 := fun h => hr (BitVec.eq_of_toNat_eq (by simpa using h))
    simp [hr, Vector.getElem_set_ne _ _ hn]

end Sys2Proof.Machine
end

