-- ==== Sys2Proof/Laws/Ops.lean ====
section
/-!
SUPPORT. One spec lemma per shared operation of Machine/Ops.lean: what it answers, in the terms of Safety.lean. A proof about an
instruction cites these and does not unfold the operations.
-/

namespace Sys2Proof.Machine

/-! ## Retiring and raising -/

theorem retiredAt_retire (p : Word) (s : State) : RetiredAt p s (retire p s) :=
  ⟨rfl, rfl, rfl, ⟨rfl, rfl, rfl, rfl⟩, ⟨rfl, rfl, rfl, rfl, rfl, rfl⟩⟩

/-- A register write, then a retire. -/
theorem writesOnlyReg_retire (rd : RegIdx) (v p : Word) (s : State) :
    WritesOnlyReg rd v p s (retire p (writeReg rd v s)) :=
  ⟨fun r => readReg_writeReg r rd v s, ⟨rfl, rfl, rfl, ⟨rfl, rfl, rfl, rfl⟩, ⟨rfl, rfl, rfl, rfl, rfl, rfl⟩⟩, rfl, fun _ => rfl, rfl⟩

theorem movesOnlyPc_retire (p : Word) (s : State) : MovesOnlyPc p s (retire p s) :=
  ⟨fun _ => rfl, retiredAt_retire p s, rfl, fun _ => rfl, rfl⟩

theorem writeAndRetire_spec (rd : RegIdx) (v : Word) (s : State) :
    ∃ t, writeAndRetire rd v s = .next t ∧ WritesOnlyReg rd v (s.pc + 4) s t :=
  ⟨_, rfl, writesOnlyReg_retire rd v (s.pc + 4) s⟩

/-- What `lineAt` answers, in the words of R139. -/
theorem lineRecorded_lineAt (s : State) : LineRecorded s (lineAt s s.pc) where
  inside k st hk hlo hhi := by
    have hlen : k < s.program.length := (List.getElem?_eq_some_iff.mp hk).1
    have ht : inText s s.pc = true := by simp [inText]; omega
    rw [lineAt, if_pos ht, show (s.pc.toNat - s.textBase.toNat) / 4 = k by omega, hk]
    rfl
  outside h := if_neg (by simp [inText]; omega)

theorem faultTaken_raise (w : Option Word) (d : Detail) (v : Option Word) (s : State) :
    FaultTaken w d v s (raise w d v s) := ⟨_, lineRecorded_lineAt s, rfl⟩

theorem raiseIn_spec (i : Instr) (d : Detail) (v : Option Word) (s : State) :
    ∃ t, raiseIn i d v s = .next t ∧ FaultTaken (some (encode i)) d v s t :=
  ⟨_, rfl, faultTaken_raise _ d v s⟩

/-! ## Loads and stores (R236, R237) -/

theorem misaligned_eq_false {a : Word} {n : AccessSize} : misaligned a n = false ↔ a.toNat % n.bytes = 0 := by
  simp [misaligned]

theorem misaligned_eq_true {a : Word} {n : AccessSize} : misaligned a n = true ↔ a.toNat % n.bytes ≠ 0 := by
  simp [misaligned]

section
variable {i : Instr} {n : AccessSize} {s : State} {ea : Word}

theorem loadAt_misaligned (ext : BitVec n.bits → Word) (rd : RegIdx) (h : misaligned ea n = true) :
    loadAt i n ext rd ea s = raiseIn i .load (some ea) s := by
  simp [loadAt, h]

theorem loadAt_refused (ext : BitVec n.bits → Word) (rd : RegIdx) (h : misaligned ea n = false)
    (ha : admitted s ea n .load = false) :
    loadAt i n ext rd ea s = .fault (.accessNotAdmitted ea n .load) := by
  simp [loadAt, h, ha]

theorem loadAt_spec (ext : BitVec n.bits → Word) (rd : RegIdx) (h : misaligned ea n = false)
    (ha : admitted s ea n .load = true) :
    ∃ t, loadAt i n ext rd ea s = .next t ∧ Loads rd (ext (s.mem.read ea n)) (.read .load ea n) s t := by
  refine ⟨_, by simp only [loadAt, h, ha, if_true]; rfl, ?_⟩
  exact ⟨fun r => readReg_writeReg r rd _ _, ⟨rfl, rfl, rfl, ⟨rfl, rfl, rfl, rfl⟩, ⟨rfl, rfl, rfl, rfl, rfl, rfl⟩⟩, rfl,
    fun _ => rfl, rfl⟩

theorem storeAt_misaligned (v : Word) (h : misaligned ea n = true) :
    storeAt i n v ea s = raiseIn i .store (some ea) s := by
  simp [storeAt, h]

theorem storeAt_rejected (v : Word) (h : misaligned ea n = false) (hp : textProtected s ea = true)
    (hr : s.config.storePolicy = .reject) : storeAt i n v ea s = raiseIn i .textStore (some ea) s := by
  simp [storeAt, h, hp, hr]

theorem storeAt_ignored (v : Word) (h : misaligned ea n = false) (hp : textProtected s ea = true)
    (hr : s.config.storePolicy = .ignore) : storeAt i n v ea s = .next (retireNext s) := by
  simp [storeAt, h, hp, hr]

theorem storeAt_refused (v : Word) (h : misaligned ea n = false) (hp : textProtected s ea = false)
    (ha : admitted s ea n .store = false) :
    storeAt i n v ea s = .fault (.accessNotAdmitted ea n .store) := by
  simp [storeAt, h, hp, ha]

/-- The state after a performed store. -/
def stored (n : AccessSize) (v ea : Word) (s : State) : State :=
  retireNext (writeMem ea n (v.setWidth n.bits) (issue (.write ea n ((v.setWidth n.bits).setWidth 32)) s))

theorem storeAt_performed (v : Word) (h : misaligned ea n = false) (hp : textProtected s ea = false)
    (ha : admitted s ea n .store = true) : storeAt i n v ea s = .next (stored n v ea s) := by
  simp [storeAt, h, hp, ha, stored]

end

/-- A write changes no byte outside its own (R65). -/
theorem Memory.byteAt_write_outside {m : Memory} (hm : m.wf) (a b : Word) (n : AccessSize) (v : BitVec n.bits)
    (h : ∀ k, k < n.bytes → b ≠ a + BitVec.ofNat 32 k) : (m.write a n v).byteAt b = m.byteAt b := by
  have h0 : b ≠ a := by simpa using h 0 (by cases n <;> decide)
  cases n
  · rw [Memory.byteAt_write_byte hm, if_neg h0]
  · have h1 : b ≠ a + 1 := h 1 (by decide)
    rw [Memory.byteAt_write_half hm, if_neg h1, if_neg h0]
  · have h1 : b ≠ a + 1 := h 1 (by decide)
    have h2 : b ≠ a + 2 := h 2 (by decide)
    have h3 : b ≠ a + 3 := h 3 (by decide)
    rw [Memory.byteAt_write_word hm, if_neg h3, if_neg h2, if_neg h1, if_neg h0]

theorem stores_stored (n : AccessSize) (v ea : Word) (s : State) (hm : s.mem.wf) :
    Stores ea n.bytes (.write ea n ((v.setWidth n.bits).setWidth 32)) s (stored n v ea s) :=
  ⟨fun _ => rfl, ⟨rfl, rfl, rfl, ⟨rfl, rfl, rfl, rfl⟩, ⟨rfl, rfl, rfl, rfl, rfl, rfl⟩⟩, rfl,
    fun a ha => Memory.byteAt_write_outside hm ea a n _ ha, rfl⟩

/-! ## Control transfer (R220) -/

theorem transfer_misaligned {i : Instr} {t : Word} {s s' : State} (h : misalignedTarget t = true) :
    transfer i t s s' = raiseIn i .fetch (some t) s := by
  simp [transfer, h]

theorem transfer_aligned {i : Instr} {t : Word} {s s' : State} (h : misalignedTarget t = false) :
    transfer i t s s' = .next (retire t s') := by
  simp [transfer, h]

theorem misalignedTarget_eq_false {t : Word} : misalignedTarget t = false ↔ t.toNat % 4 = 0 := by
  have h : (t.extractLsb' 0 2).toNat = t.toNat % 4 := by simp [BitVec.extractLsb'_toNat]
  rw [← h]
  simp only [misalignedTarget, bne_eq_false_iff_eq]
  exact ⟨fun e => by rw [e]; rfl, fun e => BitVec.eq_of_toNat_eq e⟩

/-- `pc + 4` of an aligned pc is aligned (R27). -/
theorem aligned_add_four {p : Word} (h : p.toNat % 4 = 0) : (p + 4).toNat % 4 = 0 := by
  have h4 : (4 : Word).toNat = 4 := rfl
  rw [BitVec.toNat_add, h4]
  omega

/-! ## The CSR File (R35 to R38, R160) -/

theorem csrLookup_ok {a : CsrAddr} {s : State} {e : CsrReg} (h : csrLookup a s = .ok e) :
    e ∈ s.csrs ∧ e.entry.addr = a.toNat := by
  unfold csrLookup at h
  split at h
  · rename_i c hc
    cases h
    exact ⟨List.mem_of_find?_eq_some hc, by simpa using List.find?_some hc⟩
  · cases h

/-- What `csr_check` can answer (R160), in its order. -/
theorem csrCheck_cases (a : CsrAddr) (w : Bool) (s : State) :
    (csrLookup a s = .error .unavailableCsr ∧ csrCheck a w s = .error .csrUnavailable) ∨
    ∃ e, csrLookup a s = .ok e ∧
      ((s.priv.toNat < e.entry.minPriv.toNat ∧ csrCheck a w s = .error .csrGate) ∨
       (¬ s.priv.toNat < e.entry.minPriv.toNat ∧ w = true ∧ e.entry.access = .RO ∧
          csrCheck a w s = .error .csrReadOnly) ∨
       (¬ s.priv.toNat < e.entry.minPriv.toNat ∧ ¬ (w = true ∧ e.entry.access = .RO) ∧ csrCheck a w s = .ok e)) := by
  unfold csrCheck
  cases hl : csrLookup a s with
  | error k =>
    refine .inl ⟨?_, rfl⟩
    unfold csrLookup at hl
    split at hl
    · cases hl
    · cases hl; rfl
  | ok e =>
    refine .inr ⟨e, rfl, ?_⟩
    by_cases hp : s.priv.toNat < e.entry.minPriv.toNat
    · exact .inl ⟨hp, by simp [hp]⟩
    · by_cases hr : w = true ∧ e.entry.access = .RO
      · exact .inr (.inl ⟨hp, hr.1, hr.2, by simp [hp, hr.1, hr.2]⟩)
      · exact .inr (.inr ⟨hp, hr, by simpa [hp] using fun h1 h2 => hr ⟨h1, h2⟩⟩)

theorem csrAccess_error {i : Instr} {rd : RegIdx} {a : CsrAddr} {w : Bool} {new : Word → Word} {s : State} {d : Detail}
    (h : csrCheck a w s = .error d) : csrAccess i rd a w new s = raiseIn i d (some (a.setWidth 32)) s := by
  simp [csrAccess, h]

theorem csrAccess_ok {i : Instr} {rd : RegIdx} {a : CsrAddr} {w : Bool} {new : Word → Word} {s : State} {e : CsrReg}
    (h : csrCheck a w s = .ok e) :
    csrAccess i rd a w new s =
      writeAndRetire rd (csrGet e s) (if w then csrSet e (new (csrGet e s)) s else s) := by
  simp [csrAccess, h]

/-- `csr_set` changes no static attribute (R33, R38). -/
theorem csrSet_entries (e : CsrReg) (v : Word) (s : State) :
    (csrSet e v s).csrs.map (·.entry) = s.csrs.map (·.entry) := by
  simp only [csrSet_csrs, List.map_map]
  refine List.map_congr_left fun c _ => ?_
  simp only [Function.comp_apply]
  split <;> rfl

/-! ## The environment (R184) -/

/-- What an environment's writes leave alone: everything but the registers and Memory. -/
structure EnvFrame (s t : State) : Prop where
  pc : t.pc = s.pc
  priv : t.priv = s.priv
  csrs : t.csrs = s.csrs
  steps64 : t.steps64 = s.steps64
  runState : t.runState = s.runState
  reason : t.reason = s.reason
  exitCode : t.exitCode = s.exitCode
  fault : t.fault = s.fault
  stepCount : t.stepCount = s.stepCount
  config : t.config = s.config
  program : t.program = s.program
  textBase : t.textBase = s.textBase
  stopReqs : t.stopReqs = s.stopReqs
  env : t.env = s.env
  memPort : t.memPort = s.memPort

theorem EnvFrame.refl (s : State) : EnvFrame s s :=
  ⟨rfl, rfl, rfl, rfl, rfl, rfl, rfl, rfl, rfl, rfl, rfl, rfl, rfl, rfl, rfl⟩

theorem EnvFrame.trans {s t u : State} (h : EnvFrame s t) (k : EnvFrame t u) : EnvFrame s u :=
  ⟨k.pc.trans h.pc, k.priv.trans h.priv, k.csrs.trans h.csrs, k.steps64.trans h.steps64, k.runState.trans h.runState,
    k.reason.trans h.reason, k.exitCode.trans h.exitCode, k.fault.trans h.fault, k.stepCount.trans h.stepCount,
    k.config.trans h.config, k.program.trans h.program, k.textBase.trans h.textBase, k.stopReqs.trans h.stopReqs,
    k.env.trans h.env, k.memPort.trans h.memPort⟩

theorem envFrame_writeReg (r : RegIdx) (v : Word) (s : State) : EnvFrame s (writeReg r v s) :=
  ⟨rfl, rfl, rfl, rfl, rfl, rfl, rfl, rfl, rfl, rfl, rfl, rfl, rfl, rfl, rfl⟩

theorem envFrame_envWriteMem (a : Word) (n : AccessSize) (v : BitVec n.bits) (s : State) :
    EnvFrame s (envWriteMem a n v s) := by
  unfold envWriteMem
  split
  · exact EnvFrame.refl s
  · exact ⟨rfl, rfl, rfl, rfl, rfl, rfl, rfl, rfl, rfl, rfl, rfl, rfl, rfl, rfl, rfl⟩

theorem envFrame_applyEnvWrite (s : State) (w : EnvWrite) : EnvFrame s (applyEnvWrite s w) := by
  cases w
  · exact envFrame_writeReg ..
  · exact envFrame_envWriteMem ..
  · exact envFrame_envWriteMem ..
  · exact envFrame_envWriteMem ..

theorem envFrame_applyEnvWrites (ws : List EnvWrite) (s : State) : EnvFrame s (applyEnvWrites ws s) := by
  induction ws generalizing s with
  | nil => exact EnvFrame.refl s
  | cons w ws ih => exact (envFrame_applyEnvWrite s w).trans (ih _)

/-- A consultation changes nothing but the recorded answers still to come. -/
theorem consultEnv_state (s : State) : ∃ e, (consultEnv s).2 = { s with env := e } := by
  unfold consultEnv
  split
  · exact ⟨s.env, rfl⟩
  · exact ⟨_, rfl⟩
  · exact ⟨s.env, rfl⟩

end Sys2Proof.Machine
end

