-- ==== Sys2Proof/Laws/Exec.lean ====
section
/-!
SUPPORT. What an instruction can do, said once for all 55 (the inversion lemma `exec_effect`), and what a step can do
(`step_cases`). A proof about every instruction or every step cites these and does not unfold `exec` or `step`.
-/

namespace Sys2Proof.Machine

/-! ## The effects before the end of an instruction -/

/-- The effects an instruction has before it retires or exits. -/
structure Works (s s' : State) : Prop where
  slot : s'.regs[0] = s.regs[0]
  pc : s'.pc = s.pc
  priv : s'.priv = s.priv
  entries : s'.csrs.map (·.entry) = s.csrs.map (·.entry)
  steps64 : s'.steps64 = s.steps64
  runState : s'.runState = s.runState
  reason : s'.reason = s.reason
  exitCode : s'.exitCode = s.exitCode
  fault : s'.fault = s.fault
  stepCount : s'.stepCount = s.stepCount
  config : s'.config = s.config
  program : s'.program = s.program
  textBase : s'.textBase = s.textBase
  stopReqs : s'.stopReqs = s.stopReqs
  wf : s.mem.wf → s'.mem.wf
  /-- With `SMC_MODE = off` the bytes of a well placed text region are kept (R74). -/
  text : s.config.smcMode = .off → s.mem.wf → TextPlaced s → ∀ a : Word, inText s a = true →
    s'.mem.byteAt a = s.mem.byteAt a

theorem Works.refl (s : State) : Works s s :=
  ⟨rfl, rfl, rfl, rfl, rfl, rfl, rfl, rfl, rfl, rfl, rfl, rfl, rfl, rfl, id, fun _ _ _ _ _ => rfl⟩

theorem Works.inText {s s' : State} (h : Works s s') (a : Word) : inText s' a = inText s a := by
  simp only [Machine.inText, h.textBase, h.program]

theorem Works.trans {s t u : State} (h : Works s t) (k : Works t u) : Works s u where
  slot := k.slot.trans h.slot
  pc := k.pc.trans h.pc
  priv := k.priv.trans h.priv
  entries := k.entries.trans h.entries
  steps64 := k.steps64.trans h.steps64
  runState := k.runState.trans h.runState
  reason := k.reason.trans h.reason
  exitCode := k.exitCode.trans h.exitCode
  fault := k.fault.trans h.fault
  stepCount := k.stepCount.trans h.stepCount
  config := k.config.trans h.config
  program := k.program.trans h.program
  textBase := k.textBase.trans h.textBase
  stopReqs := k.stopReqs.trans h.stopReqs
  wf hw := k.wf (h.wf hw)
  text hs hw hp a ha := by
    rw [k.text (by rw [h.config]; exact hs) (h.wf hw) (by simpa only [TextPlaced, h.textBase, h.program] using hp) a
      (by rw [h.inText]; exact ha), h.text hs hw hp a ha]

theorem works_writeReg (r : RegIdx) (v : Word) (s : State) : Works s (writeReg r v s) :=
  { Works.refl s with slot := writeReg_slot_zero r v s }

theorem works_csrSet (e : CsrReg) (v : Word) (s : State) : Works s (csrSet e v s) :=
  { Works.refl s with entries := csrSet_entries e v s }

theorem works_issue (q : MemRequest) (s : State) : Works s (issue q s) := { Works.refl s with }

/-- A text region of whole words has either all bytes of an aligned access or none (R74). -/
theorem inText_of_byte {s : State} (hp : TextPlaced s) {ea : Word} {n : AccessSize} (h : misaligned ea n = false) {k : Nat}
    (hk : k < n.bytes) (ht : inText s (ea + BitVec.ofNat 32 k) = true) : inText s ea = true := by
  have hn := misaligned_eq_false.mp h
  have he := ea.isLt
  obtain ⟨h4, hb⟩ := hp
  simp only [inText, Bool.and_eq_true, decide_eq_true_eq] at ht ⊢
  simp only [BitVec.toNat_add, BitVec.toNat_ofNat] at ht
  have : n.bytes = 1 ∨ n.bytes = 2 ∨ n.bytes = 4 := by cases n <;> simp [AccessSize.bytes]
  rcases this with e | e | e <;> rw [e] at hn hk <;> omega

theorem works_writeMem {a : Word} {n : AccessSize} (v : BitVec n.bits) {s : State} (h : misaligned a n = false)
    (hp : textProtected s a = false) : Works s (writeMem a n v s) :=
  { Works.refl s with
    wf := fun hw => Memory.wf_write hw a n v
    text := fun hs hw htp b hb => Memory.byteAt_write_outside hw a b n v fun k hk e => by
      subst e
      have := inText_of_byte htp h hk hb
      simp [textProtected, hs, this] at hp }

theorem misaligned_byte (a : Word) : misaligned a .byte = false := by
  simp [misaligned, AccessSize.bytes, Nat.mod_one]

theorem misaligned_half (k : BitVec 31) : misaligned (k ++ 0#1) .half = false := by
  rw [misaligned_eq_false]
  exact (congrArg (· % 2) (BitVec.toNat_append k 0#1)).trans (by simp [Nat.shiftLeft_eq])

theorem misaligned_word (k : BitVec 30) : misaligned (k ++ 0#2) .word = false := by
  rw [misaligned_eq_false]
  exact (congrArg (· % 4) (BitVec.toNat_append k 0#2)).trans (by simp [Nat.shiftLeft_eq])

theorem works_envWriteMem {a : Word} {n : AccessSize} (v : BitVec n.bits) (s : State) (h : misaligned a n = false) :
    Works s (envWriteMem a n v s) := by
  unfold envWriteMem
  split
  · exact Works.refl s
  · rename_i hp
    exact works_writeMem v h (by simpa using hp)

theorem works_applyEnvWrite (s : State) (w : EnvWrite) : Works s (applyEnvWrite s w) := by
  cases w with
  | reg r v => exact works_writeReg r v s
  | byte a v => exact works_envWriteMem v s (misaligned_byte a)
  | half k v => exact works_envWriteMem v s (misaligned_half k)
  | word k v => exact works_envWriteMem v s (misaligned_word k)

theorem works_applyEnvWrites (ws : List EnvWrite) (s : State) : Works s (applyEnvWrites ws s) := by
  induction ws generalizing s with
  | nil => exact Works.refl s
  | cons w ws ih => exact (works_applyEnvWrite s w).trans (ih _)

/-- What one write of the environment leaves in a register (R184). -/
theorem readReg_applyEnvWrite (s : State) (w : EnvWrite) {r : RegIdx} (hr : r ≠ 0#5) :
    readReg r (applyEnvWrite s w) = (EnvWrite.valueFor r w).getD (readReg r s) := by
  cases w with
  | reg q v =>
    by_cases h : q = r
    · subst h; simp [applyEnvWrite, readReg_writeReg, EnvWrite.valueFor, hr]
    · simp [applyEnvWrite, readReg_writeReg, EnvWrite.valueFor, h, Ne.symm h]
  | byte a v => simp only [applyEnvWrite, envWriteMem]; split <;> rfl
  | half a v => simp only [applyEnvWrite, envWriteMem]; split <;> rfl
  | word a v => simp only [applyEnvWrite, envWriteMem]; split <;> rfl

/-- What all the environment's writes leave in a register: the last one to it holds (R184; log 7). -/
theorem readReg_applyEnvWrites (ws : List EnvWrite) (s : State) {r : RegIdx} (hr : r ≠ 0#5) :
    readReg r (applyEnvWrites ws s) = (ws.reverse.findSome? (EnvWrite.valueFor r)).getD (readReg r s) := by
  induction ws generalizing s with
  | nil => rfl
  | cons w ws ih =>
    refine (ih (applyEnvWrite s w)).trans ?_
    rw [readReg_applyEnvWrite s w hr, List.reverse_cons, List.findSome?_append]
    cases ws.reverse.findSome? (EnvWrite.valueFor r) <;> simp

theorem works_consultEnv (s : State) : Works s (consultEnv s).2 := by
  obtain ⟨e, h⟩ := consultEnv_state s
  rw [h]
  exact { Works.refl s with }

/-! ## The inversion of `exec` -/

/-- Everything an instruction can answer. -/
inductive Effect (i : Instr) (s : State) : Result State → Prop
  | raises (d : Detail) (v : Option Word) : Effect i s (raiseIn i d v s)
  | stuck {a : Word} {n : AccessSize} {k : AccessKind} (h : admitted s a n k = false) :
      Effect i s (.fault (.accessNotAdmitted a n k))
  | retires {p : Word} {s' : State} (hp : s.pc.toNat % 4 = 0 → p.toNat % 4 = 0) (h : Works s s') :
      Effect i s (.next (retire p s'))
  | exits (code : Word) {s' : State} (h : Works s s') : Effect i s (.next (exitRun code s'))

section
variable {i : Instr} {s : State}

theorem effect_retireNext {s' : State} (h : Works s s') : Effect i s (.next (retireNext s')) :=
  .retires (fun hp => by rw [h.pc]; exact aligned_add_four hp) h

theorem effect_writeAndRetire (rd : RegIdx) (v : Word) {s' : State} (h : Works s s') :
    Effect i s (writeAndRetire rd v s') :=
  effect_retireNext (h.trans (works_writeReg rd v s'))

theorem effect_divide (rd : RegIdx) (b v : Word) : Effect i s (divide i rd b v s) := by
  unfold divide
  split
  · exact .raises ..
  · exact effect_writeAndRetire rd v (Works.refl s)

theorem effect_transfer (t : Word) {s' : State} (h : Works s s') : Effect i s (transfer i t s s') := by
  cases ht : misalignedTarget t with
  | true => rw [transfer_misaligned ht]; exact .raises ..
  | false =>
    rw [transfer_aligned ht]
    exact .retires (fun _ => misalignedTarget_eq_false.mp ht) h

theorem effect_jumpAndLink (rd : RegIdx) (t : Word) : Effect i s (jumpAndLink i rd t s) :=
  effect_transfer t (works_writeReg ..)

theorem effect_branch (c : Bool) (imm : BitVec 13) : Effect i s (branch i c imm s) := by
  cases c
  · exact effect_retireNext (Works.refl s)
  · exact effect_transfer _ (Works.refl s)

theorem effect_loadAt (n : AccessSize) (ext : BitVec n.bits → Word) (rd : RegIdx) (ea : Word) :
    Effect i s (loadAt i n ext rd ea s) := by
  cases hm : misaligned ea n with
  | true => rw [loadAt_misaligned ext rd hm]; exact .raises ..
  | false =>
    cases ha : admitted s ea n .load with
    | false => rw [loadAt_refused ext rd hm ha]; exact .stuck ha
    | true =>
      simp only [loadAt, hm, ha, if_true]
      exact effect_retireNext ((works_issue ..).trans (works_writeReg ..))

theorem effect_storeAt (n : AccessSize) (v ea : Word) : Effect i s (storeAt i n v ea s) := by
  cases hm : misaligned ea n with
  | true => rw [storeAt_misaligned v hm]; exact .raises ..
  | false =>
    cases hp : textProtected s ea with
    | true =>
      cases hr : s.config.storePolicy with
      | reject => rw [storeAt_rejected v hm hp hr]; exact .raises ..
      | ignore => rw [storeAt_ignored v hm hp hr]; exact effect_retireNext (Works.refl s)
    | false =>
      cases ha : admitted s ea n .store with
      | false => rw [storeAt_refused v hm hp ha]; exact .stuck ha
      | true =>
        rw [storeAt_performed v hm hp ha]
        exact effect_retireNext ((works_issue ..).trans (works_writeMem _ hm hp))

theorem effect_csrAccess (rd : RegIdx) (a : CsrAddr) (w : Bool) (new : Word → Word) :
    Effect i s (csrAccess i rd a w new s) := by
  cases hc : csrCheck a w s with
  | error d => rw [csrAccess_error hc]; exact .raises ..
  | ok e =>
    rw [csrAccess_ok hc]
    cases w
    · exact effect_writeAndRetire _ _ (Works.refl s)
    · exact effect_writeAndRetire _ _ (works_csrSet ..)

theorem effect_ecall : Effect .ecall s (execEcall s) := by
  unfold execEcall
  have hw := works_consultEnv s
  split
  · rename_i code s' h
    rw [h] at hw
    exact .exits code hw
  · rename_i ws s' h
    rw [h] at hw
    exact effect_retireNext (hw.trans (works_applyEnvWrites ws s'))

end

/-- What each of the 55 instructions can do. -/
theorem exec_effect (i : Instr) (s : State) : Effect i s (exec i s) := by
  cases i with
  | lui | auipc | addi | slti | sltiu | xori | ori | andi | slli | srli | srai | add | sub | sll | slt | sltu | xor | srl
  | sra | or | and | mul | mulh | mulhsu | mulhu => exact effect_writeAndRetire _ _ (Works.refl s)
  | div | divu | rem | remu => exact effect_divide ..
  | jal | jalr => exact effect_jumpAndLink ..
  | beq | bne | blt | bge | bltu | bgeu => exact effect_branch ..
  | lb | lh | lw | lbu | lhu => exact effect_loadAt ..
  | sb | sh | sw => exact effect_storeAt ..
  | csrrw rd csr rs1 => exact effect_csrAccess rd csr true fun _ => readReg rs1 s
  | csrrs rd csr rs1 => exact effect_csrAccess rd csr (rs1 != 0#5) fun old => old ||| readReg rs1 s
  | csrrc rd csr rs1 => exact effect_csrAccess rd csr (rs1 != 0#5) fun old => old &&& ~~~readReg rs1 s
  | csrrwi rd csr uimm => exact effect_csrAccess rd csr true fun _ => uimm5 uimm
  | csrrsi rd csr uimm => exact effect_csrAccess rd csr (uimm != 0#5) fun old => old ||| uimm5 uimm
  | csrrci rd csr uimm => exact effect_csrAccess rd csr (uimm != 0#5) fun old => old &&& ~~~uimm5 uimm
  | fence | fenceI => exact effect_retireNext (Works.refl s)
  | ecall => exact effect_ecall
  | ebreak => exact .raises ..

/-! ## The requests of an instruction -/

/-- An instruction issues no request, or one read, or one write (R64, R65, R141). -/
def IssuesOne (s : State) : Result State → Prop
  | .next t => t.memPort = s.memPort ∨ (∃ a n, t.memPort = .read .load a n :: s.memPort) ∨
      ∃ a n v, t.memPort = .write a n v :: s.memPort
  | .fault _ => True
  | .refused _ => True

section
variable {i : Instr} {s : State}

theorem issuesOne_next {t : State} (h : t.memPort = s.memPort) : IssuesOne s (.next t) := .inl h

theorem issuesOne_divide (rd : RegIdx) (b v : Word) : IssuesOne s (divide i rd b v s) := by
  unfold divide
  split <;> exact issuesOne_next rfl

theorem issuesOne_transfer (t : Word) {s' : State} (h : s'.memPort = s.memPort) : IssuesOne s (transfer i t s s') := by
  unfold transfer
  split
  · exact issuesOne_next rfl
  · exact issuesOne_next h

theorem issuesOne_branch (c : Bool) (imm : BitVec 13) : IssuesOne s (branch i c imm s) := by
  cases c
  · exact issuesOne_next rfl
  · exact issuesOne_transfer _ rfl

theorem issuesOne_loadAt (n : AccessSize) (ext : BitVec n.bits → Word) (rd : RegIdx) (ea : Word) :
    IssuesOne s (loadAt i n ext rd ea s) := by
  unfold loadAt
  split
  · exact issuesOne_next rfl
  · split
    · exact .inr (.inl ⟨ea, n, rfl⟩)
    · trivial

theorem issuesOne_storeAt (n : AccessSize) (v ea : Word) : IssuesOne s (storeAt i n v ea s) := by
  unfold storeAt
  split
  · exact issuesOne_next rfl
  · split
    · split <;> exact issuesOne_next rfl
    · split
      · exact .inr (.inr ⟨ea, n, _, rfl⟩)
      · trivial

theorem issuesOne_csrAccess (rd : RegIdx) (a : CsrAddr) (w : Bool) (new : Word → Word) :
    IssuesOne s (csrAccess i rd a w new s) := by
  unfold csrAccess
  split
  · exact issuesOne_next rfl
  · cases w <;> exact issuesOne_next rfl

theorem issuesOne_ecall : IssuesOne s (execEcall s) := by
  obtain ⟨e, he⟩ := consultEnv_state s
  unfold execEcall
  split
  · rename_i code s' h
    rw [h] at he
    subst he
    exact issuesOne_next rfl
  · rename_i ws s' h
    rw [h] at he
    subst he
    exact issuesOne_next (envFrame_applyEnvWrites ws _).memPort

end

theorem exec_issuesOne (i : Instr) (s : State) : IssuesOne s (exec i s) := by
  cases i with
  | lui | auipc | addi | slti | sltiu | xori | ori | andi | slli | srli | srai | add | sub | sll | slt | sltu | xor | srl
  | sra | or | and | mul | mulh | mulhsu | mulhu => exact issuesOne_next rfl
  | div | divu | rem | remu => exact issuesOne_divide ..
  | jal | jalr => exact issuesOne_transfer _ rfl
  | beq | bne | blt | bge | bltu | bgeu => exact issuesOne_branch ..
  | lb | lh | lw | lbu | lhu => exact issuesOne_loadAt ..
  | sb | sh | sw => exact issuesOne_storeAt ..
  | csrrw rd csr rs1 => exact issuesOne_csrAccess rd csr true fun _ => readReg rs1 s
  | csrrs rd csr rs1 => exact issuesOne_csrAccess rd csr (rs1 != 0#5) fun old => old ||| readReg rs1 s
  | csrrc rd csr rs1 => exact issuesOne_csrAccess rd csr (rs1 != 0#5) fun old => old &&& ~~~readReg rs1 s
  | csrrwi rd csr uimm => exact issuesOne_csrAccess rd csr true fun _ => uimm5 uimm
  | csrrsi rd csr uimm => exact issuesOne_csrAccess rd csr (uimm != 0#5) fun old => old ||| uimm5 uimm
  | csrrci rd csr uimm => exact issuesOne_csrAccess rd csr (uimm != 0#5) fun old => old &&& ~~~uimm5 uimm
  | fence | fenceI | ebreak => exact issuesOne_next rfl
  | ecall => exact issuesOne_ecall

/-! ## The boundary and the fetch -/

section
variable {s : State}

theorem boundary_halted (h : s.runState = .halted) : boundary s = .undefined := by
  simp [boundary, h]

theorem boundary_external (h : s.runState = .running) (hq : stopSample s = .externalStop) :
    boundary s = .halts (halt .externalStop (takeSample s)) := by
  simp [boundary, h, hq]

theorem boundary_breakpoint (h : s.runState = .running) (hq : stopSample s = .breakpoint) :
    boundary s = .halts (halt .breakpoint (takeSample s)) := by
  simp [boundary, h, hq]

theorem boundary_limit (h : s.runState = .running) (hq : stopSample s = .none) (hl : stepLimitReached s = true) :
    boundary s = .halts (halt .stepLimit (takeSample s)) := by
  simp [boundary, h, hq, hl]

theorem boundary_goes (h : s.runState = .running) (hq : stopSample s = .none) (hl : stepLimitReached s = false) :
    boundary s = .goes (takeSample s) := by
  simp [boundary, h, hq, hl]

theorem fetch_misaligned (hp : misalignedTarget s.pc = true) : fetch s = .raises (raise none .fetch (some s.pc) s) := by
  simp [fetch, hp]

theorem fetch_outside (hp : misalignedTarget s.pc = false) (hs : s.config.smcMode = .off) (ht : inText s s.pc = false) :
    fetch s = .raises (raise none .noStatement none s) := by
  simp [fetch, hp, hs, ht]

theorem fetch_refused (hp : misalignedTarget s.pc = false) (ht : s.config.smcMode = .off → inText s s.pc = true)
    (ha : admitted s s.pc .word .fetch = false) : fetch s = .stuck (.accessNotAdmitted s.pc .word .fetch) := by
  by_cases hs : s.config.smcMode = .off
  · simp [fetch, hp, hs, ht hs, ha]
  · simp [fetch, hp, hs, ha]

theorem fetch_word (hp : misalignedTarget s.pc = false) (ht : s.config.smcMode = .off → inText s s.pc = true)
    (ha : admitted s s.pc .word .fetch = true) :
    fetch s = .word (s.mem.read s.pc .word) (issue (.read .fetch s.pc .word) s) := by
  by_cases hs : s.config.smcMode = .off
  · simp [fetch, hp, hs, ht hs, ha]
  · simp [fetch, hp, hs, ha]

/-- The state in which the handler of a step runs: one sample taken, one fetch issued (R145, R146). -/
def fetchState (s : State) : State := issue (.read .fetch s.pc .word) (takeSample s)

/-- A step past the boundary is its fetch, and what follows from the word. -/
theorem step_goes (h : s.runState = .running) (hq : stopSample s = .none) (hl : stepLimitReached s = false) :
    step s = match fetch (takeSample s) with
      | .raises s' => .next s'
      | .stuck r => .fault r
      | .word w s₂ =>
        match decode w with
        | .error _ => .next (raiseNoTemplate w s₂)
        | .ok i => exec i s₂ := by
  simp only [step, boundary_goes h hq hl] <;> rfl

theorem step_fetched (h : s.runState = .running) (hq : stopSample s = .none) (hl : stepLimitReached s = false)
    (hp : misalignedTarget s.pc = false) (ht : s.config.smcMode = .off → inText s s.pc = true)
    (ha : admitted s s.pc .word .fetch = true) :
    step s = match decode (s.mem.read s.pc .word) with
      | .error _ => .next (raiseNoTemplate (s.mem.read s.pc .word) (fetchState s))
      | .ok i => exec i (fetchState s) := by
  rw [step_goes h hq hl, fetch_word (s := takeSample s) hp ht ha]
  rfl

end

/-! ## The inversion of `step` -/

/-- Everything a step can answer. -/
inductive StepCase (s : State) : Result State → Prop
  | undefined (h : s.runState = .halted) : StepCase s (.fault .runHalted)
  | request (h : s.runState = .running) {r : Reason}
      (hr : stopSample s = .externalStop ∧ r = .externalStop ∨ stopSample s = .breakpoint ∧ r = .breakpoint ∨
        stopSample s = .none ∧ stepLimitReached s = true ∧ r = .stepLimit) :
      StepCase s (.next (halt r (takeSample s)))
  | fetchRaises (h : s.runState = .running) (hl : stepLimitReached s = false) {d : Detail} {v : Option Word}
      (hd : misalignedTarget s.pc = true ∧ d = .fetch ∧ v = some s.pc ∨
        misalignedTarget s.pc = false ∧ s.config.smcMode = .off ∧ inText s s.pc = false ∧ d = .noStatement ∧ v = none) :
      StepCase s (.next (raise none d v (takeSample s)))
  | fetchStuck (h : s.runState = .running) (hl : stepLimitReached s = false) (hp : misalignedTarget s.pc = false)
      (ha : admitted s s.pc .word .fetch = false) : StepCase s (.fault (.accessNotAdmitted s.pc .word .fetch))
  | noTemplate (h : s.runState = .running) (hl : stepLimitReached s = false) {e : DecodeError}
      (he : decode (s.mem.read s.pc .word) = .error e) :
      StepCase s (.next (raiseNoTemplate (s.mem.read s.pc .word) (fetchState s)))
  | runs (h : s.runState = .running) (hl : stepLimitReached s = false) (hp : misalignedTarget s.pc = false)
      (ht : s.config.smcMode = .off → inText s s.pc = true) {i : Instr} (hi : decode (s.mem.read s.pc .word) = .ok i) :
      StepCase s (exec i (fetchState s))

theorem step_cases (s : State) : StepCase s (step s) := by
  cases hr : s.runState with
  | halted =>
    simp only [step, boundary_halted hr]
    exact .undefined hr
  | running =>
    cases hq : stopSample s with
    | externalStop =>
      simp only [step, boundary_external hr hq]
      exact .request hr (.inl ⟨hq, rfl⟩)
    | breakpoint =>
      simp only [step, boundary_breakpoint hr hq]
      exact .request hr (.inr (.inl ⟨hq, rfl⟩))
    | none =>
      cases hl : stepLimitReached s with
      | true =>
        simp only [step, boundary_limit hr hq hl]
        exact .request hr (.inr (.inr ⟨hq, hl, rfl⟩))
      | false =>
        cases hp : misalignedTarget s.pc with
        | true =>
          rw [step_goes hr hq hl, fetch_misaligned (s := takeSample s) hp]
          exact .fetchRaises hr hl (.inl ⟨hp, rfl, rfl⟩)
        | false =>
          by_cases ht : s.config.smcMode = .off → inText s s.pc = true
          · cases ha : admitted s s.pc .word .fetch with
            | false =>
              rw [step_goes hr hq hl, fetch_refused (s := takeSample s) hp ht ha]
              exact .fetchStuck hr hl hp ha
            | true =>
              rw [step_fetched hr hq hl hp ht ha]
              cases hi : decode (s.mem.read s.pc .word) with
              | error e => exact .noTemplate hr hl hi
              | ok i => exact .runs hr hl hp ht hi
          · obtain ⟨hs, hn⟩ := Classical.not_imp.mp ht
            rw [step_goes hr hq hl, fetch_outside (s := takeSample s) hp hs (by simpa using hn)]
            exact .fetchRaises hr hl (.inr ⟨hp, hs, by simpa using hn, rfl, rfl⟩)

end Sys2Proof.Machine
end

