-- ==== Sys2Proof/Laws/PerInstr.lean ====
section
/-!
SUPPORT. The family `RowOfEncoding`: the word of an instruction matches the template of a row of the catalog, and that row reads the
instruction back from it when it is well formed (30_encoding.md R108; 40_dispatch.md R138). One lemma per constructor.
-/

namespace Sys2Proof.Laws.RowOfEncoding

def Statement (i : Instr) : Prop :=
  ∃ e ∈ catalog, e.accepts (encode i) = true ∧ (i.wellFormed = true → e.instr (encode i) = i)

/-- A row, its match and what it reads. -/
theorem of_row {i : Instr} (k : Nat) (hk : k < catalog.length) (h : encode i &&& catalog[k].mask = catalog[k].pattern)
    (hi : i.wellFormed = true → catalog[k].instr (encode i) = i) : Statement i :=
  ⟨catalog[k], List.getElem_mem hk, beq_iff_eq.mpr h, hi⟩

theorem lui (rd : RegIdx) (imm20 : BitVec 20) : Statement (.lui rd imm20) :=
  of_row 0 (by decide) (mask_encodeU ..) fun _ => congrArg (catalog[0]).build (operands_encodeU ..)

theorem auipc (rd : RegIdx) (imm20 : BitVec 20) : Statement (.auipc rd imm20) :=
  of_row 1 (by decide) (mask_encodeU ..) fun _ => congrArg (catalog[1]).build (operands_encodeU ..)

theorem jal (rd : RegIdx) (imm : BitVec 21) : Statement (.jal rd imm) :=
  of_row 2 (by decide) (mask_encodeJ ..) fun h => congrArg (catalog[2]).build (operands_encodeJ _ _ _ h)

theorem jalr (rd : RegIdx) (rs1 : RegIdx) (imm : BitVec 12) : Statement (.jalr rd rs1 imm) :=
  of_row 3 (by decide) (mask_encodeI ..) fun _ => congrArg (catalog[3]).build (operands_encodeI ..)

theorem beq (rs1 : RegIdx) (rs2 : RegIdx) (imm : BitVec 13) : Statement (.beq rs1 rs2 imm) :=
  of_row 4 (by decide) (mask_encodeB ..) fun h => congrArg (catalog[4]).build (operands_encodeB _ _ _ _ _ h)

theorem bne (rs1 : RegIdx) (rs2 : RegIdx) (imm : BitVec 13) : Statement (.bne rs1 rs2 imm) :=
  of_row 5 (by decide) (mask_encodeB ..) fun h => congrArg (catalog[5]).build (operands_encodeB _ _ _ _ _ h)

theorem blt (rs1 : RegIdx) (rs2 : RegIdx) (imm : BitVec 13) : Statement (.blt rs1 rs2 imm) :=
  of_row 6 (by decide) (mask_encodeB ..) fun h => congrArg (catalog[6]).build (operands_encodeB _ _ _ _ _ h)

theorem bge (rs1 : RegIdx) (rs2 : RegIdx) (imm : BitVec 13) : Statement (.bge rs1 rs2 imm) :=
  of_row 7 (by decide) (mask_encodeB ..) fun h => congrArg (catalog[7]).build (operands_encodeB _ _ _ _ _ h)

theorem bltu (rs1 : RegIdx) (rs2 : RegIdx) (imm : BitVec 13) : Statement (.bltu rs1 rs2 imm) :=
  of_row 8 (by decide) (mask_encodeB ..) fun h => congrArg (catalog[8]).build (operands_encodeB _ _ _ _ _ h)

theorem bgeu (rs1 : RegIdx) (rs2 : RegIdx) (imm : BitVec 13) : Statement (.bgeu rs1 rs2 imm) :=
  of_row 9 (by decide) (mask_encodeB ..) fun h => congrArg (catalog[9]).build (operands_encodeB _ _ _ _ _ h)

theorem lb (rd : RegIdx) (rs1 : RegIdx) (imm : BitVec 12) : Statement (.lb rd rs1 imm) :=
  of_row 10 (by decide) (mask_encodeI ..) fun _ => congrArg (catalog[10]).build (operands_encodeI ..)

theorem lh (rd : RegIdx) (rs1 : RegIdx) (imm : BitVec 12) : Statement (.lh rd rs1 imm) :=
  of_row 11 (by decide) (mask_encodeI ..) fun _ => congrArg (catalog[11]).build (operands_encodeI ..)

theorem lw (rd : RegIdx) (rs1 : RegIdx) (imm : BitVec 12) : Statement (.lw rd rs1 imm) :=
  of_row 12 (by decide) (mask_encodeI ..) fun _ => congrArg (catalog[12]).build (operands_encodeI ..)

theorem lbu (rd : RegIdx) (rs1 : RegIdx) (imm : BitVec 12) : Statement (.lbu rd rs1 imm) :=
  of_row 13 (by decide) (mask_encodeI ..) fun _ => congrArg (catalog[13]).build (operands_encodeI ..)

theorem lhu (rd : RegIdx) (rs1 : RegIdx) (imm : BitVec 12) : Statement (.lhu rd rs1 imm) :=
  of_row 14 (by decide) (mask_encodeI ..) fun _ => congrArg (catalog[14]).build (operands_encodeI ..)

theorem sb (rs2 : RegIdx) (rs1 : RegIdx) (imm : BitVec 12) : Statement (.sb rs2 rs1 imm) :=
  of_row 15 (by decide) (mask_encodeS ..) fun _ => congrArg (catalog[15]).build (operands_encodeS ..)

theorem sh (rs2 : RegIdx) (rs1 : RegIdx) (imm : BitVec 12) : Statement (.sh rs2 rs1 imm) :=
  of_row 16 (by decide) (mask_encodeS ..) fun _ => congrArg (catalog[16]).build (operands_encodeS ..)

theorem sw (rs2 : RegIdx) (rs1 : RegIdx) (imm : BitVec 12) : Statement (.sw rs2 rs1 imm) :=
  of_row 17 (by decide) (mask_encodeS ..) fun _ => congrArg (catalog[17]).build (operands_encodeS ..)

theorem addi (rd : RegIdx) (rs1 : RegIdx) (imm : BitVec 12) : Statement (.addi rd rs1 imm) :=
  of_row 18 (by decide) (mask_encodeI ..) fun _ => congrArg (catalog[18]).build (operands_encodeI ..)

theorem slti (rd : RegIdx) (rs1 : RegIdx) (imm : BitVec 12) : Statement (.slti rd rs1 imm) :=
  of_row 19 (by decide) (mask_encodeI ..) fun _ => congrArg (catalog[19]).build (operands_encodeI ..)

theorem sltiu (rd : RegIdx) (rs1 : RegIdx) (imm : BitVec 12) : Statement (.sltiu rd rs1 imm) :=
  of_row 20 (by decide) (mask_encodeI ..) fun _ => congrArg (catalog[20]).build (operands_encodeI ..)

theorem xori (rd : RegIdx) (rs1 : RegIdx) (imm : BitVec 12) : Statement (.xori rd rs1 imm) :=
  of_row 21 (by decide) (mask_encodeI ..) fun _ => congrArg (catalog[21]).build (operands_encodeI ..)

theorem ori (rd : RegIdx) (rs1 : RegIdx) (imm : BitVec 12) : Statement (.ori rd rs1 imm) :=
  of_row 22 (by decide) (mask_encodeI ..) fun _ => congrArg (catalog[22]).build (operands_encodeI ..)

theorem andi (rd : RegIdx) (rs1 : RegIdx) (imm : BitVec 12) : Statement (.andi rd rs1 imm) :=
  of_row 23 (by decide) (mask_encodeI ..) fun _ => congrArg (catalog[23]).build (operands_encodeI ..)

theorem slli (rd : RegIdx) (rs1 : RegIdx) (shamt : BitVec 5) : Statement (.slli rd rs1 shamt) :=
  of_row 24 (by decide) (mask_encodeR ..) fun _ => congrArg (catalog[24]).build (operands_encodeSH ..)

theorem srli (rd : RegIdx) (rs1 : RegIdx) (shamt : BitVec 5) : Statement (.srli rd rs1 shamt) :=
  of_row 25 (by decide) (mask_encodeR ..) fun _ => congrArg (catalog[25]).build (operands_encodeSH ..)

theorem srai (rd : RegIdx) (rs1 : RegIdx) (shamt : BitVec 5) : Statement (.srai rd rs1 shamt) :=
  of_row 26 (by decide) (mask_encodeR ..) fun _ => congrArg (catalog[26]).build (operands_encodeSH ..)

theorem add (rd : RegIdx) (rs1 : RegIdx) (rs2 : RegIdx) : Statement (.add rd rs1 rs2) :=
  of_row 27 (by decide) (mask_encodeR ..) fun _ => congrArg (catalog[27]).build (operands_encodeR ..)

theorem sub (rd : RegIdx) (rs1 : RegIdx) (rs2 : RegIdx) : Statement (.sub rd rs1 rs2) :=
  of_row 28 (by decide) (mask_encodeR ..) fun _ => congrArg (catalog[28]).build (operands_encodeR ..)

theorem sll (rd : RegIdx) (rs1 : RegIdx) (rs2 : RegIdx) : Statement (.sll rd rs1 rs2) :=
  of_row 29 (by decide) (mask_encodeR ..) fun _ => congrArg (catalog[29]).build (operands_encodeR ..)

theorem slt (rd : RegIdx) (rs1 : RegIdx) (rs2 : RegIdx) : Statement (.slt rd rs1 rs2) :=
  of_row 30 (by decide) (mask_encodeR ..) fun _ => congrArg (catalog[30]).build (operands_encodeR ..)

theorem sltu (rd : RegIdx) (rs1 : RegIdx) (rs2 : RegIdx) : Statement (.sltu rd rs1 rs2) :=
  of_row 31 (by decide) (mask_encodeR ..) fun _ => congrArg (catalog[31]).build (operands_encodeR ..)

theorem xor (rd : RegIdx) (rs1 : RegIdx) (rs2 : RegIdx) : Statement (.xor rd rs1 rs2) :=
  of_row 32 (by decide) (mask_encodeR ..) fun _ => congrArg (catalog[32]).build (operands_encodeR ..)

theorem srl (rd : RegIdx) (rs1 : RegIdx) (rs2 : RegIdx) : Statement (.srl rd rs1 rs2) :=
  of_row 33 (by decide) (mask_encodeR ..) fun _ => congrArg (catalog[33]).build (operands_encodeR ..)

theorem sra (rd : RegIdx) (rs1 : RegIdx) (rs2 : RegIdx) : Statement (.sra rd rs1 rs2) :=
  of_row 34 (by decide) (mask_encodeR ..) fun _ => congrArg (catalog[34]).build (operands_encodeR ..)

theorem or (rd : RegIdx) (rs1 : RegIdx) (rs2 : RegIdx) : Statement (.or rd rs1 rs2) :=
  of_row 35 (by decide) (mask_encodeR ..) fun _ => congrArg (catalog[35]).build (operands_encodeR ..)

theorem and (rd : RegIdx) (rs1 : RegIdx) (rs2 : RegIdx) : Statement (.and rd rs1 rs2) :=
  of_row 36 (by decide) (mask_encodeR ..) fun _ => congrArg (catalog[36]).build (operands_encodeR ..)

theorem fence (pred succ fm : BitVec 4) (rs1 rd : RegIdx) : Statement (.fence pred succ fm rs1 rd) :=
  of_row 37 (by decide) (mask_encodeI 0b000#3 0b0001111#7 rd rs1 (fm ++ pred ++ succ)) fun _ => by
    have h1 : (encode (.fence pred succ fm rs1 rd)).extractLsb' 24 4 = pred :=
      (slice_up ..).trans ((slice_up ..).trans ((slice_up ..).trans ((slice_up ..).trans ((slice_up ..).trans
        (slice_low ..)))))
    have h2 : (encode (.fence pred succ fm rs1 rd)).extractLsb' 20 4 = succ :=
      (slice_up ..).trans ((slice_up ..).trans ((slice_up ..).trans ((slice_up ..).trans (slice_low ..))))
    have h3 : (encode (.fence pred succ fm rs1 rd)).extractLsb' 28 4 = fm :=
      (slice_up ..).trans ((slice_up ..).trans ((slice_up ..).trans ((slice_up ..).trans ((slice_up ..).trans
        ((slice_up ..).trans (slice_all ..))))))
    have h4 : fieldRs1 (encode (.fence pred succ fm rs1 rd)) = rs1 :=
      (slice_up ..).trans ((slice_up ..).trans ((slice_up ..).trans (slice_low ..)))
    have h5 : fieldRd (encode (.fence pred succ fm rs1 rd)) = rd := (slice_up ..).trans (slice_low ..)
    exact (congrArg (catalog[37]).build (show decodeOperands _ .FENCE = ⟨pred, succ, fm, rs1, rd⟩ by
      simp only [decodeOperands, h1, h2, h3, h4, h5]))

theorem fenceI (imm : BitVec 12) (rs1 rd : RegIdx) : Statement (.fenceI imm rs1 rd) :=
  of_row 38 (by decide) (mask_encodeI 0b001#3 0b0001111#7 rd rs1 imm) fun _ => by
    have h := operands_encodeI 0b001#3 0b0001111#7 rd rs1 imm
    simp only [decodeOperands, OperandsI.mk.injEq] at h
    obtain ⟨h1, h2, h3⟩ := h
    have h4 : fieldImmI (encode (.fenceI imm rs1 rd)) = imm := h3
    have h5 : fieldRs1 (encode (.fenceI imm rs1 rd)) = rs1 := h2
    have h6 : fieldRd (encode (.fenceI imm rs1 rd)) = rd := h1
    have h7 : ∀ w : Word, w.extractLsb' 28 4 ++ w.extractLsb' 24 4 ++ w.extractLsb' 20 4 = fieldImmI w := fun w =>
      (congrArg (· ++ w.extractLsb' 20 4) (slice_join 24 w)).trans (slice_join 20 w)
    show Instr.fenceI ((encode (.fenceI imm rs1 rd)).extractLsb' 28 4 ++ (encode (.fenceI imm rs1 rd)).extractLsb' 24 4
      ++ (encode (.fenceI imm rs1 rd)).extractLsb' 20 4) (fieldRs1 (encode (.fenceI imm rs1 rd)))
      (fieldRd (encode (.fenceI imm rs1 rd))) = _
    rw [h7, h4, h5, h6]

theorem ecall : Statement (.ecall) :=
  of_row 39 (by decide) rfl fun _ => rfl

theorem ebreak : Statement (.ebreak) :=
  of_row 40 (by decide) rfl fun _ => rfl

theorem csrrw (rd : RegIdx) (csr : CsrAddr) (rs1 : RegIdx) : Statement (.csrrw rd csr rs1) :=
  of_row 41 (by decide) (mask_encodeCsrR ..) fun _ => congrArg (catalog[41]).build (operands_encodeCsrR ..)

theorem csrrs (rd : RegIdx) (csr : CsrAddr) (rs1 : RegIdx) : Statement (.csrrs rd csr rs1) :=
  of_row 42 (by decide) (mask_encodeCsrR ..) fun _ => congrArg (catalog[42]).build (operands_encodeCsrR ..)

theorem csrrc (rd : RegIdx) (csr : CsrAddr) (rs1 : RegIdx) : Statement (.csrrc rd csr rs1) :=
  of_row 43 (by decide) (mask_encodeCsrR ..) fun _ => congrArg (catalog[43]).build (operands_encodeCsrR ..)

theorem csrrwi (rd : RegIdx) (csr : CsrAddr) (uimm : BitVec 5) : Statement (.csrrwi rd csr uimm) :=
  of_row 44 (by decide) (mask_encodeCsrI ..) fun _ => congrArg (catalog[44]).build (operands_encodeCsrI ..)

theorem csrrsi (rd : RegIdx) (csr : CsrAddr) (uimm : BitVec 5) : Statement (.csrrsi rd csr uimm) :=
  of_row 45 (by decide) (mask_encodeCsrI ..) fun _ => congrArg (catalog[45]).build (operands_encodeCsrI ..)

theorem csrrci (rd : RegIdx) (csr : CsrAddr) (uimm : BitVec 5) : Statement (.csrrci rd csr uimm) :=
  of_row 46 (by decide) (mask_encodeCsrI ..) fun _ => congrArg (catalog[46]).build (operands_encodeCsrI ..)

theorem mul (rd : RegIdx) (rs1 : RegIdx) (rs2 : RegIdx) : Statement (.mul rd rs1 rs2) :=
  of_row 47 (by decide) (mask_encodeR ..) fun _ => congrArg (catalog[47]).build (operands_encodeR ..)

theorem mulh (rd : RegIdx) (rs1 : RegIdx) (rs2 : RegIdx) : Statement (.mulh rd rs1 rs2) :=
  of_row 48 (by decide) (mask_encodeR ..) fun _ => congrArg (catalog[48]).build (operands_encodeR ..)

theorem mulhsu (rd : RegIdx) (rs1 : RegIdx) (rs2 : RegIdx) : Statement (.mulhsu rd rs1 rs2) :=
  of_row 49 (by decide) (mask_encodeR ..) fun _ => congrArg (catalog[49]).build (operands_encodeR ..)

theorem mulhu (rd : RegIdx) (rs1 : RegIdx) (rs2 : RegIdx) : Statement (.mulhu rd rs1 rs2) :=
  of_row 50 (by decide) (mask_encodeR ..) fun _ => congrArg (catalog[50]).build (operands_encodeR ..)

theorem div (rd : RegIdx) (rs1 : RegIdx) (rs2 : RegIdx) : Statement (.div rd rs1 rs2) :=
  of_row 51 (by decide) (mask_encodeR ..) fun _ => congrArg (catalog[51]).build (operands_encodeR ..)

theorem divu (rd : RegIdx) (rs1 : RegIdx) (rs2 : RegIdx) : Statement (.divu rd rs1 rs2) :=
  of_row 52 (by decide) (mask_encodeR ..) fun _ => congrArg (catalog[52]).build (operands_encodeR ..)

theorem rem (rd : RegIdx) (rs1 : RegIdx) (rs2 : RegIdx) : Statement (.rem rd rs1 rs2) :=
  of_row 53 (by decide) (mask_encodeR ..) fun _ => congrArg (catalog[53]).build (operands_encodeR ..)

theorem remu (rd : RegIdx) (rs1 : RegIdx) (rs2 : RegIdx) : Statement (.remu rd rs1 rs2) :=
  of_row 54 (by decide) (mask_encodeR ..) fun _ => congrArg (catalog[54]).build (operands_encodeR ..)

end Sys2Proof.Laws.RowOfEncoding
end

