-- ==== Sys2Proof/Tests/Slice0.lean ====
section
/-!
SUPPORT. The model's own tests. Words and results are the spec's: the vectors E, I, T, M, D, Z, L and S of 95_test_vectors.md, named beside
each test, and otherwise the encoding tables of 30_encoding.md written out bit by bit. Each runs at most one step. The
`witness` theorems at the end show, for each statement with hypotheses, a state and operands that meet them.
-/

namespace Sys2Proof.Tests

open Sys2Proof Sys2Proof.Machine

/-! ## Small states -/

/-- The bytes of a word at an address, lowest first. -/
def wordAt (a w : Word) : List (Word × Byte) :=
  [(a, w.extractLsb' 0 8), (a + 1, w.extractLsb' 8 8), (a + 2, w.extractLsb' 16 8), (a + 3, w.extractLsb' 24 8)]

/-- One statement, on line 7, at `00400000`, with the data bytes of the vectors M and the CSR map `CSR_MAP_T`. -/
def oneWord (w : Word) : SetupInputs :=
  { setupDefault with
    csrMap := csrMapT
    program := [⟨w, 7⟩]
    memInit := wordAt 0x00400000 w ++ wordAt 0x10010000 0x9234FF80 ++ wordAt 0x1000FFFC 0xDEADBEEF }

/-- The state that run setup yields, if it yields one. -/
def boot (p : SetupInputs) : State :=
  match setup p with
  | .ok s => s
  | .error _ => State.reset

/-- One statement to run, and the registers as listed. -/
def start (w : Word) (regs : List (RegIdx × Word)) : State :=
  regs.foldl (fun s p => writeReg p.1 p.2 s) (boot (oneWord w))

/-- The same statement at another pc, with the text region there. -/
def startAt (pc w : Word) (regs : List (RegIdx × Word)) : State :=
  regs.foldl (fun s p => writeReg p.1 p.2 s)
    (boot { oneWord w with program := [⟨w, 7⟩], textBase := pc, startPc := pc, memInit := wordAt pc w })

/-- The next state of a step, if there is one. -/
def after (s : State) : Option State :=
  match step s with
  | .next t => some t
  | .fault _ => none
  | .refused _ => none

/-- The next state of an instruction run alone. -/
def ran (i : Instr) (s : State) : Option State :=
  match exec i s with
  | .next t => some t
  | .fault _ => none
  | .refused _ => none

/-- A register and the pc after one step of a statement. -/
def result (r : RegIdx) (w : Word) (regs : List (RegIdx × Word)) : Option (Word × Word) :=
  (after (start w regs)).map fun t => (readReg r t, t.pc)

/-- Four bytes of Memory after one step. -/
def memoryAt (a w : Word) (regs : List (RegIdx × Word)) : Option Word :=
  (after (start w regs)).map fun t => t.mem.read a .word

/-- What a fault leaves: its detail, word and value, the pc and the step count. -/
structure Seen where
  detail : Detail
  word   : Option Word
  value  : Option Word
  pc     : Word
  steps  : Nat
  deriving DecidableEq, Repr

/-- What one step leaves of a fault, if it ends in one. -/
def faultOf (s : State) : Option Seen :=
  (after s).bind fun t => t.fault.map fun f => ⟨f.detail, f.word, f.value, t.pc, t.stepCount⟩

/-- The stored value of a CSR after one step of a statement, and register `t0`. -/
def csrResult (a : Nat) (w : Word) (priv : BitVec 2) (regs : List (RegIdx × Word)) : Option (Option Word × Word) :=
  (after { start w regs with priv := priv }).map fun t =>
    ((t.csrs.find? fun e => e.entry.addr == a).map (·.value), readReg 5 t)

/-! ## WellFormed: an ill-formed term for each check -/

theorem test_illformed_jal : (Instr.jal 1 3).wellFormed = false := by decide

theorem test_illformed_beq : (Instr.beq 1 2 3).wellFormed = false := by decide

theorem test_illformed_bne : (Instr.bne 1 2 3).wellFormed = false := by decide

theorem test_illformed_blt : (Instr.blt 1 2 3).wellFormed = false := by decide

theorem test_illformed_bge : (Instr.bge 1 2 3).wellFormed = false := by decide

theorem test_illformed_bltu : (Instr.bltu 1 2 3).wellFormed = false := by decide

theorem test_illformed_bgeu : (Instr.bgeu 1 2 3).wellFormed = false := by decide

theorem test_wellformed_even : (Instr.jal 1 2).wellFormed = true ∧ (Instr.beq 1 2 (-4096)).wellFormed = true := by decide

/-! ## Decoding: a word of every constructor, written out from the format tables R92 to R102 -/

theorem test_decode_upper :
    decodeTableWord 32 0b10000000000000000001_01010_0110111 = some (.lui 10 0x80001) ∧
    decodeTableWord 32 0b00000000000000000001_00101_0010111 = some (.auipc 5 1) := by
  decide

theorem test_decode_jumps :
    decodeTableWord 32 0b1_1111111110_1_11111111_00000_1101111 = some (.jal 0 (-4)) ∧
    decodeTableWord 32 0b0_0000000100_1_00000010_00001_1101111 = some (.jal 1 0x2808) ∧
    decodeTableWord 32 0b000000001101_00101_000_00001_1100111 = some (.jalr 1 5 13) := by
  decide

theorem test_decode_branches :
    decodeTableWord 32 0b0_000000_00110_00101_000_0100_0_1100011 = some (.beq 5 6 8) ∧
    decodeTableWord 32 0b1_111111_00000_00101_001_1100_1_1100011 = some (.bne 5 0 (-8)) ∧
    decodeTableWord 32 0b0_000000_00110_00101_100_0000_1_1100011 = some (.blt 5 6 2048) ∧
    decodeTableWord 32 0b1_000000_00110_00101_101_0000_0_1100011 = some (.bge 5 6 (-4096)) ∧
    decodeTableWord 32 0b0_111111_00110_00101_110_1111_1_1100011 = some (.bltu 5 6 4094) ∧
    decodeTableWord 32 0b0_000001_00110_00101_111_0000_0_1100011 = some (.bgeu 5 6 32) := by
  decide

theorem test_decode_loads :
    decodeTableWord 32 0b000000000000_01000_000_01010_0000011 = some (.lb 10 8 0) ∧
    decodeTableWord 32 0b000000000010_01000_001_01010_0000011 = some (.lh 10 8 2) ∧
    decodeTableWord 32 0b111111111100_01000_010_01010_0000011 = some (.lw 10 8 (-4)) ∧
    decodeTableWord 32 0b000000000011_01000_100_01010_0000011 = some (.lbu 10 8 3) ∧
    decodeTableWord 32 0b011111111111_01000_101_01010_0000011 = some (.lhu 10 8 2047) := by
  decide

theorem test_decode_stores :
    decodeTableWord 32 0b0000000_01010_01000_000_00001_0100011 = some (.sb 10 8 1) ∧
    decodeTableWord 32 0b0111111_01010_01000_001_11111_0100011 = some (.sh 10 8 2047) ∧
    decodeTableWord 32 0b1000000_01010_01000_010_00000_0100011 = some (.sw 10 8 (-2048)) := by
  decide

theorem test_decode_immediates :
    decodeTableWord 32 0b100000000101_00110_000_00101_0010011 = some (.addi 5 6 0x805) ∧
    decodeTableWord 32 0b100000000101_00110_010_00101_0010011 = some (.slti 5 6 0x805) ∧
    decodeTableWord 32 0b100000000101_00110_011_00101_0010011 = some (.sltiu 5 6 0x805) ∧
    decodeTableWord 32 0b100000000101_00110_100_00101_0010011 = some (.xori 5 6 0x805) ∧
    decodeTableWord 32 0b100000000101_00110_110_00101_0010011 = some (.ori 5 6 0x805) ∧
    decodeTableWord 32 0b100000000101_00110_111_00101_0010011 = some (.andi 5 6 0x805) := by
  decide

theorem test_decode_shifts :
    decodeTableWord 32 0b0000000_11111_00110_001_00101_0010011 = some (.slli 5 6 31) ∧
    decodeTableWord 32 0b0000000_11111_00110_101_00101_0010011 = some (.srli 5 6 31) ∧
    decodeTableWord 32 0b0100000_11111_00110_101_00101_0010011 = some (.srai 5 6 31) := by
  decide

theorem test_decode_registers :
    decodeTableWord 32 0b0000000_00111_00110_000_00101_0110011 = some (.add 5 6 7) ∧
    decodeTableWord 32 0b0100000_00111_00110_000_00101_0110011 = some (.sub 5 6 7) ∧
    decodeTableWord 32 0b0000000_00111_00110_001_00101_0110011 = some (.sll 5 6 7) ∧
    decodeTableWord 32 0b0000000_00111_00110_010_00101_0110011 = some (.slt 5 6 7) ∧
    decodeTableWord 32 0b0000000_00111_00110_011_00101_0110011 = some (.sltu 5 6 7) ∧
    decodeTableWord 32 0b0000000_00111_00110_100_00101_0110011 = some (.xor 5 6 7) ∧
    decodeTableWord 32 0b0000000_00111_00110_101_00101_0110011 = some (.srl 5 6 7) ∧
    decodeTableWord 32 0b0100000_00111_00110_101_00101_0110011 = some (.sra 5 6 7) ∧
    decodeTableWord 32 0b0000000_00111_00110_110_00101_0110011 = some (.or 5 6 7) ∧
    decodeTableWord 32 0b0000000_00111_00110_111_00101_0110011 = some (.and 5 6 7) := by
  decide

theorem test_decode_system :
    decodeTableWord 32 0b1000_0011_0101_00001_000_00010_0001111 = some (.fence 3 5 8 1 2) ∧
    decodeTableWord 32 0b100000000001_00001_001_00010_0001111 = some (.fenceI 0x801 1 2) ∧
    decodeTableWord 32 0b000000000000_00000_000_00000_1110011 = some (.ecall) ∧
    decodeTableWord 32 0b000000000001_00000_000_00000_1110011 = some (.ebreak) := by
  decide

theorem test_decode_csr :
    decodeTableWord 32 0b110000000010_10011_001_00101_1110011 = some (.csrrw 5 0xC02 19) ∧
    decodeTableWord 32 0b110000000010_10011_010_00101_1110011 = some (.csrrs 5 0xC02 19) ∧
    decodeTableWord 32 0b110000000010_10011_011_00101_1110011 = some (.csrrc 5 0xC02 19) ∧
    decodeTableWord 32 0b110000000010_10011_101_00101_1110011 = some (.csrrwi 5 0xC02 19) ∧
    decodeTableWord 32 0b110000000010_10011_110_00101_1110011 = some (.csrrsi 5 0xC02 19) ∧
    decodeTableWord 32 0b110000000010_10011_111_00101_1110011 = some (.csrrci 5 0xC02 19) := by
  decide

theorem test_decode_muldiv :
    decodeTableWord 32 0b0000001_00111_00110_000_00101_0110011 = some (.mul 5 6 7) ∧
    decodeTableWord 32 0b0000001_00111_00110_001_00101_0110011 = some (.mulh 5 6 7) ∧
    decodeTableWord 32 0b0000001_00111_00110_010_00101_0110011 = some (.mulhsu 5 6 7) ∧
    decodeTableWord 32 0b0000001_00111_00110_011_00101_0110011 = some (.mulhu 5 6 7) ∧
    decodeTableWord 32 0b0000001_00111_00110_100_00101_0110011 = some (.div 5 6 7) ∧
    decodeTableWord 32 0b0000001_00111_00110_101_00101_0110011 = some (.divu 5 6 7) ∧
    decodeTableWord 32 0b0000001_00111_00110_110_00101_0110011 = some (.rem 5 6 7) ∧
    decodeTableWord 32 0b0000001_00111_00110_111_00101_0110011 = some (.remu 5 6 7) := by
  decide

/-- The vectors E1 to E17. -/
theorem test_decode_vectors :
    [0x00AFD2F3, 0x70FFD2F3, 0xFE029CE3, 0xFFDFF06F, 0x80A42023, 0x12345537, 0x41F35293, 0x0FF0000F, 0x8330000F, 0x0100000F,
      0x0000100F, 0x00000073, 0x00100073, 0x00010113, 0x0000006F, 0x00000013, 0x40000013].map (decodeTableWord 32) =
    [some (.csrrwi 5 10 31), some (.csrrwi 5 1807 31), some (.bne 5 0 (-8)), some (.jal 0 (-4)), some (.sw 10 8 (-2048)),
      some (.lui 10 74565), some (.srai 5 6 31), some (.fence 15 15 0 0 0), some (.fence 3 3 8 0 0), some (.fence 1 0 0 0 0),
      some (.fenceI 0 0 0), some .ecall, some .ebreak, some (.addi 2 2 0), some (.jal 0 0), some (.addi 0 0 0),
      some (.addi 0 0 1024)] := by decide

/-- The vectors E18 to E38: words of no template. -/
theorem test_decode_no_template :
    [0x00000000, 0xFFFFFFFF, 0x00200073, 0x30200073, 0x10500073, 0x001000F3, 0x00008073, 0x02035293, 0x42035293, 0x41F31293,
      0x40001033, 0x04000033, 0x0000302F, 0x00003003, 0x00002063, 0x00003023, 0x00001067, 0x0000200F, 0x00004073, 0x00000007,
      0x00000001].all (fun w => (decodeTableWord 32 w).isNone) = true := by decide

theorem test_decode_truncated : (match decodeBytes [0x13, 0x00, 0x00] with
    | .error (.truncated n) => some n
    | _ => none) = some 3 := by decide

/-! ## The registry (S4, R132, R133) -/

def registryError : Except RegistryError Catalog → Option RegistryError
  | .ok _ => none
  | .error e => some e

theorem test_registry_default : registryError (buildRegistry catalog) = none := by decide +kernel

theorem test_registry_collision :
    registryError (register catalog
      ⟨"every_immediate", .U, 0x00000013#32, 0x0000007F#32, templateU 0b0010011, fun o => .lui o.rd o.imm20⟩) =
    some (.collision "every_immediate" "addi") := by decide +kernel

theorem test_registry_accepts :
    registryError (register catalog
      ⟨"custom", .U, 0x0000000B#32, 0x0000007F#32, templateU 0b0001011, fun o => .lui o.rd o.imm20⟩) = none := by
  decide +kernel

theorem test_registry_bad_template :
    registryError (register catalog
      ⟨"custom", .I, 0x0000000B#32, 0x0000007F#32, templateU 0b0001011, fun o => .addi o.rd o.rs1 o.imm⟩) =
    some (.badTemplate "custom") := by decide +kernel

/-! ## Integer computational instructions (vectors I): the register and the pc after one step -/

/-- I2. -/
theorem test_lui_high : result 10 0xFFFFF537 [] = some (0xFFFFF000, 0x00400004) := by decide

/-- I4. -/
theorem test_auipc_wraps : result 5 0xFFFFF297 [] = some (0x003FF000, 0x00400004) := by decide

/-- I6. -/
theorem test_addi_wraps : result 5 0x00130293 [(6, 0x7FFFFFFF)] = some (0x80000000, 0x00400004) := by decide

/-- I9. -/
theorem test_addi_to_x0 : result 0 0x00530013 [(6, 0x9)] = some (0x00000000, 0x00400004) := by decide

/-- I10. -/
theorem test_slti_negative : result 5 0xFFF32293 [(6, 0xFFFFFFFE)] = some (0x00000001, 0x00400004) := by decide

/-- I12. -/
theorem test_sltiu_sign_extends : result 5 0xFFF33293 [(6, 0xFFFFFFFE)] = some (0x00000001, 0x00400004) := by decide

/-- I14. -/
theorem test_sltiu_equal : result 5 0x00133293 [(6, 0x1)] = some (0x00000000, 0x00400004) := by decide

/-- I15. -/
theorem test_xori_not : result 5 0xFFF34293 [(6, 0xF0F0F0F)] = some (0xF0F0F0F0, 0x00400004) := by decide

/-- I16. -/
theorem test_ori : result 5 0x70036293 [(6, 0xF)] = some (0x0000070F, 0x00400004) := by decide

/-- I17. -/
theorem test_andi_negative : result 5 0xFF037293 [(6, 0x12345678)] = some (0x12345670, 0x00400004) := by decide

/-- I18. -/
theorem test_slli_31 : result 5 0x01F31293 [(6, 0x3)] = some (0x80000000, 0x00400004) := by decide

/-- I19. -/
theorem test_slli_0 : result 5 0x00031293 [(6, 0x80000001)] = some (0x80000001, 0x00400004) := by decide

/-- I20. -/
theorem test_srli_31 : result 5 0x01F35293 [(6, 0x80000000)] = some (0x00000001, 0x00400004) := by decide

/-- I21. -/
theorem test_srai_31 : result 5 0x41F35293 [(6, 0x80000000)] = some (0xFFFFFFFF, 0x00400004) := by decide

/-- I23. -/
theorem test_srai_positive : result 5 0x40435293 [(6, 0x7FFFFFF0)] = some (0x07FFFFFF, 0x00400004) := by decide

/-- I24. -/
theorem test_add_wraps : result 5 0x007302B3 [(6, 0xFFFFFFFF), (7, 0x1)] = some (0x00000000, 0x00400004) := by decide

/-- I26. -/
theorem test_add_same_register : result 5 0x005282B3 [(5, 0x40000000)] = some (0x80000000, 0x00400004) := by decide

/-- I27. -/
theorem test_sub_borrow : result 5 0x407302B3 [(7, 0x1)] = some (0xFFFFFFFF, 0x00400004) := by decide

/-- I28. -/
theorem test_sub_order : result 5 0x407302B3 [(6, 0x80000000), (7, 0x1)] = some (0x7FFFFFFF, 0x00400004) := by decide

/-- I30. -/
theorem test_sll_by_32 : result 5 0x007312B3 [(6, 0x1), (7, 0x20)] = some (0x00000001, 0x00400004) := by decide

/-- I31. -/
theorem test_sll_by_31 : result 5 0x007312B3 [(6, 0x1), (7, 0xFFFFFFFF)] = some (0x80000000, 0x00400004) := by decide

/-- I32. -/
theorem test_slt_signed : result 5 0x007322B3 [(6, 0x80000000), (7, 0x7FFFFFFF)] = some (0x00000001, 0x00400004) := by decide

/-- I33. -/
theorem test_sltu_unsigned : result 5 0x007332B3 [(6, 0x80000000), (7, 0x7FFFFFFF)] = some (0x00000000, 0x00400004) := by decide

/-- I34. -/
theorem test_sltu_snez : result 5 0x007032B3 [(7, 0x5)] = some (0x00000001, 0x00400004) := by decide

/-- I35. -/
theorem test_xor : result 5 0x007342B3 [(6, 0xFF00FF00), (7, 0xFF00FF0)] = some (0xF0F0F0F0, 0x00400004) := by decide

/-- I36. -/
theorem test_srl_by_33 : result 5 0x007352B3 [(6, 0x80000000), (7, 0x21)] = some (0x40000000, 0x00400004) := by decide

/-- I37. -/
theorem test_sra_by_33 : result 5 0x407352B3 [(6, 0x80000000), (7, 0x21)] = some (0xC0000000, 0x00400004) := by decide

/-- I38. -/
theorem test_or : result 5 0x007362B3 [(6, 0xF0F00000), (7, 0xF0F0)] = some (0xF0F0F0F0, 0x00400004) := by decide

/-- I39. -/
theorem test_and : result 5 0x007372B3 [(6, 0xFF00FF00), (7, 0xFF00FF0)] = some (0x0F000F00, 0x00400004) := by decide

/-! ## Multiply and divide (vectors D) -/

/-- D1v. -/
theorem test_mul_overflow : result 5 0x027302B3 [(6, 0x10000), (7, 0x10000)] = some (0x00000000, 0x00400004) := by decide

/-- D2v. -/
theorem test_mul_negative : result 5 0x027302B3 [(6, 0xFFFFFFF9), (7, 0x2)] = some (0xFFFFFFF2, 0x00400004) := by decide

/-- D3v. -/
theorem test_mulh_floor : result 5 0x027312B3 [(6, 0xFFFFFFF9), (7, 0x2)] = some (0xFFFFFFFF, 0x00400004) := by decide

/-- D4v. -/
theorem test_mulh_extreme : result 5 0x027312B3 [(6, 0x80000000), (7, 0x80000000)] = some (0x40000000, 0x00400004) := by decide

/-- D6v. -/
theorem test_mulhu_max : result 5 0x027332B3 [(6, 0xFFFFFFFF), (7, 0xFFFFFFFF)] = some (0xFFFFFFFE, 0x00400004) := by decide

/-- D8v. -/
theorem test_mulhsu_signs : result 5 0x027322B3 [(6, 0xFFFFFFFF), (7, 0xFFFFFFFF)] = some (0xFFFFFFFF, 0x00400004) := by decide

/-- D9v. -/
theorem test_mulhsu_order : result 5 0x027322B3 [(6, 0x2), (7, 0xFFFFFFFF)] = some (0x00000001, 0x00400004) := by decide

/-- D11v. -/
theorem test_div_truncates : result 5 0x027342B3 [(6, 0x7), (7, 0xFFFFFFFE)] = some (0xFFFFFFFD, 0x00400004) := by decide

/-- D24v. -/
theorem test_div_overflow : result 5 0x027342B3 [(6, 0x80000000), (7, 0xFFFFFFFF)] = some (0x80000000, 0x00400004) := by decide

/-- D16v. -/
theorem test_rem_sign : result 5 0x027362B3 [(6, 0xFFFFFFF9), (7, 0x2)] = some (0xFFFFFFFF, 0x00400004) := by decide

/-- D25v. -/
theorem test_rem_overflow : result 5 0x027362B3 [(6, 0x80000000), (7, 0xFFFFFFFF)] = some (0x00000000, 0x00400004) := by decide

/-- D17v. -/
theorem test_divu : result 5 0x027352B3 [(6, 0xFFFFFFF9), (7, 0x2)] = some (0x7FFFFFFC, 0x00400004) := by decide

/-- D21v. -/
theorem test_divu_by_zero : result 5 0x027352B3 [(6, 0x7), (7, 0x0)] = some (0xFFFFFFFF, 0x00400004) := by decide

/-- D28v. -/
theorem test_remu : result 5 0x027372B3 [(6, 0xFFFFFFFE), (7, 0xFFFFFFFF)] = some (0xFFFFFFFE, 0x00400004) := by decide

/-- D22v. -/
theorem test_remu_by_zero : result 5 0x027372B3 [(6, 0x7), (7, 0x0)] = some (0x00000007, 0x00400004) := by decide

/-- D19v, D20v: signed division by zero. -/
theorem test_signed_division_by_zero :
    result 5 0x027342B3 [(6, 0xFFFFFFF9)] = some (0xFFFFFFFF, 0x00400004) ∧
    result 5 0x027362B3 [(6, 0xFFFFFFF9)] = some (0xFFFFFFF9, 0x00400004) := by decide

/-- D19v to D23v under `ARITH_FAULT_ON_DIV_ZERO`: the four fault, nothing is written; the record is complete (R272). -/
theorem test_division_fault :
    [0x027342B3, 0x027352B3, 0x027362B3, 0x027372B3].all (fun w =>
      (after { start w [(5, 0x55), (6, 7)] with config := { configDefault with arithFaultOnDivZero := true } }).map
        (fun t => (t.fault, readReg 5 t, t.reason)) ==
      some (some ⟨.arithmeticFault, .divZero, 0x00400000, some w, some 7, none⟩, 0x55, some .exception)) = true := by
  decide

/-! ## Control transfer (vectors T) -/

/-- T1. -/
theorem test_jal_links :
    (after (startAt 0x00400004 0x008000EF [])).map (fun t => (readReg 1 t, t.pc)) = some (0x00400008, 0x0040000C) := by decide

/-- T2. -/
theorem test_jal_back_to_x0 :
    (after (startAt 0x00400004 0xFFDFF06F [])).map (fun t => (readReg 0 t, t.pc)) = some (0x00000000, 0x00400000) := by decide

/-- T5. -/
theorem test_jalr_clears_bit_0 :
    (after (startAt 0x00400004 0x00D280E7 [(5, 0x400000)])).map (fun t => (readReg 1 t, t.pc)) = some (0x00400008, 0x0040000C) := by decide

/-- T7. -/
theorem test_jalr_same_register :
    (after (startAt 0x00400004 0x008282E7 [(5, 0x400000)])).map (fun t => (readReg 5 t, t.pc)) = some (0x00400008, 0x00400008) := by decide

/-- T9, T10: the operands -1 and 0, then 5 and 5. -/
theorem test_beq :
    (result 0 0x00628463 [(5, 0xFFFFFFFF), (6, 0)]).map (·.2) = some 0x00400004 ∧
    (result 0 0x00628463 [(5, 5), (6, 5)]).map (·.2) = some 0x00400008 := by decide

/-- T11, T12: the operands -1 and 0, then 5 and 5. -/
theorem test_bne :
    (result 0 0x00629463 [(5, 0xFFFFFFFF), (6, 0)]).map (·.2) = some 0x00400008 ∧
    (result 0 0x00629463 [(5, 5), (6, 5)]).map (·.2) = some 0x00400004 := by decide

/-- T13, T14: the operands -1 and 0, then 5 and 5. -/
theorem test_blt :
    (result 0 0x0062C463 [(5, 0xFFFFFFFF), (6, 0)]).map (·.2) = some 0x00400008 ∧
    (result 0 0x0062C463 [(5, 5), (6, 5)]).map (·.2) = some 0x00400004 := by decide

/-- T15, T16: the operands -1 and 0, then 5 and 5. -/
theorem test_bge :
    (result 0 0x0062D463 [(5, 0xFFFFFFFF), (6, 0)]).map (·.2) = some 0x00400004 ∧
    (result 0 0x0062D463 [(5, 5), (6, 5)]).map (·.2) = some 0x00400008 := by decide

/-- T17, T18: the operands -1 and 0, then 5 and 5. -/
theorem test_bltu :
    (result 0 0x0062E463 [(5, 0xFFFFFFFF), (6, 0)]).map (·.2) = some 0x00400004 ∧
    (result 0 0x0062E463 [(5, 5), (6, 5)]).map (·.2) = some 0x00400004 := by decide

/-- T19, T20: the operands -1 and 0, then 5 and 5. -/
theorem test_bgeu :
    (result 0 0x0062F463 [(5, 0xFFFFFFFF), (6, 0)]).map (·.2) = some 0x00400008 ∧
    (result 0 0x0062F463 [(5, 5), (6, 5)]).map (·.2) = some 0x00400008 := by decide

/-- The taken side of BLTU: 0 is below `FFFFFFFF` read as unsigned (R227). -/
theorem test_bltu_taken : (result 0 0x0062E463 [(5, 0), (6, 0xFFFFFFFF)]).map (·.2) = some 0x00400008 := by decide

/-- The untaken side of BGEU (R228). -/
theorem test_bgeu_not_taken : (result 0 0x0062F463 [(5, 0), (6, 0xFFFFFFFF)]).map (·.2) = some 0x00400004 := by decide

/-- T3, T6: the fault is the jump's own, with the target as value, and the link register keeps its value. -/
theorem test_jump_misaligned :
    faultOf (startAt 0x00400004 0x006000EF []) = some ⟨.fetch, some 0x006000EF, some 0x0040000A, 0x00400004, 0⟩ ∧
    faultOf (startAt 0x00400004 0x002280E7 [(5, 0x00400000)]) =
      some ⟨.fetch, some 0x002280E7, some 0x00400002, 0x00400004, 0⟩ ∧
    (after (startAt 0x00400004 0x006000EF [])).map (readReg 1) = some 0 := by decide

/-- T21, T22: a taken branch to a misaligned target faults, one not taken never does. -/
theorem test_branch_misaligned :
    faultOf (start 0x00000363 []) = some ⟨.fetch, some 0x00000363, some 0x00400006, 0x00400000, 0⟩ ∧
    (result 0 0x00001363 []).map (·.2) = some 0x00400004 := by decide

/-! ## Loads and stores (vectors M) -/

/-- M1. -/
theorem test_lb_negative : result 10 0x00040503 [(8, 0x10010000)] = some (0xFFFFFF80, 0x00400004) := by decide

/-- M2. -/
theorem test_lb_positive : result 10 0x00240503 [(8, 0x10010000)] = some (0x00000034, 0x00400004) := by decide

/-- M4. -/
theorem test_lbu : result 10 0x00344503 [(8, 0x10010000)] = some (0x00000092, 0x00400004) := by decide

/-- M5. -/
theorem test_lh_low : result 10 0x00041503 [(8, 0x10010000)] = some (0xFFFFFF80, 0x00400004) := by decide

/-- M6. -/
theorem test_lh_high : result 10 0x00241503 [(8, 0x10010000)] = some (0xFFFF9234, 0x00400004) := by decide

/-- M8. -/
theorem test_lhu : result 10 0x00245503 [(8, 0x10010000)] = some (0x00009234, 0x00400004) := by decide

/-- M9. -/
theorem test_lw : result 10 0x00042503 [(8, 0x10010000)] = some (0x9234FF80, 0x00400004) := by decide

/-- M10. -/
theorem test_lw_negative_displacement : result 10 0xFFC42503 [(8, 0x10010000)] = some (0xDEADBEEF, 0x00400004) := by decide

/-- M12. -/
theorem test_lw_over_its_base : result 8 0x00042403 [(8, 0x10010000)] = some (0x9234FF80, 0x00400004) := by decide

/-- M11: a load to `x0` writes nothing and issues exactly one read, after the fetch. -/
theorem test_load_to_x0 : (after (start 0x00042003 [(8, 0x10010000)])).map (fun t => (readReg 0 t, t.memPort)) =
    some (0, [.read .load 0x10010000 .word, .read .fetch 0x00400000 .word]) := by decide

/-- M13, M14, M15: misaligned loads; a fault issues no read but the fetch. -/
theorem test_load_misaligned :
    faultOf (start 0x00141503 [(8, 0x10010000)]) = some ⟨.load, some 0x00141503, some 0x10010001, 0x00400000, 0⟩ ∧
    faultOf (start 0x00345503 [(8, 0x10010000)]) = some ⟨.load, some 0x00345503, some 0x10010003, 0x00400000, 0⟩ ∧
    faultOf (start 0x00242503 [(8, 0x10010000)]) = some ⟨.load, some 0x00242503, some 0x10010002, 0x00400000, 0⟩ ∧
    (after (start 0x00242503 [(8, 0x10010000)])).map (·.memPort) = some [.read .fetch 0x00400000 .word] := by decide

/-- M17. -/
theorem test_sb : memoryAt 0x10010000 0x00A400A3 [(8, 0x10010000), (10, 0x12345678)] = some 0x92347880 := by decide

/-- M18. -/
theorem test_sh : memoryAt 0x10010000 0x00A41123 [(8, 0x10010000), (10, 0x12345678)] = some 0x5678FF80 := by decide

/-- M19. -/
theorem test_sw : memoryAt 0x10010000 0x00A42023 [(8, 0x10010000), (10, 0x12345678)] = some 0x12345678 := by decide

/-- M20: the split immediate, and the bytes outside are unchanged. -/
theorem test_sw_negative_displacement :
    memoryAt 0x1000F800 0x80A42023 [(8, 0x10010000), (10, 0x12345678)] = some 0x12345678 ∧
    memoryAt 0x10010000 0x80A42023 [(8, 0x10010000), (10, 0x12345678)] = some 0x9234FF80 := by decide

/-- M21, M22: misaligned stores. -/
theorem test_store_misaligned :
    faultOf (start 0x00A410A3 [(8, 0x10010000), (10, 0x12345678)]) = some ⟨.store, some 0x00A410A3, some 0x10010001, 0x00400000, 0⟩ ∧
    faultOf (start 0x00A42123 [(8, 0x10010000), (10, 0x12345678)]) = some ⟨.store, some 0x00A42123, some 0x10010002, 0x00400000, 0⟩ := by decide

/-- A store into the text region (R74): rejected, ignored, or with `SMC_MODE = on` performed; the program P5 in one step. -/
theorem test_text_store :
    faultOf (start 0x00A42023 [(8, 0x00400000)]) = some ⟨.textStore, some 0x00A42023, some 0x00400000, 0x00400000, 0⟩ ∧
    (after { start 0x00A42023 [(8, 0x00400000)] with config := { configDefault with storePolicy := .ignore } }).map
      (fun t => (t.mem.read 0x00400000 .word, t.pc, t.stepCount, t.memPort)) =
      some (0x00A42023, 0x00400004, 1, [.read .fetch 0x00400000 .word]) ∧
    (after { start 0x00A42023 [(8, 0x00400000), (10, 0x00100513)] with config := { configDefault with smcMode := .on } }).map
      (fun t => t.mem.read 0x00400000 .word) = some 0x00100513 := by decide

/-- The misalignment check comes before the text region (R237). -/
theorem test_text_store_misaligned :
    faultOf (start 0x00A420A3 [(8, 0x00400000)]) = some ⟨.store, some 0x00A420A3, some 0x00400001, 0x00400000, 0⟩ := by
  decide

/-- An access that Memory does not admit leaves no step (R66). -/
theorem test_not_admitted : (match step { start 0x00042503 [(8, 0x10010000)] with
      config := { configDefault with refused := [⟨.load, .word, 0x10010000, 0x10010FFF⟩] } } with
    | .fault r => some r
    | _ => none) = some (.accessNotAdmitted 0x10010000 .word .load) := by decide

/-! ## CSR instructions (vectors Z) -/

/-- Z1. -/
theorem test_csrrw : csrResult 0x00A 0x00A312F3 0 [(6, 0xF0)] = some (some 0xF0, 0x7) := by decide

/-- Z2. -/
theorem test_csrrw_exchanges : csrResult 0x00A 0x00A292F3 0 [(5, 0xAB)] = some (some 0xAB, 0x7) := by decide

/-- Z4. -/
theorem test_csrrwi_zero_writes : csrResult 0x00A 0x00A05073 0 [] = some (some 0x0, 0x0) := by decide

/-- Z5. -/
theorem test_csrrwi : csrResult 0x00A 0x00AFD2F3 0 [] = some (some 0x1F, 0x7) := by decide

/-- Z6. -/
theorem test_csrrs_pure_read : csrResult 0x00A 0x00A022F3 0 [] = some (some 0x7, 0x7) := by decide

/-- The word of R164 with `rd` 5, `rs1` 6: 7 with the bits of `F0` set. -/
theorem test_csrrs_sets : csrResult 0x00A 0x00A322F3 0 [(6, 0xF0)] = some (some 0xF7, 0x7) := by decide

/-- Z7. -/
theorem test_csrrc_clears : csrResult 0x00A 0x00A2B2F3 0 [(5, 0x5)] = some (some 0x2, 0x7) := by decide

/-- The word of R167 with `rd` 5, `uimm` 8: 7 with bit 3 set. -/
theorem test_csrrsi_sets : csrResult 0x00A 0x00A462F3 0 [] = some (some 0xF, 0x7) := by decide

/-- The word of R168 with `rd` 5, `uimm` 2: 7 with bit 1 cleared. -/
theorem test_csrrci_clears : csrResult 0x00A 0x00A172F3 0 [] = some (some 0x5, 0x7) := by decide

/-- Z12. -/
theorem test_csr_gate_passed : csrResult 0x340 0x3400D2F3 3 [] = some (some 0x1, 0x0) := by decide

/-- Z14. -/
theorem test_csrrsi_reads_cycleh : csrResult 0xC80 0xC80062F3 0 [(5, 0x9)] = some (some 0x0, 0x0) := by decide

/-- Z8, Z9, Z10, Z13: the gates, each with the CSR address as value. -/
theorem test_csr_gates :
    faultOf (start 0xC002A573 []) = some ⟨.csrReadOnly, some 0xC002A573, some 0xC00, 0x00400000, 0⟩ ∧
    faultOf { start 0xC01022F3 [] with priv := 3 } = some ⟨.csrUnavailable, some 0xC01022F3, some 0xC01, 0x00400000, 0⟩ ∧
    faultOf (start 0x3400D2F3 []) = some ⟨.csrGate, some 0x3400D2F3, some 0x340, 0x00400000, 0⟩ ∧
    faultOf (start 0x340022F3 []) = some ⟨.csrGate, some 0x340022F3, some 0x340, 0x00400000, 0⟩ := by decide

/-- Z11: the supervisor level is below the machine gate too; Z15: an absent address changes neither register nor CSR. -/
theorem test_csr_faults_change_nothing :
    csrResult 0x340 0x3400D2F3 1 [(5, 0x55)] = some (some 0, 0x55) ∧
    csrResult 0x00A 0x70FFD2F3 0 [(5, 0x55)] = some (some 7, 0x55) := by decide

/-- A counter reads the instructions retired before it (R318): 8 and `steps64[63:32]`. -/
theorem test_counter_reads :
    (ran (.csrrs 12 0xC02 0) { start 0 [] with steps64 := 0x500000008 }).map (readReg 12) = some 8 ∧
    (ran (.csrrs 12 0xC82 0) { start 0 [] with steps64 := 0x500000008 }).map (readReg 12) = some 5 := by decide

/-! ## System instructions, the loop and setup (vectors L) -/

/-- L1, L2: ECALL under `ENV_MIN`. -/
theorem test_ecall_exits :
    (after (start 0x00000073 [])).map (fun t => (t.reason, getExitCode t, t.pc, t.stepCount)) =
      some (some .normalTermination, some 0, 0x00400004, 1) ∧
    (after (start 0x00000073 [(10, 0xFFFFFFFF)])).map getExitCode = some (some (-1)) := by decide

/-- `Continue(writes)` (R184): applied in order, `x0` discarded, a write into the text region dropped. -/
theorem test_ecall_continues :
    (after { start 0x00000073 [] with env := .platform [.cont
        [.reg 5 1, .reg 0 9, .reg 5 2, .half 0x08008001 0xABCD, .byte 0x00400001 0xFF]] }).map
      (fun t => (readReg 5 t, readReg 0 t, t.mem.read 0x10010000 .word, t.mem.read 0x00400000 .word, t.pc, t.runState)) =
    some (2, 0, 0xABCDFF80, 0x00000073, 0x00400004, .running) := by decide

/-- L3: EBREAK. -/
theorem test_ebreak :
    (after (start 0x00100073 [])).map (fun t => (t.reason, t.fault, t.stepCount)) =
      some (some .exception, some ⟨.breakpoint, .ebreak, 0x00400000, some 0x00100073, some 7, none⟩, 0) := by decide

/-- L4, L5: the fences change nothing but the pc and the counters. -/
theorem test_fences :
    after (start 0x0FF0000F []) = some { start 0x0FF0000F [] with
      pc := 0x00400004, stepCount := 1, steps64 := 1, memPort := [.read .fetch 0x00400000 .word] } ∧
    after (start 0x0000100F []) = some { start 0x0000100F [] with
      pc := 0x00400004, stepCount := 1, steps64 := 1, memPort := [.read .fetch 0x00400000 .word] } := by decide

/-- L6: `MAX_STEPS = 0` halts before the first fetch, with no read issued. -/
theorem test_step_limit_zero :
    (after { start 0x00000013 [] with config := { configDefault with maxSteps := some 0 } }).map
      (fun t => (t.reason, t.pc, t.stepCount, t.memPort)) = some (some .stepLimit, 0x00400000, 0, []) := by decide

/-- L7, L8: a request at the boundary comes before the limit. -/
theorem test_stop_requests :
    (after { start 0x00000013 [] with stopReqs := [.externalStop] }).map (fun t => (t.reason, t.stepCount)) =
      some (some .externalStop, 0) ∧
    (after { start 0x00000013 [] with
      stopReqs := [.breakpoint], config := { configDefault with maxSteps := some 0 } }).map (·.reason) =
      some (some .breakpoint) := by decide

/-- L10, L11: no template; no statement, with neither word nor line. -/
theorem test_fetch_faults :
    (after (start 0x00000000 [])).bind (·.fault) =
      some ⟨.illegalInstruction, .noTemplate, 0x00400000, some 0, some 7, none⟩ ∧
    (after { start 0x00000013 [] with pc := 0x00400100 }).bind (·.fault) =
      some ⟨.illegalInstruction, .noStatement, 0x00400100, none, none, none⟩ ∧
    (after { start 0x00000013 [] with pc := 0x00400002 }).bind (·.fault) =
      some ⟨.misalignedAccess, .fetch, 0x00400002, none, some 7, some 0x00400002⟩ := by decide

/-- From reset with nothing placed the first step ends the run: there is no statement (log 4). -/
theorem test_reset_has_no_program :
    (after State.reset).map (fun t => (t.reason, t.fault.map (·.detail))) =
      some (some .exception, some .noStatement) := by decide

/-- The host's question on one word: it decodes, and it is what the first step after reset runs. -/
theorem test_first_step_after_reset :
    (after (State.reset.withFetchWord 32 0x12345537)).map (fun t => (readReg 10 t, t.pc)) =
      some (0x12345000, 0x00400004) := by decide

/-- The preconditions of run setup, each refused by name (R310, R313). -/
theorem test_setup_refusals :
    [{ oneWord 0x13 with csrMap := csrMapT ++ [⟨0x340, "again", .RW, 0, 0, .none⟩] }, { oneWord 0x13 with privReset := 2 },
      { oneWord 0x13 with textBase := 0x00400002 }, { oneWord 0x13 with textBase := 0xFFFFFFFC, program := [⟨0, 1⟩, ⟨0, 2⟩] },
      { oneWord 0x13 with program := [⟨0x93, 7⟩] }, { oneWord 0x13 with startPc := 0x00400001 }].map
      (fun p => match setup p with
        | .ok _ => none
        | .error e => some e) =
    [some .csrMap, some .privReset, some .textBase, some .textBounds, some .image, some .startPc] := by decide

/-- The text region may end at the top of the address space (R70). -/
theorem test_setup_top_of_memory :
    (boot { oneWord 0 with program := [⟨0, 7⟩], textBase := 0xFFFFFFFC }).textBase = 0xFFFFFFFC := by decide

/-- Registers and the CSR of R42 after setup. -/
theorem test_setup_values :
    (readReg 2 (start 0x13 []), (start 0x13 []).csrs.map (·.value)) = (0, [0, 0, 0, 0, 0, 7]) := by decide

/-! ## Witnesses: states and operands that meet the hypotheses of the statements -/

/-- A step, or a step of an instruction alone, whose next state is as `p` says. -/
theorem after_any {s : State} {p : State → Bool} (h : (after s).any p = true) : ∃ t, step s = .next t ∧ p t = true := by
  unfold after at h
  split at h
  · exact ⟨_, ‹_›, h⟩
  all_goals simp at h

theorem ran_any {i : Instr} {s : State} {p : State → Bool} (h : (ran i s).any p = true) :
    ∃ t, exec i s = .next t ∧ p t = true := by
  unfold ran at h
  split at h
  · exact ⟨_, ‹_›, h⟩
  all_goals simp at h

theorem setup_boot {p : SetupInputs} (h : (setup p).isOk = true) : setup p = .ok (boot p) := by
  unfold boot
  split
  · assumption
  · rename_i e
    rw [e] at h
    cases h

/-- A run of at most one step. -/
theorem simulate_one {s t : State} (hr : s.runState = .running) (h : step s = .next t) : simulate 1 s = .next t := by
  simp [simulate, hr, h]

/-- Why there is no step, if there is none. -/
def stuckBy (s : State) : Option Fault :=
  match step s with
  | .next _ => none
  | .fault r => some r
  | .refused _ => none

theorem simulate_one_stuck {s : State} {r : Fault} (h : s.runState = .running ∧ stuckBy s = some r) :
    simulate 1 s = .fault r := by
  obtain ⟨hr, h⟩ := h
  unfold stuckBy at h
  split at h <;> simp_all [simulate]

/-- One statement, `addi x0, x0, 0`, on line 7, ready to run. -/
abbrev nop : State := start 0x00000013 []

/-- A state under another configuration. -/
abbrev under (c : Config) (s : State) : State := { s with config := c }

/-- `SMC_MODE = on`. -/
abbrev smcOn : Config := { configDefault with smcMode := .on }

/-- No word access of any kind at `10010000..10010003` is admitted, and no fetch at `00400000`. -/
abbrev narrow : Config := { configDefault with
  refused := [⟨.load, .word, 0x10010000, 0x10010003⟩, ⟨.store, .word, 0x10010000, 0x10010003⟩,
    ⟨.fetch, .word, 0x00400000, 0x00400000⟩] }

theorem witness_DecodeOfEncode : (Instr.jal 31 (-1048576)).wellFormed = true ∧ (Instr.bgeu 31 31 4094).wellFormed = true := by
  decide

theorem witness_EncodeOfDecode : decode 0xFFDFF06F = .ok (.jal 0 (-4)) ∧ decode 0x8330000F = .ok (.fence 3 3 8 0 0) :=
  ⟨rfl, rfl⟩

theorem witness_ResolveYieldsTheUniqueEntry :
    (resolve 0x00000013).isSome = true ∧ resolve 0 = none ∧
    (∃ a ∈ catalog, (0x00000013 : Word) &&& a.mask = a.pattern) := by decide +kernel

theorem witness_RegistryRefusesCollisions :
    (∃ a ∈ catalog, ∃ b ∈ catalog, a.wellFormed = true ∧ b.wellFormed = true ∧ a.collides b = false ∧ a.collides a = true) ∧
    (∃ e ∈ catalog, e.wellFormed = true ∧ (∀ o ∈ ([] : Catalog), e.collides o = false) ∧
      (register [] e).isOk = true) := by decide +kernel

theorem witness_TemplateDecidesTheMatch : ∃ e ∈ catalog, e.wellFormed = true ∧ e.template[0]? = some .zero ∧
    e.template[31]? = some .one := by decide +kernel

/-- One word for each kind of reserved sub-encoding. -/
theorem witness_ReservedSubEncodingsHaveNoTemplate :
    [0x02031293, 0x02035293, 0x40035293 ||| 0x02000000, 0x04031293].map (fun w : Word =>
      (fieldOpcode w, decide (fieldFunct7 w ≠ 0), decide (fieldFunct7 w ≠ 0b0100000))) =
      List.replicate 4 (0b0010011, true, true) ∧
    (fieldOpcode 0x047302B3 = 0b0110011 ∧ fieldFunct7 0x047302B3 = 2) ∧
    (fieldOpcode 0x407342B3 = 0b0110011 ∧ fieldFunct7 0x407342B3 = 0b0100000 ∧ fieldFunct3 0x407342B3 = 0b100) ∧
    (fieldOpcode 0x34004073 = 0b1110011 ∧ fieldFunct3 0x34004073 = 0b100) ∧
    fieldOpcode 0x30200073 = 0b1110011 ∧ fieldFunct3 0x30200073 = 0 := by decide

/-- With `SMC_MODE = off` and with it on, one instruction short of the step limit. -/
theorem witness_StepRunsTheDecodedInstruction :
    ∀ c ∈ [configDefault, smcOn, { configDefault with maxSteps := some 1 }],
      (under c nop).runState = .running ∧ (under c nop).stopReqs.headD .none = .none ∧
      (c.maxSteps = none ∨ c.maxSteps = some 1 ∧ nop.stepCount = 0) ∧ nop.pc.toNat % 4 = 0 ∧
      inText (under c nop) nop.pc = true ∧ admitted (under c nop) nop.pc .word .fetch = true ∧
      decodeTableWord 32 0x00000013 = some (.addi 0 0 0) ∧
      [nop.mem.byteAt nop.pc, nop.mem.byteAt (nop.pc + 1), nop.mem.byteAt (nop.pc + 2), nop.mem.byteAt (nop.pc + 3)] =
        [0x13, 0, 0, 0] := by decide

theorem witness_HaltedRunIsFinal : ({ nop with runState := .halted } : State).runState = .halted := by decide

/-- Each event of a boundary, the limit at `step_count` 0 and with the count past it. -/
theorem witness_BoundaryEventsComeInOrder :
    nop.runState = .running ∧ ({ nop with stopReqs := [.externalStop] } : State).stopReqs.headD .none = .externalStop ∧
    ({ nop with stopReqs := [.breakpoint] } : State).stopReqs.headD .none = .breakpoint ∧
    nop.stopReqs.headD .none = .none ∧ (under { configDefault with maxSteps := some 0 } nop).stepCount ≤ 0 ∧
    ({ nop with stepCount := 3, config := { configDefault with maxSteps := some 2 } } : State).config.maxSteps = some 2 ∧
    (after (under { configDefault with maxSteps := some 1 } nop)).isSome = true := by decide

/-- At the limit and one short of it; a run over its end, and one that is stuck. -/
theorem witness_StepLimitEndsTheRun :
    (∀ n ∈ [0, 1], nop.runState = .running ∧ (under { configDefault with maxSteps := some n } nop).config.maxSteps = some n ∧
      nop.stepCount ≤ n ∧ n - nop.stepCount < 2) ∧
    (∃ t, simulate 1 (under { configDefault with maxSteps := some 1 } nop) = .next t) ∧
    simulate 1 (under { narrow with maxSteps := some 1 } nop) = .fault (.accessNotAdmitted 0x00400000 .word .fetch) := by
  refine ⟨by decide, ?_, simulate_one_stuck (by decide)⟩
  obtain ⟨t, h, -⟩ := after_any (s := under { configDefault with maxSteps := some 1 } nop) (p := fun _ => true) (by decide)
  exact ⟨t, simulate_one (by decide) h⟩

/-- Each condition of the fetch: misaligned; just below and just past a text region of one statement; not admitted; no template. -/
theorem witness_FetchAndResolveFaultInOrder :
    nop.runState = .running ∧ nop.stopReqs.headD .none = .none ∧ nop.config.maxSteps = none ∧
    ((0x00400003 : Word).toNat % 4 ≠ 0) ∧
    ((0x003FFFFC : Word).toNat % 4 = 0 ∧ nop.config.smcMode = .off ∧ inText nop 0x003FFFFC = false) ∧
    ((0x00400004 : Word).toNat % 4 = 0 ∧ inText nop 0x00400004 = false) ∧
    (inText nop nop.pc = true ∧ admitted (under narrow nop) nop.pc .word .fetch = false) ∧
    ((start 0 []).mem.read 0x00400000 .word = 0 ∧ inText (start 0 []) 0x00400000 = true) ∧ resolve 0 = none :=
  ⟨by decide, by decide, by decide, by decide, by decide, by decide, by decide, by decide, by decide +kernel⟩

/-- A fault of the fetch, one of resolve and one of an instruction. -/
theorem witness_EveryFaultIsPrecise :
    ∀ s ∈ [{ nop with pc := 0x00400002 }, start 0 [], start 0x00100073 []],
      s.reason = none ∧ ∃ t, step s = .next t ∧ t.reason = some .exception := by
  intro s hs
  have h : ∀ s ∈ [{ nop with pc := 0x00400002 }, start 0 [], start 0x00100073 []],
      s.reason = none ∧ (after s).any (fun t => decide (t.reason = some .exception)) = true := by decide
  obtain ⟨hr, ha⟩ := h s hs
  obtain ⟨t, h1, h2⟩ := after_any ha
  exact ⟨hr, t, h1, of_decide_eq_true h2⟩

theorem witness_InvariantKeptByEveryStep : RunInv nop ∧ ∃ t, step nop = .next t := by
  refine ⟨⟨by decide, by decide, by decide, by decide, by decide, by decide, by decide, by decide, by decide, ?_⟩, ?_⟩
  · intro f h
    rw [show nop.fault = none by decide] at h
    cases h
  · obtain ⟨t, h, -⟩ := after_any (s := nop) (p := fun _ => true) (by decide)
    exact ⟨t, h⟩

/-- Inputs that run setup accepts: one statement, at `00400000` and in the last word of the address space, at every privilege level. -/
theorem witness_setup : ∀ p ∈ [oneWord 0x13, { oneWord 0x13 with privReset := 1 },
    { oneWord 0 with privReset := 3, textBase := 0xFFFFFFFC, startPc := 0xFFFFFFFC, program := [⟨0, 7⟩] }],
    setup p = .ok (boot p) := by
  intro p hp
  refine setup_boot ?_
  revert p
  decide

theorem witness_SetupEstablishesTheInvariant : ∃ p s, setup p = .ok s := ⟨_, _, witness_setup _ (List.mem_cons_self ..)⟩

/-- The preconditions, at the top of the address space, with a gated entry, a counter entry and an address below 4096. -/
theorem witness_SetupInstallsTheResetValues :
    let p : SetupInputs := { oneWord 0 with
      privReset := 3, textBase := 0xFFFFFFFC, startPc := 0xFFFFFFFC, program := [⟨0, 7⟩],
      csrMap := csrMapT ++ [⟨4095, "last", .RW, 1, 5, .none⟩] }
    (p.csrMap.Pairwise fun a b => a.addr ≠ b.addr) ∧
    (∀ e ∈ p.csrMap, e.addr < 4096 ∧ (e.update ≠ .none → e.access = .RO) ∧
      (e.minPriv = 0 ∨ e.minPriv = 1 ∨ e.minPriv = 3)) ∧
    p.privReset = 3 ∧ p.textBase.toNat % 4 = 0 ∧ p.textBase.toNat + 4 * p.program.length ≤ 2 ^ 32 ∧
    (p.program[0]? = some ⟨0, 7⟩ ∧ (Memory.ofImage p.memInit).read (p.textBase + BitVec.ofNat 32 (4 * 0)) .word = 0) ∧
    p.startPc.toNat % 4 = 0 ∧ (setup p).isOk = true := by decide

/-- A run before its first step, whose pc is at its statement, and the run after it. -/
theorem witness_TextIsImmutableWithSmcOff :
    setup (oneWord 0x13) = .ok nop ∧ (oneWord 0x13).config.smcMode = .off ∧ simulate 0 nop = .next nop ∧
    (oneWord 0x13).program[0]? = some ⟨0x13, 7⟩ ∧ nop.pc = (oneWord 0x13).textBase + BitVec.ofNat 32 (4 * 0) ∧
    (∃ w u, fetch nop = .word w u) ∧ ∃ t, simulate 1 nop = .next t := by
  refine ⟨witness_setup _ (List.mem_cons_self ..), rfl, rfl, rfl, rfl, ⟨_, _, rfl⟩, ?_⟩
  obtain ⟨t, h, -⟩ := after_any (s := nop) (p := fun _ => true) (by decide)
  exact ⟨t, simulate_one (by decide) h⟩

/-- Each size of store, to the last place in the address space it may have, and to the statement itself. -/
theorem witness_StoresAreFetchedWithSmcOn :
    let s := under smcOn (start 0x13 [(8, 0xFFFFFFFC)])
    (s.mem.wf ∧ s.config.smcMode = .on) ∧
    (readReg 8 s + (3 : BitVec 12).signExtend 32 = 0xFFFFFFFF ∧ admitted s 0xFFFFFFFF .byte .store = true) ∧
    (readReg 8 s + (2 : BitVec 12).signExtend 32 = 0xFFFFFFFE ∧ (0xFFFFFFFE : Word).toNat % 2 = 0 ∧
      admitted s 0xFFFFFFFE .half .store = true) ∧
    (readReg 8 s + (0 : BitVec 12).signExtend 32 = 0xFFFFFFFC ∧ (0xFFFFFFFC : Word).toNat % 4 = 0 ∧
      admitted s 0xFFFFFFFC .word .store = true) ∧
    (inText s 0x00400000 = true ∧ admitted s 0x00400000 .word .store = true) ∧
    admitted s 0xFFFFFFFC .word .fetch = true ∧ admitted s 0x00400000 .word .fetch = true :=
  ⟨by decide, by decide, by decide, by decide, by decide, by decide⟩

/-- Steps of every kind: one that retires, one that exits, one that faults, and each boundary halt. -/
theorem witness_steps :
    ∀ s ∈ [nop, start 0x00000073 [], start 0x00100073 [], { nop with stopReqs := [.breakpoint] },
        { nop with stopReqs := [.externalStop] }, under { configDefault with maxSteps := some 0 } nop],
      ∃ t, step s = .next t ∧ simulate 1 s = .next t := by
  intro s hs
  have h : ∀ s ∈ [nop, start 0x00000073 [], start 0x00100073 [], { nop with stopReqs := [.breakpoint] },
      { nop with stopReqs := [.externalStop] }, under { configDefault with maxSteps := some 0 } nop],
      s.runState = .running ∧ (after s).any (fun _ => true) = true := by decide
  obtain ⟨hr, ha⟩ := h s hs
  obtain ⟨t, h1, -⟩ := after_any ha
  exact ⟨t, h1, simulate_one hr h1⟩

theorem witness_PrivilegeLevelNeverChanges :
    (∃ t, step nop = .next t ∧ simulate 1 nop = .next t) ∧ setup (oneWord 0x13) = .ok nop :=
  ⟨witness_steps _ (List.mem_cons_self ..), witness_setup _ (List.mem_cons_self ..)⟩

theorem witness_ConfigurationIsFixed : ∃ s t, simulate 1 s = .next t :=
  have ⟨t, _, h⟩ := witness_steps _ (List.mem_cons_self ..)
  ⟨_, t, h⟩

theorem witness_CountersCountRetiredSteps : ∃ s t, step s = .next t :=
  have ⟨t, h, _⟩ := witness_steps _ (List.mem_cons_self ..)
  ⟨_, t, h⟩

/-- A step that issues nothing, one with a fetch alone, and one with a load or a store after it. -/
theorem witness_OneRequestPerAccess :
    [{ nop with stopReqs := [.breakpoint] }, nop, start 0x00042503 [(8, 0x10010000)], start 0x00A42023 [(8, 0x10010000)]].map
      (fun s => (after s).map fun t => t.memPort.length) = [some 0, some 1, some 2, some 2] := by decide

/-- An absent address at each end of the CSR space, and a run that ends by a fault. -/
theorem witness_UnavailableCsrIsNeverReported :
    (∀ a ∈ ([0x000, 0xFFF] : List CsrAddr), ∀ e ∈ nop.csrs, e.entry.addr ≠ a.toNat) ∧
    setup (oneWord 0xC01022F3) = .ok (start 0xC01022F3 []) ∧
    ∃ t, simulate 1 (start 0xC01022F3 []) = .next t ∧ (t.fault.map (·.detail)) = some .csrUnavailable := by
  refine ⟨by decide, setup_boot (by decide), ?_⟩
  obtain ⟨t, h, hf⟩ := after_any (s := start 0xC01022F3 [])
    (p := fun t => decide (t.fault.map (·.detail) = some .csrUnavailable)) (by decide)
  exact ⟨t, simulate_one (by decide) h, of_decide_eq_true hf⟩

/-- A run that goes on, one that exits and one that faults. -/
theorem witness_OutputsAreValidPerReason :
    (setup (oneWord 0x13) = .ok nop ∧ ∃ t, simulate 1 nop = .next t ∧ t.runState = .running) ∧
    (setup (oneWord 0x73) = .ok (start 0x73 []) ∧ ∃ t, simulate 1 (start 0x73 []) = .next t ∧ t.runState = .halted) ∧
    setup (oneWord 0x00100073) = .ok (start 0x00100073 []) ∧
      ∃ t, simulate 1 (start 0x00100073 []) = .next t ∧ t.runState = .halted := by
  have h : ∀ {s : State} {r : RunState}, s.runState = .running →
      (after s).any (fun t => decide (t.runState = r)) = true → ∃ t, simulate 1 s = .next t ∧ t.runState = r := by
    intro s r hr ha
    obtain ⟨t, h1, h2⟩ := after_any ha
    exact ⟨t, simulate_one hr h1, of_decide_eq_true h2⟩
  exact ⟨⟨setup_boot (by decide), h (by decide) (by decide)⟩, ⟨setup_boot (by decide), h (by decide) (by decide)⟩,
    setup_boot (by decide), h (by decide) (by decide)⟩

theorem witness_RegisterWriteThenRead : (31 : RegIdx) ≠ 0 ∧ (1 : RegIdx) ≠ 31 ∧ (0 : RegIdx) ≠ 31 := by decide

/-- A Memory in canonical form, and an address not among the four bytes of a word that runs over the top of the address space. -/
theorem witness_MemoryReadsWhatWasWritten :
    nop.mem.wf ∧ (∀ k, k < AccessSize.word.bytes → (2 : Word) ≠ 0xFFFFFFFE + BitVec.ofNat 32 k) ∧
      ∀ k, k < AccessSize.word.bytes → (0xFFFFFFFD : Word) ≠ 0xFFFFFFFE + BitVec.ofNat 32 k :=
  ⟨by decide, by decide, by decide⟩

/-- Two states that differ outside the sources of `add t0, t1, t2`. -/
theorem witness_IntegerResultsDependOnSourcesOnly :
    (Instr.add 5 6 7).integerOperands = some (5, [6, 7]) ∧
    ((writeReg 8 1 nop).pc = nop.pc ∧ ∀ r ∈ ([6, 7] : List RegIdx), readReg r (writeReg 8 1 nop) = readReg r nop) ∧
    readReg 8 (writeReg 8 1 nop) ≠ readReg 8 nop := by decide

/-- Each corner of division: a zero divisor with the fault and without it; the overflow and an ordinary pair, with and without it. -/
theorem witness_DivideResults :
    ((under { configDefault with arithFaultOnDivZero := true } nop).config.arithFaultOnDivZero = true ∧ readReg 6 nop = 0) ∧
    ¬ (nop.config.arithFaultOnDivZero = true ∧ readReg 6 nop = 0) ∧
    (∀ c ∈ [true, false], readReg 6 (under { configDefault with arithFaultOnDivZero := c }
      (start 0x13 [(5, 0x80000000), (6, 0xFFFFFFFF)])) = 0xFFFFFFFF) ∧
    (readReg 5 (start 0x13 [(5, 0x80000000), (6, 0xFFFFFFFF)]) = 0x80000000) ∧
    ∀ c ∈ [true, false], readReg 6 (under { configDefault with arithFaultOnDivZero := c }
      (start 0x13 [(5, 7), (6, 0xFFFFFFFF)])) ≠ 0 :=
  ⟨by decide, by decide, by decide, by decide, by decide⟩

theorem witness_QuotientAndRemainderAgree :
    (5 : RegIdx) ≠ 0 ∧ nop.config.arithFaultOnDivZero = false ∧ readReg 6 nop = 0 ∧
    readReg 6 (writeReg 6 0xFFFFFFFF nop) ≠ 0 := by decide

theorem witness_ArithmeticFaultOnlyOnZeroDivisor :
    let s := under { configDefault with arithFaultOnDivZero := true } nop
    s.config.arithFaultOnDivZero = true ∧ readReg 6 s = 0 ∧ s.fault = none ∧
    ∃ t, exec (.div 0 5 6) s = .next t ∧ ∃ f, t.fault = some f ∧ f.kind = .arithmeticFault := by
  refine ⟨by decide, by decide, by decide, ?_⟩
  obtain ⟨t, h, hf⟩ := ran_any (i := .div 0 5 6) (s := under { configDefault with arithFaultOnDivZero := true } nop)
    (p := fun t => decide (t.fault.map (·.kind) = some .arithmeticFault)) (by decide)
  exact ⟨t, h, by simpa using of_decide_eq_true hf⟩

/-- An even offset, and each kind of target: the last word, and one two bytes off. -/
theorem witness_JumpResults :
    ((-1048576 : BitVec 21).getLsbD 0 = false ∧ (1048574 : BitVec 21).getLsbD 0 = false) ∧
    ([0, -4194308, 6].map fun o : Int => (BitVec.ofInt 32 (nop.pc.toInt + o)).toNat % 4) = [0, 0, 2] ∧
    ([(4, 0), (0xFFFFFFFD, 0), (2, 0)].map fun p : Word × BitVec 12 =>
      (BitVec.ofNat 32 ((readReg 5 (writeReg 5 p.1 nop) + p.2.signExtend 32).toNat / 2 * 2)).toNat % 4) = [0, 0, 2] := by
  decide

/-- Operands on which each condition holds and fails, and targets of both kinds. -/
theorem witness_BranchResults :
    let s := writeReg 5 0xFFFFFFFF nop
    let a := readReg 5 s
    let b := readReg 6 s
    [decide (a = b), decide (a ≠ b), decide (a.toInt < b.toInt), decide (a.toInt ≥ b.toInt), decide (a.toNat < b.toNat),
      decide (a.toNat ≥ b.toNat)] = [false, true, true, false, false, true] ∧
    [decide (b = b), decide (b ≠ b), decide (b.toInt < a.toInt), decide (b.toInt ≥ a.toInt), decide (b.toNat < a.toNat),
      decide (b.toNat ≥ a.toNat)] = [true, false, false, true, true, false] ∧
    ([-4096, 4094].map fun o : BitVec 13 =>
      (o.getLsbD 0, (BitVec.ofInt 32 (s.pc.toInt + o.toInt)).toNat % 4)) = [(false, 0), (false, 2)] := by decide

/-- Each size at an aligned and at a misaligned address, admitted and not. -/
theorem witness_LoadResults :
    (readReg 8 (start 0x13 [(8, 0x10010000)]) + (0 : BitVec 12).signExtend 32 = 0x10010000 ∧
      readReg 8 (start 0x13 [(8, 0x10010000)]) + (-1 : BitVec 12).signExtend 32 = 0x1000FFFF) ∧
    (∀ n ∈ [AccessSize.byte, .half, .word], (0x10010000 : Word).toNat % n.bytes = 0 ∧
      admitted nop 0x10010000 n .load = true) ∧
    (∀ n ∈ [AccessSize.half, .word], (0x1000FFFF : Word).toNat % n.bytes ≠ 0) ∧
    admitted (under narrow nop) 0x10010000 .word .load = false := by decide

/-- Each clause of a store, at the last byte of the text region and at the first past it. -/
theorem witness_StoreResults :
    nop.mem.wf ∧
    (∀ n ∈ [AccessSize.half, .word], (0x00400003 : Word).toNat % n.bytes ≠ 0) ∧
    (∀ p ∈ [((0x00400003 : Word), AccessSize.byte), (0x00400002, .half), (0x00400000, .word)], p.1.toNat % p.2.bytes = 0 ∧
      nop.config.smcMode = .off ∧ nop.textBase.toNat ≤ p.1.toNat ∧
      p.1.toNat < nop.textBase.toNat + 4 * nop.program.length) ∧
    nop.config.storePolicy = .reject ∧ (under { configDefault with storePolicy := .ignore } nop).config.storePolicy = .ignore ∧
    (∀ n ∈ [AccessSize.byte, .half, .word], (0x00400004 : Word).toNat % n.bytes = 0 ∧
      ¬ (0x00400004 : Word).toNat < nop.textBase.toNat + 4 * nop.program.length ∧
      admitted nop 0x00400004 n .store = true) ∧
    admitted (under narrow nop) 0x10010000 .word .store = false :=
  ⟨by decide, by decide, by decide, by decide, by decide, by decide, by decide⟩

theorem witness_EcallExitsUnderEnvMin : nop.env = .envMin := by decide

theorem witness_EcallFollowsTheRecordedAnswer :
    nop.mem.wf ∧ TextPlaced nop ∧
    ({ nop with env := .platform [.exit 5] } : State).env = .platform (.exit 5 :: []) ∧
    ({ nop with env := .platform [.cont [.reg 5 1, .byte 0x00400000 9, .word 0x04004000 2]] } : State).env =
      .platform (.cont [.reg 5 1, .byte 0x00400000 9, .word 0x04004000 2] :: []) := by decide

/-- `ENV_MIN`, a recorded answer of each form, and the recorded answers used up, where the opaque environment is asked. -/
theorem witness_EcallCompletesUnderAnyEnvironment :
    (nop.mem.wf ∧ TextPlaced nop ∧ nop.env = .envMin) ∧
    (∀ answer ∈ [EnvResult.exit 5, .cont [.reg 5 1, .word 0x04004000 2]],
      ({ nop with env := .platform [answer] } : State).env = .platform (answer :: [])) ∧
    ({ nop with env := .platform [] } : State).mem.wf ∧ TextPlaced { nop with env := .platform [] } ∧
    ({ nop with env := .platform [] } : State).env = .platform [] := by decide

/-- The entry `csr10` of `CSR_MAP_T`, readable and writable at every level, and `mscratch` at the machine level. -/
theorem witness_CsrWritesExchange :
    (∃ e, CsrEntryAt 0x00A nop e ∧ ¬ Gated e nop ∧ e.entry.access = .RW) ∧
    ∃ e, CsrEntryAt 0x340 { nop with priv := 3 } e ∧ ¬ Gated e { nop with priv := 3 } ∧ e.entry.access = .RW :=
  ⟨⟨⟨⟨0x00A, "csr10", .RW, 0, 7, .none⟩, 7⟩, ⟨by decide, by decide, by decide⟩, by decide, rfl⟩,
    ⟨⟨0x340, "mscratch", .RW, 3, 0, .none⟩, 0⟩, ⟨by decide, by decide, by decide⟩, by decide, rfl⟩

/-- A writable entry with sources not 0, and a pure read of a read-only counter. -/
theorem witness_CsrSetAndClearBits :
    ((31 : RegIdx) ≠ 0 ∧ (1 : BitVec 5) ≠ 0) ∧ (∃ e, CsrEntryAt 0x00A nop e ∧ ¬ Gated e nop ∧ e.entry.access = .RW) ∧
    ∃ e, CsrEntryAt 0xC82 nop e ∧ ¬ Gated e nop ∧ e.entry.access = .RO :=
  ⟨by decide, ⟨⟨⟨0x00A, "csr10", .RW, 0, 7, .none⟩, 7⟩, ⟨by decide, by decide, by decide⟩, by decide, rfl⟩,
    ⟨⟨0xC82, "instreth", .RO, 0, 0, .stepsHi⟩, 0⟩, ⟨by decide, by decide, by decide⟩, by decide, rfl⟩

/-- An absent address, an entry behind the gate at level 1, a read-only entry before it, and a writable one. -/
theorem witness_CsrGatesFaultInOrder :
    (∀ e ∈ nop.csrs, e.entry.addr ≠ (0xFFF : CsrAddr).toNat) ∧
    (∃ e, CsrEntryAt 0x340 { nop with priv := 1 } e ∧ Gated e { nop with priv := 1 }) ∧
    (∃ e, CsrEntryAt 0xC00 nop e ∧ ¬ Gated e nop ∧ e.entry.access = .RO) ∧
    (∃ e, CsrEntryAt 0x00A nop e ∧ ¬ Gated e nop ∧ e.entry.access = .RW) ∧ decide ((1 : RegIdx) ≠ 0) = true :=
  ⟨by decide, ⟨⟨⟨0x340, "mscratch", .RW, 3, 0, .none⟩, 0⟩, ⟨by decide, by decide, by decide⟩, by decide⟩,
    ⟨⟨⟨0xC00, "cycle", .RO, 0, 0, .stepsLo⟩, 0⟩, ⟨by decide, by decide, by decide⟩, by decide, rfl⟩,
    ⟨⟨⟨0x00A, "csr10", .RW, 0, 7, .none⟩, 7⟩, ⟨by decide, by decide, by decide⟩, by decide, rfl⟩, by decide⟩

/-- `instret` with the low half of the counter about to wrap. -/
theorem witness_ConsecutiveCounterReadsDifferByOne :
    let s := { nop with steps64 := 0xFFFFFFFF, stepCount := 0xFFFFFFFF }
    ∃ e, CsrEntryAt 0xC02 s e ∧ ¬ Gated e s ∧ e.entry.update = .stepsLo ∧ s.steps64 = BitVec.ofNat 64 s.stepCount ∧
      (12 : RegIdx) ≠ 0 ∧ (13 : RegIdx) ≠ 0 :=
  ⟨⟨⟨0xC02, "instret", .RO, 0, 0, .stepsLo⟩, 0⟩, ⟨by decide, by decide, by decide⟩, by decide, rfl, by decide, by decide,
    by decide⟩

theorem witness_CsrSpaceIsSeparateFromMemory :
    (∃ t, exec (.sw 10 8 0) nop = .next t ∧ (Instr.sw 10 8 0).accessesCsr = false) ∧
    ∃ t, exec (.csrrwi 0 0x00A 5) nop = .next t ∧ (Instr.csrrwi 0 0x00A 5).accessesCsr = true := by
  obtain ⟨t, h, -⟩ := ran_any (i := .sw 10 8 0) (s := nop) (p := fun _ => true) (by decide)
  obtain ⟨u, k, -⟩ := ran_any (i := .csrrwi 0 0x00A 5) (s := nop) (p := fun _ => true) (by decide)
  exact ⟨⟨t, h, rfl⟩, u, k, rfl⟩

/-- A run that writes a CSR, a read-only entry and an entry behind the gate. -/
theorem witness_ProtectedCsrsNeverChange :
    let s := start 0x00A312F3 []
    csrMapWellFormed (s.csrs.map (·.entry)) = true ∧ (∃ t, simulate 1 s = .next t) ∧
    (∃ e, s.csrs[0]? = some e ∧ e.entry.access = .RO) ∧ ∃ e, s.csrs[4]? = some e ∧ Gated e s := by
  refine ⟨by decide, ?_, ⟨⟨⟨0xC00, "cycle", .RO, 0, 0, .stepsLo⟩, 0⟩, by decide, rfl⟩,
    ⟨⟨0x340, "mscratch", .RW, 3, 0, .none⟩, 0⟩, by decide, by decide⟩
  obtain ⟨t, h, -⟩ := after_any (s := start 0x00A312F3 []) (p := fun _ => true) (by decide)
  exact ⟨t, simulate_one (by decide) h⟩

/-- A run that tries to read the entry behind the gate, and one that is stuck; the other values are indeed others. -/
theorem witness_GatedCsrsAreNotObservable :
    csrMapWellFormed (nop.csrs.map (·.entry)) = true ∧ (∃ t, simulate 1 (start 0x340022F3 []) = .next t) ∧
    simulate 1 (under narrow nop) = .fault (.accessNotAdmitted 0x00400000 .word .fetch) ∧
    withGatedValues (fun _ => 9) nop ≠ nop := by
  refine ⟨by decide, ?_, simulate_one_stuck (by decide), by decide⟩
  obtain ⟨t, h, -⟩ := after_any (s := start 0x340022F3 []) (p := fun _ => true) (by decide)
  exact ⟨t, simulate_one (by decide) h⟩

theorem witness_EveryInstructionRuns : nop.config.refused = [] ∧ nop.runState = .running := by decide

end Sys2Proof.Tests
end

section
/-!
PROOFS. What a step that answers a next state has done (`step_next`), and how a property that every step keeps is kept by a run
(`simulate_keeps`). The proofs about every step or every run cite these.
-/

namespace Sys2Proof.Machine

/-! ## The inversion of a step that goes on -/

/-- The state as the boundary and the fetch hand it on: one sample taken, and these requests on the Memory port. -/
def sampled (port : List MemRequest) (s : State) : State :=
  { s with stopReqs := s.stopReqs.tail, memPort := port }

theorem fetchState_eq_sampled (s : State) : fetchState s = sampled (.read .fetch s.pc .word :: s.memPort) s := rfl

/-- Every next state of an instruction: a fault taken, a retired instruction, or the exit of an ECALL. -/
inductive ExecNext (i : Instr) (s : State) : State → Prop
  | raises (d : Detail) (v : Option Word) : ExecNext i s (raise (some (encode i)) d v s)
  | retires {p : Word} {s' : State} (hp : s.pc.toNat % 4 = 0 → p.toNat % 4 = 0) (h : Works s s') :
      ExecNext i s (retire p s')
  | exits (code : Word) {s' : State} (h : Works s s') : ExecNext i s (exitRun code s')

theorem exec_next {i : Instr} {s t : State} (h : exec i s = .next t) : ExecNext i s t := by
  have he := exec_effect i s
  generalize hr : exec i s = r at he
  rw [h] at hr
  cases he with
  | raises d v => cases hr; exact .raises d v
  | stuck => cases hr
  | retires hp hw => cases hr; exact .retires hp hw
  | exits code hw => cases hr; exact .exits code hw

/-- Every next state of a step: a boundary halt, a fault taken, a retired instruction, or the exit of an ECALL. -/
inductive StepNext (s : State) : State → Prop
  | halts (port : List MemRequest) {r : Reason} (hr : r = .externalStop ∨ r = .breakpoint ∨ r = .stepLimit) :
      StepNext s (halt r (sampled port s))
  | raises (port : List MemRequest) (w : Option Word) (d : Detail) (v : Option Word) :
      StepNext s (raise w d v (sampled port s))
  | retires (port : List MemRequest) {p : Word} {s' : State} (hp : s.pc.toNat % 4 = 0 → p.toNat % 4 = 0)
      (h : Works (sampled port s) s') : StepNext s (retire p s')
  | exits (port : List MemRequest) (code : Word) {s' : State} (h : Works (sampled port s) s') :
      StepNext s (exitRun code s')

theorem stepNext_of_execNext {i : Instr} {s t : State} (h : ExecNext i (fetchState s) t) : StepNext s t := by
  rw [fetchState_eq_sampled] at h
  cases h with
  | raises d v => exact .raises _ _ d v
  | retires hp hw => exact .retires _ hp hw
  | exits code hw => exact .exits _ code hw

/-- Only a running block steps, and it ends in one of four ways. -/
theorem step_next {s t : State} (h : step s = .next t) : s.runState = .running ∧ StepNext s t := by
  have hc := step_cases s
  generalize hr : step s = r at hc
  rw [h] at hr
  cases hc with
  | undefined => cases hr
  | request hrun hreason =>
    cases hr
    refine ⟨hrun, .halts s.memPort ?_⟩
    obtain ⟨-, h⟩ | ⟨-, h⟩ | ⟨-, -, h⟩ := hreason
    · exact .inl h
    · exact .inr (.inl h)
    · exact .inr (.inr h)
  | fetchRaises hrun => cases hr; exact ⟨hrun, .raises s.memPort ..⟩
  | fetchStuck => cases hr
  | noTemplate hrun => cases hr; exact ⟨hrun, .raises (.read .fetch s.pc .word :: s.memPort) ..⟩
  | runs hrun => exact ⟨hrun, stepNext_of_execNext (exec_next hr.symm)⟩

/-! ## Runs -/

/-- What every step keeps, every run keeps. -/
theorem simulate_keeps {P : State → Prop} (hstep : ∀ {s t}, P s → step s = .next t → P t) {k : Nat} {s t : State} (hs : P s)
    (h : simulate k s = .next t) : P t := by
  induction k generalizing s with
  | zero => cases h; exact hs
  | succ k ih =>
    unfold simulate at h
    split at h
    · cases h; exact hs
    · split at h
      next u hu => exact ih (hstep hs hu) h
      next => cases h
      next => cases h

end Sys2Proof.Machine
end

section
/-!
PROOFS. What run setup checks (`setup_ok_iff`) and what it installs (10_state.md R34, R50; 70_reset_and_hazards.md R310, R313).
-/

namespace Sys2Proof.Machine

/-! ## The preconditions, one by one -/

theorem privLegal_iff (p : BitVec 2) : privLegal p = true ↔ p = 0 ∨ p = 1 ∨ p = 3 := by
  decide +revert

theorem csrMapWellFormed_iff (map : List CsrEntry) :
    csrMapWellFormed map = true ↔ (map.Pairwise fun a b => a.addr ≠ b.addr) ∧
      ∀ e ∈ map, e.addr < 4096 ∧ (e.update ≠ .none → e.access = .RO) ∧
        (e.minPriv = 0 ∨ e.minPriv = 1 ∨ e.minPriv = 3) := by
  simp only [csrMapWellFormed, Bool.and_eq_true, decide_eq_true_eq, List.all_eq_true, Bool.or_eq_true, beq_iff_eq,
    privLegal_iff, and_assoc, ← or_iff_not_imp_left, ne_eq]

theorem imageHolds_iff (mem : Memory) (textBase : Word) (program : List Statement) :
    imageHolds mem textBase program = true ↔
      ∀ k st, program[k]? = some st → mem.read (statementAddress textBase k) .word = st.word := by
  simp only [imageHolds, List.all_eq_true, List.mem_range, beq_iff_eq]
  constructor
  · intro h k st hk
    have := h k (List.getElem?_eq_some_iff.mp hk).1
    rw [hk] at this
    exact (Option.some.inj this).symm
  · intro h k hk
    have hst := List.getElem?_eq_getElem hk
    rw [hst, h k _ hst]
    rfl

/-- A check that refuses is passed by what goes on. -/
theorem check_eq_ok_iff {c : Prop} [Decidable c] {e : SetupRefusal} {rest : Except SetupRefusal State} {s : State} :
    (if c then .error e else rest) = .ok s ↔ ¬ c ∧ rest = .ok s := by
  split
  · next hc => simp [hc]
  · next hc => simp [hc]

/-- Run setup answers a state exactly when every check passes, and then it answers `setupState` (R310, R313). -/
theorem setup_ok_iff (p : SetupInputs) (s : State) :
    setup p = .ok s ↔ csrMapWellFormed p.csrMap = true ∧ privLegal p.privReset = true ∧ p.textBase.toNat % 4 = 0 ∧
      p.textBase.toNat + 4 * p.program.length ≤ 2 ^ 32 ∧
      imageHolds (Memory.ofImage p.memInit) p.textBase p.program = true ∧ p.startPc.toNat % 4 = 0 ∧ setupState p = s := by
  simp only [setup, check_eq_ok_iff, Bool.not_eq_true', Bool.not_eq_false, bne_iff_ne, ne_eq, not_not, decide_eq_true_eq,
    Nat.not_lt, Except.ok.injEq]

/-! ## The registry builds the default catalog -/

theorem register_ok {c : Catalog} {e : CatalogEntry} (hwf : e.wellFormed = true) (hc : ∀ o ∈ c, e.collides o = false) :
    register c e = .ok (c ++ [e]) := by
  have hf : c.find? e.collides = none := List.find?_eq_none.mpr fun o ho => by simp [hc o ho]
  simp [register, hwf, hf]

/-- Well-formed entries that collide neither with the registered ones nor with each other are all registered. -/
theorem foldlM_register_ok {rows : Catalog} : ∀ {c : Catalog}, (∀ e ∈ rows, e.wellFormed = true) →
    (∀ e ∈ rows, ∀ o ∈ c, e.collides o = false) → (rows.Pairwise fun a b => b.collides a = false) →
    rows.foldlM register c = .ok (c ++ rows) := by
  induction rows with
  | nil => intro c _ _ _; rw [List.append_nil]; rfl
  | cons e rows ih =>
    intro c hwf hc hp
    obtain ⟨hwe, hwf⟩ := List.forall_mem_cons.mp hwf
    obtain ⟨hce, hc⟩ := List.forall_mem_cons.mp hc
    obtain ⟨hpe, hp⟩ := List.pairwise_cons.mp hp
    have hc' : ∀ d ∈ rows, ∀ o ∈ c ++ [e], d.collides o = false := by
      intro d hd o ho
      rcases List.mem_append.mp ho with ho | ho
      · exact hc d hd o ho
      · rw [List.mem_singleton.mp ho]; exact hpe d hd
    rw [List.foldlM_cons, register_ok hwe hce]
    exact (ih hwf hc' hp).trans (by rw [List.append_assoc]; rfl)

theorem buildRegistry_ok {rows : Catalog} (hwf : ∀ e ∈ rows, e.wellFormed = true)
    (hp : rows.Pairwise fun a b => b.collides a = false) : buildRegistry rows = .ok rows :=
  foldlM_register_ok hwf (fun _ _ _ ho => absurd ho List.not_mem_nil) hp

theorem catalog_wellFormed : ∀ e ∈ catalog, e.wellFormed = true := by decide +kernel

theorem catalog_pairwise_not_collides : catalog.Pairwise fun a b => b.collides a = false := by decide +kernel

theorem buildRegistry_catalog : buildRegistry catalog = .ok catalog :=
  buildRegistry_ok catalog_wellFormed catalog_pairwise_not_collides

/-! ## The installed state -/

theorem readReg_setupState (p : SetupInputs) (r : RegIdx) : readReg r (setupState p) = 0#32 := by
  simp [readReg, setupState]

theorem csrFileOf_entries (map : List CsrEntry) : (csrFileOf map).map (·.entry) = map := by
  simp [csrFileOf, Function.comp_def]

theorem csrFileOf_values (map : List CsrEntry) :
    (csrFileOf map).map (fun e => (e.entry, e.value)) = map.map fun e => (e, e.reset) := by
  simp [csrFileOf]

theorem setup_setupDefault : setup setupDefault = .ok State.reset := rfl

end Sys2Proof.Machine
end

section
/-!
PROOFS. The invariant of a run, `RunInv`: run setup establishes it, and each part of a step keeps it (10_state.md R22, R28, R30, R34,
R39; 20_memory.md R71; 60_exceptions.md R290).
-/

namespace Sys2Proof.Machine

/-! ## The text image -/

/-- Every byte of a statement lies in the text region (R70). -/
theorem inText_statement {s : State} (hp : TextPlaced s) {k j : Nat} (hk : k < s.program.length) (hj : j < 4) :
    inText s (statementAddress s.textBase k + BitVec.ofNat 32 j) = true := by
  obtain ⟨-, hb⟩ := hp
  simp only [inText, statementAddress, BitVec.toNat_add, BitVec.toNat_ofNat, Bool.and_eq_true, decide_eq_true_eq]
  omega

theorem Memory.read_word_congr {m m' : Memory} {a : Word}
    (h : ∀ j, j < 4 → m'.byteAt (a + BitVec.ofNat 32 j) = m.byteAt (a + BitVec.ofNat 32 j)) :
    m'.read a .word = m.read a .word := by
  have h0 : m'.byteAt a = m.byteAt a := by simpa using h 0 (by decide)
  have h1 : m'.byteAt (a + 1) = m.byteAt (a + 1) := h 1 (by decide)
  have h2 : m'.byteAt (a + 2) = m.byteAt (a + 2) := h 2 (by decide)
  have h3 : m'.byteAt (a + 3) = m.byteAt (a + 3) := h 3 (by decide)
  simp only [Memory.read, h0, h1, h2, h3]

/-- The effects of an instruction keep the image of the program (R74, R75). -/
theorem Works.image {s s' : State} (h : Works s s') (hm : s.mem.wf) (hp : TextPlaced s) (hi : ImageKept s) :
    ImageKept s' := by
  intro hoff
  rw [h.config] at hoff
  rw [h.textBase, h.program, imageHolds_iff]
  intro k st hk
  rw [← (imageHolds_iff ..).mp (hi hoff) k st hk]
  exact Memory.read_word_congr fun j hj =>
    h.text hoff hm hp _ (inText_statement hp (List.getElem?_eq_some_iff.mp hk).1 hj)

/-! ## The outputs -/

/-- While a run goes on, none of its outputs is there (R50, R290). -/
theorem OutputsValid.of_running {s : State} (h : OutputsValid s) (hr : s.runState = .running) :
    s.reason = none ∧ s.exitCode = none ∧ s.fault = none := by
  obtain ⟨hrun, -, hexit, hfault⟩ := h
  have hn := hrun hr
  simp only [hn, reduceCtorEq, iff_false, ne_eq, not_not] at hexit hfault
  exact ⟨hn, hexit, hfault⟩

/-! ## What keeps the invariant -/

section
variable {s : State}

theorem RunInv.sampled (h : RunInv s) (port : List MemRequest) : RunInv (sampled port s) :=
  ⟨h.mem, h.zero, h.pc, h.priv, h.csrs, h.counters, h.text, h.image, h.outputs, h.faults⟩

theorem RunInv.works (h : RunInv s) {s' : State} (hw : Works s s') : RunInv s' where
  mem := hw.wf h.mem
  zero := hw.slot.trans h.zero
  pc := by rw [hw.pc]; exact h.pc
  priv := by rw [hw.priv]; exact h.priv
  csrs := by rw [hw.entries]; exact h.csrs
  counters := by rw [hw.steps64, hw.stepCount]; exact h.counters
  text := by rw [TextPlaced, hw.textBase, hw.program]; exact h.text
  image := hw.image h.mem h.text h.image
  outputs := by rw [OutputsValid, hw.runState, hw.reason, hw.exitCode, hw.fault]; exact h.outputs
  faults := by rw [FaultPrecise, hw.fault, hw.pc]; exact h.faults

theorem RunInv.halt (h : RunInv s) (hr : s.runState = .running) {r : Reason}
    (hreason : r = .externalStop ∨ r = .breakpoint ∨ r = .stepLimit) : RunInv (halt r s) := by
  obtain ⟨-, hexit, hfault⟩ := h.outputs.of_running hr
  refine { h with outputs := ?_ }
  obtain rfl | rfl | rfl := hreason <;> simp [OutputsValid, hexit, hfault]

theorem RunInv.raise (h : RunInv s) (hr : s.runState = .running) (w : Option Word) (d : Detail) (v : Option Word) :
    RunInv (raise w d v s) := by
  obtain ⟨-, hexit, -⟩ := h.outputs.of_running hr
  refine { h with outputs := ?_, faults := ?_ }
  · simp [OutputsValid, hexit]
  · intro f hf
    cases hf
    exact ⟨rfl, rfl⟩

theorem RunInv.counters_succ (h : RunInv s) : s.steps64 + 1 = BitVec.ofNat 64 (s.stepCount + 1) := by
  rw [h.counters, BitVec.ofNat_add]
  rfl

theorem RunInv.retire (h : RunInv s) (hr : s.runState = .running) {p : Word} (hp : p.toNat % 4 = 0) :
    RunInv (retire p s) := by
  obtain ⟨-, -, hfault⟩ := h.outputs.of_running hr
  exact { h with
    pc := hp
    counters := h.counters_succ
    faults := by simp [FaultPrecise, hfault] }

theorem RunInv.exitRun (h : RunInv s) (hr : s.runState = .running) (code : Word) : RunInv (exitRun code s) := by
  obtain ⟨-, -, hfault⟩ := h.outputs.of_running hr
  exact { h with
    pc := aligned_add_four h.pc
    counters := h.counters_succ
    outputs := by simp [OutputsValid, hfault]
    faults := by simp [FaultPrecise, hfault] }

theorem RunInv.step (h : RunInv s) {t : State} (hs : step s = .next t) : RunInv t := by
  obtain ⟨hr, hn⟩ := step_next hs
  cases hn with
  | halts port hreason => exact (h.sampled port).halt hr hreason
  | raises port w d v => exact (h.sampled port).raise hr w d v
  | retires port hp hw => exact ((h.sampled port).works hw).retire (hw.runState.trans hr) (hp h.pc)
  | exits port code hw => exact ((h.sampled port).works hw).exitRun (hw.runState.trans hr) code

end

/-- Run setup establishes the invariant. -/
theorem runInv_of_setup {p : SetupInputs} {s : State} (h : setup p = .ok s) : RunInv s := by
  obtain ⟨hcsrs, hpriv, hbase, hbound, himage, hpc, rfl⟩ := (setup_ok_iff p s).mp h
  exact {
    mem := Memory.wf_ofImage p.memInit
    zero := by simp [setupState]
    pc := hpc
    priv := hpriv
    csrs := by rw [setupState, csrFileOf_entries]; exact hcsrs
    counters := rfl
    text := ⟨hbase, hbound⟩
    image := fun _ => himage
    outputs := by simp [OutputsValid, setupState]
    faults := by simp [FaultPrecise, setupState] }

end Sys2Proof.Machine
end

section
/-!
PROOFS. What a step leaves unchanged: privilege, configuration and the static attributes of the CSR entries (10_state.md R20, R31),
the CSR values by every instruction but six, and Memory and its port by those six (R36).
-/

namespace Sys2Proof.Machine

/-! ## The fixed fields -/

theorem SameFixed.refl (s : State) : SameFixed s s := ⟨rfl, rfl, rfl, rfl⟩

theorem SameFixed.trans {s t u : State} (h : SameFixed s t) (k : SameFixed t u) : SameFixed s u :=
  ⟨k.priv.trans h.priv, k.config.trans h.config, k.program.trans h.program, k.textBase.trans h.textBase⟩

theorem Works.sameFixed {s s' : State} (h : Works s s') : SameFixed s s' := ⟨h.priv, h.config, h.program, h.textBase⟩

theorem sameFixed_sampled (port : List MemRequest) (s : State) : SameFixed s (sampled port s) := ⟨rfl, rfl, rfl, rfl⟩

/-- No step changes a fixed field (R20, R31). -/
theorem step_sameFixed {s t : State} (h : step s = .next t) : SameFixed s t := by
  obtain ⟨-, hn⟩ := step_next h
  cases hn with
  | halts => exact ⟨rfl, rfl, rfl, rfl⟩
  | raises => exact ⟨rfl, rfl, rfl, rfl⟩
  | retires port _ hw => exact ((sameFixed_sampled port s).trans hw.sameFixed).trans ⟨rfl, rfl, rfl, rfl⟩
  | exits port _ hw => exact ((sameFixed_sampled port s).trans hw.sameFixed).trans ⟨rfl, rfl, rfl, rfl⟩

/-- No step changes what is static in a CSR entry (R33). -/
theorem step_csrEntries {s t : State} (h : step s = .next t) : t.csrs.map (·.entry) = s.csrs.map (·.entry) := by
  obtain ⟨-, hn⟩ := step_next h
  cases hn with
  | halts => rfl
  | raises => rfl
  | retires _ _ hw => exact hw.entries
  | exits _ _ hw => exact hw.entries

theorem simulate_sameFixed {k : Nat} {s t : State} (h : simulate k s = .next t) : SameFixed s t :=
  simulate_keeps (P := SameFixed s) (fun hs hu => hs.trans (step_sameFixed hu)) (.refl s) h

theorem simulate_csrEntries {k : Nat} {s t : State} (h : simulate k s = .next t) :
    t.csrs.map (·.entry) = s.csrs.map (·.entry) :=
  simulate_keeps (P := fun u => u.csrs.map (·.entry) = s.csrs.map (·.entry))
    (fun hs hu => (step_csrEntries hu).trans hs) rfl h

/-! ## The CSR File and Memory (R36) -/

/-- An instruction's next state has the CSR File as before. -/
def KeepsCsrs (s : State) : Result State → Prop
  | .next t => t.csrs = s.csrs
  | .fault _ => True
  | .refused _ => True

section
variable {i : Instr} {s : State}

theorem keepsCsrs_next {t : State} (h : t.csrs = s.csrs) : KeepsCsrs s (.next t) := h

theorem keepsCsrs_divide (rd : RegIdx) (b v : Word) : KeepsCsrs s (divide i rd b v s) := by
  unfold divide
  split <;> exact keepsCsrs_next rfl

theorem keepsCsrs_transfer (t : Word) {s' : State} (h : s'.csrs = s.csrs) : KeepsCsrs s (transfer i t s s') := by
  unfold transfer
  split
  · exact keepsCsrs_next rfl
  · exact keepsCsrs_next h

theorem keepsCsrs_branch (c : Bool) (imm : BitVec 13) : KeepsCsrs s (branch i c imm s) := by
  cases c
  · exact keepsCsrs_next rfl
  · exact keepsCsrs_transfer _ rfl

theorem keepsCsrs_loadAt (n : AccessSize) (ext : BitVec n.bits → Word) (rd : RegIdx) (ea : Word) :
    KeepsCsrs s (loadAt i n ext rd ea s) := by
  unfold loadAt
  split
  · exact keepsCsrs_next rfl
  · split
    · exact keepsCsrs_next rfl
    · trivial

theorem keepsCsrs_storeAt (n : AccessSize) (v ea : Word) : KeepsCsrs s (storeAt i n v ea s) := by
  unfold storeAt
  split
  · exact keepsCsrs_next rfl
  · split
    · split <;> exact keepsCsrs_next rfl
    · split
      · exact keepsCsrs_next rfl
      · trivial

theorem keepsCsrs_ecall : KeepsCsrs s (execEcall s) := by
  obtain ⟨e, he⟩ := consultEnv_state s
  unfold execEcall
  split
  · rename_i code s' h
    rw [h] at he
    subst he
    exact keepsCsrs_next rfl
  · rename_i ws s' h
    rw [h] at he
    subst he
    exact keepsCsrs_next (envFrame_applyEnvWrites ws _).csrs

/-- An instruction that is none of the six keeps the CSR File. -/
theorem exec_keepsCsrs (hi : i.accessesCsr = false) : KeepsCsrs s (exec i s) := by
  cases i with
  | lui | auipc | addi | slti | sltiu | xori | ori | andi | slli | srli | srai | add | sub | sll | slt | sltu | xor | srl
  | sra | or | and | mul | mulh | mulhsu | mulhu => exact keepsCsrs_next rfl
  | div | divu | rem | remu => exact keepsCsrs_divide ..
  | jal | jalr => exact keepsCsrs_transfer _ rfl
  | beq | bne | blt | bge | bltu | bgeu => exact keepsCsrs_branch ..
  | lb | lh | lw | lbu | lhu => exact keepsCsrs_loadAt ..
  | sb | sh | sw => exact keepsCsrs_storeAt ..
  | csrrw | csrrs | csrrc | csrrwi | csrrsi | csrrci => cases hi
  | fence | fenceI | ebreak => exact keepsCsrs_next rfl
  | ecall => exact keepsCsrs_ecall

/-- A CSR access reaches neither Memory nor its port. -/
theorem csrAccess_memory {rd : RegIdx} {a : CsrAddr} {w : Bool} {new : Word → Word} {t : State}
    (h : csrAccess i rd a w new s = .next t) : t.mem = s.mem ∧ t.memPort = s.memPort := by
  cases hc : csrCheck a w s with
  | error d =>
    rw [csrAccess_error hc] at h
    cases h
    exact ⟨rfl, rfl⟩
  | ok e =>
    rw [csrAccess_ok hc] at h
    cases w <;> cases h <;> exact ⟨rfl, rfl⟩

/-- The six instructions, each one CSR access, reach neither Memory nor its port. -/
theorem exec_csr_memory {t : State} (hi : i.accessesCsr = true) (h : exec i s = .next t) :
    t.mem = s.mem ∧ t.memPort = s.memPort := by
  cases i with
  | csrrw rd csr rs1 => exact csrAccess_memory (w := true) (new := fun _ => readReg rs1 s) h
  | csrrs rd csr rs1 => exact csrAccess_memory (w := rs1 != 0#5) (new := fun old => old ||| readReg rs1 s) h
  | csrrc rd csr rs1 => exact csrAccess_memory (w := rs1 != 0#5) (new := fun old => old &&& ~~~readReg rs1 s) h
  | csrrwi rd csr uimm => exact csrAccess_memory (w := true) (new := fun _ => uimm5 uimm) h
  | csrrsi rd csr uimm => exact csrAccess_memory (w := uimm != 0#5) (new := fun old => old ||| uimm5 uimm) h
  | csrrci rd csr uimm => exact csrAccess_memory (w := uimm != 0#5) (new := fun old => old &&& ~~~uimm5 uimm) h
  | _ => cases hi

end

end Sys2Proof.Machine
end

section
/-!
PROOFS. The statements about the state (10_state.md), each settled from the lemmas above.
-/

namespace Sys2Proof.Machine

/-- Settles O15, by the four ways a step can end. -/
theorem invariantKeptByEveryStep : Obligations.InvariantKeptByEveryStep :=
  fun _ _ hs h => hs.step h

/-- Settles O18, by the inversion of the checks of run setup. -/
theorem setupInstallsTheResetValues : Obligations.SetupInstallsTheResetValues := by
  refine ⟨buildRegistry_catalog, fun p => ⟨?_, ?_⟩⟩
  · simp only [setup_ok_iff, exists_and_left, exists_eq', and_true, csrMapWellFormed_iff, privLegal_iff, imageHolds_iff,
      and_assoc, statementAddress]
  · intro s hs
    obtain ⟨-, -, -, -, -, -, rfl⟩ := (setup_ok_iff p s).mp hs
    exact ⟨readReg_setupState p, rfl, rfl, csrFileOf_values p.csrMap, rfl, rfl, rfl, rfl, rfl, rfl, rfl, rfl, rfl, rfl, rfl⟩

/-- Settles O22: `priv` is one of the fixed fields. -/
theorem privilegeLevelNeverChanges : Obligations.PrivilegeLevelNeverChanges := by
  refine ⟨fun s t h => (step_sameFixed h).priv, fun p s t k hs h => ?_⟩
  obtain ⟨-, -, -, -, -, -, rfl⟩ := (setup_ok_iff p s).mp hs
  exact (simulate_sameFixed h).priv

/-- Settles O23, from the frame of a step, by induction on the run. -/
theorem configurationIsFixed : Obligations.ConfigurationIsFixed := by
  intro s t k h
  obtain ⟨-, hconfig, hprogram, hbase⟩ := simulate_sameFixed h
  exact ⟨hconfig, hprogram, hbase, simulate_csrEntries h⟩

/-- Settles O24: the retiring cases are the retired instruction and the exit, the halting ones the boundary halt and the fault. -/
theorem countersCountRetiredSteps : Obligations.CountersCountRetiredSteps := by
  intro s t h
  obtain ⟨hr, hn⟩ := step_next h
  cases hn with
  | halts port hreason =>
    refine .inr ⟨rfl, rfl, rfl, rfl, rfl, .inr ?_⟩
    obtain rfl | rfl | rfl := hreason
    · exact .inr (.inr ⟨rfl, rfl⟩)
    · exact .inr (.inl ⟨rfl, rfl⟩)
    · exact .inl ⟨rfl, rfl⟩
  | raises port w d v => exact .inr ⟨rfl, rfl, rfl, rfl, rfl, .inl ⟨rfl, Option.some_ne_none _⟩⟩
  | retires port _ hw =>
    exact .inl ⟨congrArg (· + 1) hw.stepCount, congrArg (· + 1) hw.steps64,
      .inl ⟨hw.runState.trans hr, hw.reason, hw.exitCode⟩, hw.fault⟩
  | exits port code hw =>
    exact .inl ⟨congrArg (· + 1) hw.stepCount, congrArg (· + 1) hw.steps64,
      .inr ⟨rfl, rfl, Option.some_ne_none _, congrArg (· + 4) hw.pc⟩, hw.fault⟩

/-- Settles O54, by what each shared operation does to the CSR File, and what a CSR access does to Memory. -/
theorem csrSpaceIsSeparateFromMemory : Obligations.CsrSpaceIsSeparateFromMemory := by
  refine fun i s t h => ⟨fun hi => ?_, fun hi => exec_csr_memory hi h⟩
  have hk : KeepsCsrs s (exec i s) := exec_keepsCsrs hi
  rw [h] at hk
  exact hk

/-- Settles O16: the reset state is one that run setup yields. -/
theorem invariantHoldsAtReset : Obligations.InvariantHoldsAtReset :=
  runInv_of_setup setup_setupDefault

/-- Settles O19, by evaluating run setup on the default inputs. -/
theorem resetIsSetupWithTheDefaults : Obligations.ResetIsSetupWithTheDefaults :=
  ⟨setup_setupDefault, rfl, rfl, rfl⟩

/-- Settles O29, by the case split of `readReg_writeReg`. -/
theorem registerWriteThenRead : Obligations.RegisterWriteThenRead := by
  refine fun s q r v => ⟨fun hr => ?_, readReg_zero s, rfl, fun hq => ?_⟩
  · rw [readReg_writeReg, if_pos ⟨rfl, hr⟩]
  · rw [readReg_writeReg, if_neg fun h => hq h.1]

end Sys2Proof.Machine
end

section
/-!
PROOFS. The bytes of an access (20_memory.md R63 to R65): what each byte of a read is, what each byte is after a write, at every size.
-/

namespace Sys2Proof.Machine

/-! ## Values and their bytes -/

theorem bits_eq_eight_mul_bytes (n : AccessSize) : n.bits = 8 * n.bytes := by cases n <;> rfl

/-- Values of an access with the same bytes are equal. -/
theorem eq_of_bytes_eq {n : AccessSize} {v w : BitVec n.bits}
    (h : ∀ k, k < n.bytes → v.extractLsb' (8 * k) 8 = w.extractLsb' (8 * k) 8) : v = w := by
  refine BitVec.eq_of_getLsbD_eq fun i hi => ?_
  have hk : i / 8 < n.bytes := by rw [bits_eq_eight_mul_bytes] at hi; omega
  have hbit := congrArg (·.getLsbD (i % 8)) (h (i / 8) hk)
  have hj : i % 8 < 8 := Nat.mod_lt _ (by decide)
  simpa only [BitVec.getLsbD_extractLsb', hj, decide_true, Bool.true_and, Nat.div_add_mod] using hbit

/-- Narrowing a word to the width of an access keeps the bytes of the access. -/
theorem byte_setWidth (v : Word) {n : AccessSize} {k : Nat} (hk : k < n.bytes) :
    (v.setWidth n.bits).extractLsb' (8 * k) 8 = v.extractLsb' (8 * k) 8 := by
  refine BitVec.eq_of_getLsbD_eq fun i hi => ?_
  have hb : 8 * k + i < n.bits := by rw [bits_eq_eight_mul_bytes]; omega
  simp only [BitVec.getLsbD_extractLsb', BitVec.getLsbD_setWidth, hb, decide_true, Bool.true_and]

/-! ## Reads and writes, byte by byte -/

/-- The bytes above the lowest are those of the high part. -/
theorem byte_append_succ {w : Nat} (hi : BitVec w) (lo : Byte) (k : Nat) :
    (hi ++ lo).extractLsb' (8 * (k + 1)) 8 = hi.extractLsb' (8 * k) 8 := slice_up hi lo

/-- A read is little-endian in the bytes it covers (R63, R64). -/
theorem Memory.byte_read (m : Memory) (a : Word) {n : AccessSize} {k : Nat} (hk : k < n.bytes) :
    (m.read a n).extractLsb' (8 * k) 8 = m.byteAt (a + BitVec.ofNat 32 k) := by
  have h0 : a + BitVec.ofNat 32 0 = a := BitVec.add_zero a
  cases n with
  | byte =>
    obtain rfl : k = 0 := Nat.lt_one_iff.mp hk
    rw [h0]
    exact slice_all _
  | half =>
    match k, hk with
    | 0, _ => rw [h0]; exact slice_low _ _
    | 1, _ => exact (byte_append_succ _ _ 0).trans (slice_all _)
  | word =>
    match k, hk with
    | 0, _ => rw [h0]; exact slice_low _ _
    | 1, _ => exact (byte_append_succ _ _ 0).trans (slice_low _ _)
    | 2, _ => exact (byte_append_succ _ _ 1).trans ((byte_append_succ _ _ 0).trans (slice_low _ _))
    | 3, _ =>
      exact (byte_append_succ _ _ 2).trans ((byte_append_succ _ _ 1).trans ((byte_append_succ _ _ 0).trans (slice_all _)))

/-- A write sets the bytes it covers (R65). -/
theorem Memory.byteAt_write_inside {m : Memory} (hm : m.wf) (a : Word) {n : AccessSize} (v : BitVec n.bits) {k : Nat}
    (hk : k < n.bytes) : (m.write a n v).byteAt (a + BitVec.ofNat 32 k) = v.extractLsb' (8 * k) 8 := by
  cases n with
  | byte =>
    obtain rfl : k = 0 := Nat.lt_one_iff.mp hk
    simp [Memory.byteAt_write_byte hm]
  | half =>
    match k, hk with
    | 0, _ | 1, _ => simp [Memory.byteAt_write_half hm]
  | word =>
    match k, hk with
    | 0, _ | 1, _ | 2, _ | 3, _ => simp [Memory.byteAt_write_word hm]

theorem Memory.read_write {m : Memory} (hm : m.wf) (a : Word) (n : AccessSize) (v : BitVec n.bits) :
    (m.write a n v).read a n = v :=
  eq_of_bytes_eq fun k hk => by rw [Memory.byte_read _ a hk, Memory.byteAt_write_inside hm a v hk]

/-- Adding a small offset to an aligned address does not leave the address space. -/
theorem toNat_add_of_aligned {a : Word} {n : AccessSize} (ha : a.toNat % n.bytes = 0) {k : Nat} (hk : k < n.bytes) :
    (a + BitVec.ofNat 32 k).toNat = a.toNat + k := by
  have hlt := a.isLt
  rw [BitVec.toNat_add, BitVec.toNat_ofNat]
  cases n <;> simp only [AccessSize.bytes] at ha hk <;> omega

/-- The bytes after an aligned write, by the numbers of their addresses (R65). -/
theorem Memory.byteAt_write_aligned {m : Memory} (hm : m.wf) {a : Word} {n : AccessSize} (ha : a.toNat % n.bytes = 0)
    (v : BitVec n.bits) (b : Word) :
    (m.write a n v).byteAt b =
      if b.toNat - a.toNat < n.bytes ∧ a.toNat ≤ b.toNat then v.extractLsb' (8 * (b.toNat - a.toNat)) 8
      else m.byteAt b := by
  split
  · next h =>
    obtain ⟨hk, hle⟩ := h
    have hb : b = a + BitVec.ofNat 32 (b.toNat - a.toNat) :=
      BitVec.eq_of_toNat_eq (by rw [toNat_add_of_aligned ha hk]; omega)
    exact (congrArg (m.write a n v).byteAt hb).trans (Memory.byteAt_write_inside hm a v hk)
  · next h =>
    refine Memory.byteAt_write_outside hm a b n v fun k hk hb => h ?_
    rw [hb, toNat_add_of_aligned ha hk]
    omega

end Sys2Proof.Machine
end

section
/-!
PROOFS. What the boundary and the fetch of a step ask of the state (20_memory.md R66, R72; 40_dispatch.md R136, R145), and what the
fetch reads when the program or a store has put it there.
-/

namespace Sys2Proof.Machine

section
variable {s : State}

theorem misalignedTarget_eq_true {t : Word} : misalignedTarget t = true ↔ t.toNat % 4 ≠ 0 := by
  rw [ne_eq, ← misalignedTarget_eq_false, Bool.not_eq_false]

theorem stepLimitReached_eq_false (h : ∀ n, s.config.maxSteps = some n → s.stepCount < n) :
    stepLimitReached s = false := by
  unfold stepLimitReached
  split
  · rfl
  · next n hn => exact decide_eq_false (Nat.not_le.mpr (h n hn))

theorem decode_of_resolve_eq_none {w : Word} (h : resolve w = none) : decode w = .error (.noTemplate w) := by
  simp only [decode, h]

/-- A fetched word is the one in Memory at the pc (R72). -/
theorem word_of_fetch {w : Word} {u : State} (h : fetch s = .word w u) : w = s.mem.read s.pc .word := by
  unfold fetch at h
  split at h
  · cases h
  · split at h
    · cases h
    · split at h
      · cases h; rfl
      · cases h

/-- With no refused range `MEM_ADMIT` is true everywhere (R66). -/
theorem admitted_of_refused_eq_nil (h : s.config.refused = []) (a : Word) (n : AccessSize) (k : AccessKind) :
    admitted s a n k = true := by
  simp only [admitted, h, List.any_nil, Bool.not_false]

/-- The image invariant, statement by statement (R71). -/
theorem RunInv.read_statement (h : RunInv s) (hoff : s.config.smcMode = .off) {j : Nat} {st : Statement}
    (hj : s.program[j]? = some st) : s.mem.read (statementAddress s.textBase j) .word = st.word :=
  (imageHolds_iff ..).mp (h.image hoff) j st hj

/-- An aligned store with `SMC_MODE = on` is performed, and the next fetch of any aligned address sees its bytes (R73). -/
theorem storeAt_fetched {i : Instr} {n : AccessSize} {ea : Word} (v : Word) (hm : s.mem.wf) (hon : s.config.smcMode = .on)
    (hea : ea.toNat % n.bytes = 0) (hadm : admitted s ea n .store = true) :
    ∃ t, storeAt i n v ea s = .next t ∧
      ∀ a : Word, a.toNat % 4 = 0 → admitted s a .word .fetch = true →
        ∃ w u, fetch { t with pc := a } = .word w u ∧
          ∀ j, j < 4 → w.extractLsb' (8 * j) 8 =
            if a.toNat + j - ea.toNat < n.bytes ∧ ea.toNat ≤ a.toNat + j
            then v.extractLsb' (8 * (a.toNat + j - ea.toNat)) 8
            else s.mem.byteAt (a + BitVec.ofNat 32 j) := by
  have hp : textProtected s ea = false := by simp [textProtected, hon]
  refine ⟨_, storeAt_performed v (misaligned_eq_false.mpr hea) hp hadm, fun a ha hf => ?_⟩
  have hw := fetch_word (s := { stored n v ea s with pc := a }) (misalignedTarget_eq_false.mpr ha)
    (fun hoff => absurd (hon.symm.trans hoff) (by decide)) hf
  refine ⟨_, _, hw, fun j hj => ?_⟩
  have hbyte := Memory.byteAt_write_aligned hm hea (v.setWidth n.bits) (a + BitVec.ofNat 32 j)
  rw [toNat_add_of_aligned (n := .word) ha hj] at hbyte
  refine (Memory.byte_read _ a (n := .word) hj).trans (hbyte.trans ?_)
  split
  · next h => exact byte_setWidth v h.1
  · rfl

end

/-! ## What has a next state -/

theorem exec_next_or_notAdmitted (i : Instr) (s : State) : (∃ t, exec i s = .next t) ∨
    ∃ a n k, exec i s = .fault (.accessNotAdmitted a n k) ∧ admitted s a n k = false := by
  have he := exec_effect i s
  generalize exec i s = r at he ⊢
  cases he with
  | raises => exact .inl ⟨_, rfl⟩
  | stuck h => exact .inr ⟨_, _, _, rfl, h⟩
  | retires => exact .inl ⟨_, rfl⟩
  | exits => exact .inl ⟨_, rfl⟩

theorem exec_next_of_refused_eq_nil (i : Instr) {s : State} (h : s.config.refused = []) : ∃ t, exec i s = .next t := by
  obtain ht | ⟨a, n, k, -, ha⟩ := exec_next_or_notAdmitted i s
  · exact ht
  · rw [admitted_of_refused_eq_nil h] at ha
    cases ha

theorem step_next_of_refused_eq_nil {s : State} (h : s.config.refused = []) (hr : s.runState = .running) :
    ∃ t, step s = .next t := by
  have hc := step_cases s
  generalize step s = r at hc ⊢
  cases hc with
  | undefined hh => rw [hr] at hh; cases hh
  | request => exact ⟨_, rfl⟩
  | fetchRaises => exact ⟨_, rfl⟩
  | fetchStuck _ _ _ ha => rw [admitted_of_refused_eq_nil h] at ha; cases ha
  | noTemplate => exact ⟨_, rfl⟩
  | runs => exact exec_next_of_refused_eq_nil _ h

end Sys2Proof.Machine
end

section
/-!
PROOFS. The statements about Memory, the fetch and the accesses of a step (20_memory.md), each settled from the lemmas above.
-/

namespace Sys2Proof.Machine

/-- Settles O20: the image invariant holds at setup and along the run, and a fetch reads Memory at the pc. -/
theorem textIsImmutableWithSmcOff : Obligations.TextIsImmutableWithSmcOff := by
  intro p s t k hs hoff hk j st hj
  have hinv : RunInv t := simulate_keeps (fun h hu => h.step hu) (runInv_of_setup hs) hk
  obtain ⟨-, hconfig, hprogram, hbase⟩ := simulate_sameFixed hk
  obtain ⟨-, -, -, -, -, -, rfl⟩ := (setup_ok_iff p s).mp hs
  have hread : t.mem.read (p.textBase + BitVec.ofNat 32 (4 * j)) .word = st.word := by
    rw [← show t.textBase = p.textBase from hbase]
    exact hinv.read_statement (by rw [hconfig]; exact hoff) (by rw [hprogram]; exact hj)
  refine ⟨hread, fun hpc w u hw => ?_⟩
  rw [word_of_fetch hw, hpc, hread]

/-- Settles O13: the boundary lets the step pass, and the fetch's conditions come in the order of R72. -/
theorem fetchAndResolveFaultInOrder : Obligations.FetchAndResolveFaultInOrder := by
  intro s hr hq hl
  have hgoes := step_goes hr hq (stepLimitReached_eq_false hl)
  refine ⟨fun hp => ?_, fun hp hoff hout => ?_, fun hp hin ha => ?_, fun w hp hin ha hw hres => ?_⟩
  · rw [hgoes, fetch_misaligned (s := takeSample s) (misalignedTarget_eq_true.mpr hp)]
    exact ⟨_, rfl, faultTaken_raise none .fetch (some s.pc) (takeSample s)⟩
  · rw [hgoes, fetch_outside (s := takeSample s) (misalignedTarget_eq_false.mpr hp) hoff hout]
    exact ⟨_, rfl, faultTaken_raise none .noStatement none (takeSample s)⟩
  · rw [hgoes, fetch_refused (s := takeSample s) (misalignedTarget_eq_false.mpr hp) hin ha]
    rfl
  · rw [step_fetched hr hq (stepLimitReached_eq_false hl) (misalignedTarget_eq_false.mpr hp) hin ha, hw,
      decode_of_resolve_eq_none hres]
    exact ⟨_, rfl, faultTaken_raise (some w) .noTemplate none (fetchState s)⟩

/-- Settles O21: each store is the common store procedure at its size. -/
theorem storesAreFetchedWithSmcOn : Obligations.StoresAreFetchedWithSmcOn := by
  intro s rs1 rs2 imm hm hon p hp
  simp only [List.mem_cons, List.not_mem_nil, or_false] at hp
  obtain rfl | rfl | rfl := hp
  · exact storeAt_fetched (readReg rs2 s) hm hon
  · exact storeAt_fetched (readReg rs2 s) hm hon
  · exact storeAt_fetched (readReg rs2 s) hm hon

/-- Settles O25: a step that gets to its instruction has issued its fetch, and the instruction issues at most one request more. -/
theorem oneRequestPerAccess : Obligations.OneRequestPerAccess := by
  intro s t h
  have hc := step_cases s
  generalize hr : step s = r at hc
  rw [h] at hr
  cases hc with
  | undefined => cases hr
  | request => cases hr; exact .inl rfl
  | fetchRaises => cases hr; exact .inl rfl
  | fetchStuck => cases hr
  | noTemplate => cases hr; exact .inr (.inl rfl)
  | @runs _ _ _ _ i _ =>
    have hi := exec_issuesOne i (fetchState s)
    rw [← hr] at hi
    exact .inr hi

/-- Settles O30, byte by byte. -/
theorem memoryReadsWhatWasWritten : Obligations.MemoryReadsWhatWasWritten := fun m a n v hm =>
  ⟨Memory.wf_write hm a n v, fun _ hk => Memory.byte_read m a hk, fun _ hk => Memory.byteAt_write_inside hm a v hk,
    fun b hb => Memory.byteAt_write_outside hm a b n v hb, Memory.read_write hm a n v⟩

/-- Settles O57, by the inversions of `exec` and `step`. -/
theorem everyInstructionRuns : Obligations.EveryInstructionRuns :=
  ⟨exec_next_or_notAdmitted, fun i _ h => exec_next_of_refused_eq_nil i h, fun _ h hr => step_next_of_refused_eq_nil h hr⟩

end Sys2Proof.Machine
end

section
/-!
PROOFS. What `resolve` answers for a word that a row accepts: that row, because no two rows of the catalog collide (40_dispatch.md R133,
R135). With a row for the encoding of every instruction, decode after encode is the identity.
-/

namespace Sys2Proof

/-! ## The row that a word matches -/

/-- Two entries that accept one word collide: where both templates fix a bit, they fix it to the word's (R133). -/
theorem collides_of_accepts {a b : CatalogEntry} {w : Word} (ha : a.accepts w = true) (hb : b.accepts w = true) :
    a.collides b = true := by
  rw [CatalogEntry.accepts, beq_iff_eq] at ha hb
  rw [CatalogEntry.collides, beq_iff_eq, ← ha, ← hb]
  apply BitVec.eq_of_getLsbD_eq
  intro i _
  simp only [BitVec.getLsbD_and, BitVec.getLsbD_xor, BitVec.getLsbD_zero]
  cases w.getLsbD i <;> cases a.mask.getLsbD i <;> cases b.mask.getLsbD i <;> rfl

/-- A row that accepts a word is the one that `resolve` finds: an earlier one would collide with it. -/
theorem resolve_eq_some_of_accepts {e : CatalogEntry} {w : Word} (he : e ∈ catalog) (h : e.accepts w = true) :
    resolve w = some e := by
  obtain ⟨before, after, hcat⟩ := List.append_of_mem he
  have hp := Machine.catalog_pairwise_not_collides
  rw [hcat, List.pairwise_append] at hp
  obtain ⟨-, -, hp⟩ := hp
  refine List.find?_eq_some_iff_append.mpr ⟨h, before, after, hcat, fun a ha => ?_⟩
  cases haw : a.accepts w with
  | false => rfl
  | true =>
    have hnot := hp a ha e List.mem_cons_self
    rw [collides_of_accepts h haw] at hnot
    cases hnot

theorem resolve_eq_some_iff {e : CatalogEntry} {w : Word} : resolve w = some e ↔ e ∈ catalog ∧ e.accepts w = true :=
  ⟨fun h => ⟨List.mem_of_find?_eq_some h, List.find?_some (p := fun e : CatalogEntry => e.accepts w) h⟩,
    fun ⟨he, h⟩ => resolve_eq_some_of_accepts he h⟩

theorem decode_eq_ok_iff {w : Word} {i : Instr} :
    decode w = .ok i ↔ ∃ e ∈ catalog, e.accepts w = true ∧ e.instr w = i := by
  unfold decode
  constructor
  · intro h
    split at h
    next e hr =>
      obtain ⟨he, ha⟩ := resolve_eq_some_iff.mp hr
      exact ⟨e, he, ha, Except.ok.inj h⟩
    next => cases h
  · rintro ⟨e, he, ha, rfl⟩
    rw [resolve_eq_some_of_accepts he ha]

/-! ## The row of every instruction -/

theorem rowOfEncoding : ∀ i : Instr, Laws.RowOfEncoding.Statement i
  | .lui .. => Laws.RowOfEncoding.lui ..
  | .auipc .. => Laws.RowOfEncoding.auipc ..
  | .jal .. => Laws.RowOfEncoding.jal ..
  | .jalr .. => Laws.RowOfEncoding.jalr ..
  | .beq .. => Laws.RowOfEncoding.beq ..
  | .bne .. => Laws.RowOfEncoding.bne ..
  | .blt .. => Laws.RowOfEncoding.blt ..
  | .bge .. => Laws.RowOfEncoding.bge ..
  | .bltu .. => Laws.RowOfEncoding.bltu ..
  | .bgeu .. => Laws.RowOfEncoding.bgeu ..
  | .lb .. => Laws.RowOfEncoding.lb ..
  | .lh .. => Laws.RowOfEncoding.lh ..
  | .lw .. => Laws.RowOfEncoding.lw ..
  | .lbu .. => Laws.RowOfEncoding.lbu ..
  | .lhu .. => Laws.RowOfEncoding.lhu ..
  | .sb .. => Laws.RowOfEncoding.sb ..
  | .sh .. => Laws.RowOfEncoding.sh ..
  | .sw .. => Laws.RowOfEncoding.sw ..
  | .addi .. => Laws.RowOfEncoding.addi ..
  | .slti .. => Laws.RowOfEncoding.slti ..
  | .sltiu .. => Laws.RowOfEncoding.sltiu ..
  | .xori .. => Laws.RowOfEncoding.xori ..
  | .ori .. => Laws.RowOfEncoding.ori ..
  | .andi .. => Laws.RowOfEncoding.andi ..
  | .slli .. => Laws.RowOfEncoding.slli ..
  | .srli .. => Laws.RowOfEncoding.srli ..
  | .srai .. => Laws.RowOfEncoding.srai ..
  | .add .. => Laws.RowOfEncoding.add ..
  | .sub .. => Laws.RowOfEncoding.sub ..
  | .sll .. => Laws.RowOfEncoding.sll ..
  | .slt .. => Laws.RowOfEncoding.slt ..
  | .sltu .. => Laws.RowOfEncoding.sltu ..
  | .xor .. => Laws.RowOfEncoding.xor ..
  | .srl .. => Laws.RowOfEncoding.srl ..
  | .sra .. => Laws.RowOfEncoding.sra ..
  | .or .. => Laws.RowOfEncoding.or ..
  | .and .. => Laws.RowOfEncoding.and ..
  | .fence .. => Laws.RowOfEncoding.fence ..
  | .fenceI .. => Laws.RowOfEncoding.fenceI ..
  | .ecall => Laws.RowOfEncoding.ecall
  | .ebreak => Laws.RowOfEncoding.ebreak
  | .csrrw .. => Laws.RowOfEncoding.csrrw ..
  | .csrrs .. => Laws.RowOfEncoding.csrrs ..
  | .csrrc .. => Laws.RowOfEncoding.csrrc ..
  | .csrrwi .. => Laws.RowOfEncoding.csrrwi ..
  | .csrrsi .. => Laws.RowOfEncoding.csrrsi ..
  | .csrrci .. => Laws.RowOfEncoding.csrrci ..
  | .mul .. => Laws.RowOfEncoding.mul ..
  | .mulh .. => Laws.RowOfEncoding.mulh ..
  | .mulhsu .. => Laws.RowOfEncoding.mulhsu ..
  | .mulhu .. => Laws.RowOfEncoding.mulhu ..
  | .div .. => Laws.RowOfEncoding.div ..
  | .divu .. => Laws.RowOfEncoding.divu ..
  | .rem .. => Laws.RowOfEncoding.rem ..
  | .remu .. => Laws.RowOfEncoding.remu ..

theorem decode_encode {i : Instr} (hi : i.wellFormed = true) : decode (encode i) = .ok i := by
  obtain ⟨e, he, ha, hinstr⟩ := rowOfEncoding i
  exact decode_eq_ok_iff.mpr ⟨e, he, ha, hinstr hi⟩

/-! ## The bytes of a word (R63) -/

theorem wordOfBytes_bytes (w : Word) :
    wordOfBytes (w.extractLsb' 0 8) (w.extractLsb' 8 8) (w.extractLsb' 16 8) (w.extractLsb' 24 8) = w := by
  have h1 : w.extractLsb' 24 8 ++ w.extractLsb' 16 8 = w.extractLsb' 16 16 := slice_join 16 w
  have h2 : w.extractLsb' 16 16 ++ w.extractLsb' 8 8 = w.extractLsb' 8 24 := slice_join 8 w
  have h3 : w.extractLsb' 8 24 ++ w.extractLsb' 0 8 = w.extractLsb' 0 32 := slice_join 0 w
  rw [wordOfBytes, h1, h2, h3, slice_all]

theorem decodeBytes_encodeBytes {i : Instr} (hi : i.wellFormed = true) (rest : List Byte) :
    decodeBytes (encodeBytes i ++ rest) = .ok (i, rest) := by
  simp only [encodeBytes, List.cons_append, List.nil_append, decodeBytes, wordOfBytes_bytes, decode_encode hi]

/-- Settles O2, for the word and for its four bytes. -/
theorem decodeOfEncode : Obligations.DecodeOfEncode := fun _ hi => ⟨decode_encode hi, decodeBytes_encodeBytes hi⟩

end Sys2Proof
end

section
/-!
PROOFS. A word is put together again from its fields in every format (30_encoding.md R92 to R102), and a word that matches a row of the
catalog holds the row's fixed fields. So encode after decode is the identity, row by row.
-/

namespace Sys2Proof

section
variable (w : Word)

/-! ## A word from its fields -/

theorem encodeI_fields : encodeI (fieldFunct3 w) (fieldOpcode w) (fieldRd w) (fieldRs1 w) (fieldImmI w) = w := by
  have h1 : fieldImmI w ++ fieldRs1 w = w.extractLsb' 15 17 := slice_join 15 w
  have h2 : w.extractLsb' 15 17 ++ fieldFunct3 w = w.extractLsb' 12 20 := slice_join 12 w
  have h3 : w.extractLsb' 12 20 ++ fieldRd w = w.extractLsb' 7 25 := slice_join 7 w
  have h4 : w.extractLsb' 7 25 ++ fieldOpcode w = w.extractLsb' 0 32 := slice_join 0 w
  rw [encodeI, h1, h2, h3, h4, slice_all]

theorem funct7_append_rs2 : fieldFunct7 w ++ fieldRs2 w = fieldImmI w := slice_join 20 w

/-- The fields of a FENCE word above `rs1` (R101) are the immediate of FENCE.I. -/
theorem fm_append_pred_append_succ :
    w.extractLsb' 28 4 ++ w.extractLsb' 24 4 ++ w.extractLsb' 20 4 = fieldImmI w := by
  have h1 : w.extractLsb' 28 4 ++ w.extractLsb' 24 4 = w.extractLsb' 24 8 := slice_join 24 w
  rw [h1]
  exact slice_join 20 w

theorem encodeR_fields :
    encodeR (fieldFunct7 w) (fieldFunct3 w) (fieldOpcode w) (fieldRd w) (fieldRs1 w) (fieldRs2 w) = w := by
  rw [encodeR, funct7_append_rs2]
  exact encodeI_fields w

theorem encodeS_fields : encodeS (fieldFunct3 w) (fieldOpcode w) (fieldRs2 w) (fieldRs1 w) (fieldImmS w) = w := by
  have h1 : (fieldImmS w).extractLsb' 5 7 = fieldFunct7 w := (slice_up ..).trans (slice_all _)
  have h2 : (fieldImmS w).extractLsb' 0 5 = fieldRd w := slice_low ..
  rw [encodeS, h1, h2]
  exact encodeR_fields w

theorem encodeB_fields : encodeB (fieldFunct3 w) (fieldOpcode w) (fieldRs1 w) (fieldRs2 w) (fieldImmB w) = w := by
  have h1 : (fieldImmB w).extractLsb' 12 1 = w.extractLsb' 31 1 :=
    (slice_up ..).trans ((slice_up ..).trans ((slice_up ..).trans ((slice_up ..).trans (slice_all _))))
  have h2 : (fieldImmB w).extractLsb' 5 6 = w.extractLsb' 25 6 :=
    (slice_up ..).trans ((slice_up ..).trans (slice_low ..))
  have h3 : (fieldImmB w).extractLsb' 1 4 = w.extractLsb' 8 4 := (slice_up ..).trans (slice_low ..)
  have h4 : (fieldImmB w).extractLsb' 11 1 = w.extractLsb' 7 1 :=
    (slice_up ..).trans ((slice_up ..).trans ((slice_up ..).trans (slice_low ..)))
  have j1 : w.extractLsb' 31 1 ++ w.extractLsb' 25 6 = w.extractLsb' 25 7 := slice_join 25 w
  have j2 : w.extractLsb' 25 7 ++ fieldRs2 w = w.extractLsb' 20 12 := slice_join 20 w
  have j3 : w.extractLsb' 20 12 ++ fieldRs1 w = w.extractLsb' 15 17 := slice_join 15 w
  have j4 : w.extractLsb' 15 17 ++ fieldFunct3 w = w.extractLsb' 12 20 := slice_join 12 w
  have j5 : w.extractLsb' 12 20 ++ w.extractLsb' 8 4 = w.extractLsb' 8 24 := slice_join 8 w
  have j6 : w.extractLsb' 8 24 ++ w.extractLsb' 7 1 = w.extractLsb' 7 25 := slice_join 7 w
  have j7 : w.extractLsb' 7 25 ++ fieldOpcode w = w.extractLsb' 0 32 := slice_join 0 w
  rw [encodeB, h1, h2, h3, h4, j1, j2, j3, j4, j5, j6, j7, slice_all]

theorem encodeU_fields : encodeU (fieldOpcode w) (fieldRd w) (fieldImm20 w) = w := by
  have h1 : fieldImm20 w ++ fieldRd w = w.extractLsb' 7 25 := slice_join 7 w
  have h2 : w.extractLsb' 7 25 ++ fieldOpcode w = w.extractLsb' 0 32 := slice_join 0 w
  rw [encodeU, h1, h2, slice_all]

theorem encodeJ_fields : encodeJ (fieldOpcode w) (fieldRd w) (fieldImmJ w) = w := by
  have h1 : (fieldImmJ w).extractLsb' 20 1 = w.extractLsb' 31 1 :=
    (slice_up ..).trans ((slice_up ..).trans ((slice_up ..).trans ((slice_up ..).trans (slice_all _))))
  have h2 : (fieldImmJ w).extractLsb' 1 10 = w.extractLsb' 21 10 := (slice_up ..).trans (slice_low ..)
  have h3 : (fieldImmJ w).extractLsb' 11 1 = w.extractLsb' 20 1 :=
    (slice_up ..).trans ((slice_up ..).trans (slice_low ..))
  have h4 : (fieldImmJ w).extractLsb' 12 8 = w.extractLsb' 12 8 :=
    (slice_up ..).trans ((slice_up ..).trans ((slice_up ..).trans (slice_low ..)))
  have j1 : w.extractLsb' 31 1 ++ w.extractLsb' 21 10 = w.extractLsb' 21 11 := slice_join 21 w
  have j2 : w.extractLsb' 21 11 ++ w.extractLsb' 20 1 = w.extractLsb' 20 12 := slice_join 20 w
  have j3 : w.extractLsb' 20 12 ++ w.extractLsb' 12 8 = fieldImm20 w := slice_join 12 w
  rw [encodeJ, h1, h2, h3, h4, j1, j2, j3]
  exact encodeU_fields w

/-! ## The fixed fields of a word (R108) -/

theorem and_opcodeMask : w &&& 0x7F#32 = encodeU (fieldOpcode w) 0 0 :=
  (congrArg (· &&& 0x7F#32) (encodeU_fields w).symm).trans (mask_encodeU ..)

theorem and_funct3Mask : w &&& 0x707F#32 = encodeI (fieldFunct3 w) (fieldOpcode w) 0 0 0 :=
  (congrArg (· &&& 0x707F#32) (encodeI_fields w).symm).trans (mask_encodeI ..)

theorem and_funct7Mask : w &&& 0xFE00707F#32 = encodeR (fieldFunct7 w) (fieldFunct3 w) (fieldOpcode w) 0 0 0 :=
  (congrArg (· &&& 0xFE00707F#32) (encodeR_fields w).symm).trans (mask_encodeR ..)

end

section
variable {w : Word} {f7 : BitVec 7} {f3 : BitVec 3} {op : BitVec 7}

theorem and_opcodeMask_eq_iff : w &&& 0x7F#32 = encodeU op 0 0 ↔ fieldOpcode w = op := by
  rw [and_opcodeMask]
  refine ⟨fun h => ?_, fun h => by rw [h]⟩
  have hop : ∀ o : BitVec 7, fieldOpcode (encodeU o 0 0) = o := fun _ => slice_low ..
  rw [← hop op, ← h, hop]

theorem and_funct3Mask_eq_iff : w &&& 0x707F#32 = encodeI f3 op 0 0 0 ↔ fieldFunct3 w = f3 ∧ fieldOpcode w = op := by
  rw [and_funct3Mask]
  refine ⟨fun h => ?_, fun ⟨h3, hop⟩ => by rw [h3, hop]⟩
  have h3 : ∀ f o, fieldFunct3 (encodeI f o 0 0 0) = f := fun _ _ =>
    (slice_up ..).trans ((slice_up ..).trans (slice_low ..))
  have hop : ∀ f o, fieldOpcode (encodeI f o 0 0 0) = o := fun _ _ => slice_low ..
  exact ⟨by rw [← h3 f3 op, ← h, h3], by rw [← hop f3 op, ← h, hop]⟩

theorem and_funct7Mask_eq_iff :
    w &&& 0xFE00707F#32 = encodeR f7 f3 op 0 0 0 ↔ fieldFunct7 w = f7 ∧ fieldFunct3 w = f3 ∧ fieldOpcode w = op := by
  rw [and_funct7Mask]
  refine ⟨fun h => ?_, fun ⟨h7, h3, hop⟩ => by rw [h7, h3, hop]⟩
  have h7 : ∀ f g o, fieldFunct7 (encodeR f g o 0 0 0) = f := fun _ _ _ =>
    (slice_up ..).trans ((slice_up ..).trans ((slice_up ..).trans ((slice_up ..).trans ((slice_up ..).trans
      (slice_all _)))))
  have h3 : ∀ f g o, fieldFunct3 (encodeR f g o 0 0 0) = g := fun _ _ _ =>
    (slice_up ..).trans ((slice_up ..).trans (slice_low ..))
  have hop : ∀ f g o, fieldOpcode (encodeR f g o 0 0 0) = o := fun _ _ _ => slice_low ..
  exact ⟨by rw [← h7 f7 f3 op, ← h, h7], by rw [← h3 f7 f3 op, ← h, h3], by rw [← hop f7 f3 op, ← h, hop]⟩

/-! ## A word that has a format's fixed fields -/

theorem encodeR_of_match (h : w &&& 0xFE00707F#32 = encodeR f7 f3 op 0 0 0) :
    encodeR f7 f3 op (fieldRd w) (fieldRs1 w) (fieldRs2 w) = w := by
  obtain ⟨rfl, rfl, rfl⟩ := and_funct7Mask_eq_iff.mp h
  exact encodeR_fields w

theorem encodeI_of_match (h : w &&& 0x707F#32 = encodeI f3 op 0 0 0) :
    encodeI f3 op (fieldRd w) (fieldRs1 w) (fieldImmI w) = w := by
  obtain ⟨rfl, rfl⟩ := and_funct3Mask_eq_iff.mp h
  exact encodeI_fields w

theorem encodeS_of_match (h : w &&& 0x707F#32 = encodeI f3 op 0 0 0) :
    encodeS f3 op (fieldRs2 w) (fieldRs1 w) (fieldImmS w) = w := by
  obtain ⟨rfl, rfl⟩ := and_funct3Mask_eq_iff.mp h
  exact encodeS_fields w

theorem encodeB_of_match (h : w &&& 0x707F#32 = encodeI f3 op 0 0 0) :
    encodeB f3 op (fieldRs1 w) (fieldRs2 w) (fieldImmB w) = w := by
  obtain ⟨rfl, rfl⟩ := and_funct3Mask_eq_iff.mp h
  exact encodeB_fields w

theorem encodeU_of_match (h : w &&& 0x7F#32 = encodeU op 0 0) : encodeU op (fieldRd w) (fieldImm20 w) = w := by
  obtain rfl := and_opcodeMask_eq_iff.mp h
  exact encodeU_fields w

theorem encodeJ_of_match (h : w &&& 0x7F#32 = encodeU op 0 0) : encodeJ op (fieldRd w) (fieldImmJ w) = w := by
  obtain rfl := and_opcodeMask_eq_iff.mp h
  exact encodeJ_fields w

end

theorem evenOffset_append_zero {n : Nat} (x : BitVec n) : evenOffset (x ++ 0#1) = true :=
  beq_iff_eq.mpr BitVec.getLsbD_append

/-! ## Row by row -/

/-- A row drops no bit: a word that it matches is the encoding of what it reads from it, which is well formed. -/
def CatalogEntry.DropsNoBit (e : CatalogEntry) : Prop :=
  ∀ w : Word, w &&& e.mask = e.pattern → encode (e.instr w) = w ∧ (e.instr w).wellFormed = true

theorem catalogUpper_dropsNoBit : ∀ e ∈ catalogUpper, e.DropsNoBit := by
  simp only [catalogUpper, List.forall_mem_cons, List.not_mem_nil, false_imp_iff, implies_true, and_true]
  exact ⟨fun _ h => ⟨encodeU_of_match h, rfl⟩, fun _ h => ⟨encodeU_of_match h, rfl⟩,
    fun _ h => ⟨encodeJ_of_match h, evenOffset_append_zero _⟩, fun _ h => ⟨encodeI_of_match h, rfl⟩⟩

theorem catalogBranch_dropsNoBit : ∀ e ∈ catalogBranch, e.DropsNoBit := by
  simp only [catalogBranch, List.forall_mem_cons, List.not_mem_nil, false_imp_iff, implies_true, and_true]
  and_intros <;> exact fun _ h => ⟨encodeB_of_match h, evenOffset_append_zero _⟩

/-- Loads, and the CSR instructions, whose address stands where format I has its immediate (R99). -/
theorem formatI_dropsNoBit : (∀ e ∈ catalogLoad, e.DropsNoBit) ∧ ∀ e ∈ catalogCsr, e.DropsNoBit := by
  simp only [catalogLoad, catalogCsr, List.forall_mem_cons, List.not_mem_nil, false_imp_iff, implies_true, and_true]
  and_intros <;> exact fun _ h => ⟨encodeI_of_match h, rfl⟩

theorem formatR_dropsNoBit : (∀ e ∈ catalogReg, e.DropsNoBit) ∧ ∀ e ∈ catalogMulDiv, e.DropsNoBit := by
  simp only [catalogReg, catalogMulDiv, List.forall_mem_cons, List.not_mem_nil, false_imp_iff, implies_true, and_true]
  and_intros <;> exact fun _ h => ⟨encodeR_of_match h, rfl⟩

theorem catalogStore_dropsNoBit : ∀ e ∈ catalogStore, e.DropsNoBit := by
  simp only [catalogStore, List.forall_mem_cons, List.not_mem_nil, false_imp_iff, implies_true, and_true]
  and_intros <;> exact fun _ h => ⟨encodeS_of_match h, rfl⟩

theorem catalogImm_dropsNoBit : ∀ e ∈ catalogImm, e.DropsNoBit := by
  simp only [catalogImm, List.forall_mem_cons, List.not_mem_nil, false_imp_iff, implies_true, and_true]
  refine ⟨?_, ?_, ?_, ?_, ?_, ?_, fun _ h => ⟨encodeR_of_match h, rfl⟩, fun _ h => ⟨encodeR_of_match h, rfl⟩,
    fun _ h => ⟨encodeR_of_match h, rfl⟩⟩ <;> exact fun _ h => ⟨encodeI_of_match h, rfl⟩

/-- A fence keeps its ignored fields (R101), and the words of ECALL and EBREAK are fixed (R102). -/
theorem catalogSystem_dropsNoBit : ∀ e ∈ catalogSystem, e.DropsNoBit := by
  simp only [catalogSystem, List.forall_mem_cons, List.not_mem_nil, false_imp_iff, implies_true, and_true]
  have himm (w : Word) (f3 : BitVec 3) :
      encodeI f3 0b0001111#7 (fieldRd w) (fieldRs1 w) (w.extractLsb' 28 4 ++ w.extractLsb' 24 4 ++ w.extractLsb' 20 4)
        = encodeI f3 0b0001111#7 (fieldRd w) (fieldRs1 w) (fieldImmI w) := by
    rw [fm_append_pred_append_succ]
  exact ⟨fun w h => ⟨(himm w 0b000#3).trans (encodeI_of_match h), rfl⟩,
    fun w h => ⟨(himm w 0b001#3).trans (encodeI_of_match h), rfl⟩,
    fun _ h => ⟨h.symm.trans BitVec.and_allOnes, rfl⟩, fun _ h => ⟨h.symm.trans BitVec.and_allOnes, rfl⟩⟩

theorem catalog_dropsNoBit : ∀ e ∈ catalog, e.DropsNoBit := by
  obtain ⟨hload, hcsr⟩ := formatI_dropsNoBit
  obtain ⟨hreg, hmuldiv⟩ := formatR_dropsNoBit
  simp only [catalog, List.forall_mem_append]
  exact ⟨⟨⟨⟨⟨⟨⟨⟨catalogUpper_dropsNoBit, catalogBranch_dropsNoBit⟩, hload⟩, catalogStore_dropsNoBit⟩,
    catalogImm_dropsNoBit⟩, hreg⟩, catalogSystem_dropsNoBit⟩, hcsr⟩, hmuldiv⟩

/-- Settles O3: the row that the word matches drops no bit of it. -/
theorem encodeOfDecode : Obligations.EncodeOfDecode := by
  intro w i h
  obtain ⟨e, he, ha, rfl⟩ := decode_eq_ok_iff.mp h
  exact catalog_dropsNoBit e he w (beq_iff_eq.mp ha)

end Sys2Proof
end

section
/-!
PROOFS. The opcode map in prose (30_encoding.md R109 to R112) against the templates: what a row matches the map names after it, and
what the map names some row matches. The reserved sub-encodings of R115 are words that the map does not name.
-/

namespace Sys2Proof

/-! ## The map names each row -/

section
variable {w m p : Word}

/-- A run of bits that the mask keeps whole is the pattern's. -/
theorem slice_eq_of_match {s len : Nat} (hm : m.extractLsb' s len = BitVec.allOnes len) (h : w &&& m = p) :
    w.extractLsb' s len = p.extractLsb' s len := by
  rw [← h, BitVec.extractLsb'_and, hm, BitVec.and_allOnes]

theorem fieldOpcode_eq_of_match (h : w &&& m = p) (hm : fieldOpcode m = BitVec.allOnes 7 := by rfl) :
    fieldOpcode w = fieldOpcode p := slice_eq_of_match hm h

theorem fieldFunct3_eq_of_match (h : w &&& m = p) (hm : fieldFunct3 m = BitVec.allOnes 3 := by rfl) :
    fieldFunct3 w = fieldFunct3 p := slice_eq_of_match hm h

theorem fieldFunct7_eq_of_match (h : w &&& m = p) (hm : fieldFunct7 m = BitVec.allOnes 7 := by rfl) :
    fieldFunct7 w = fieldFunct7 p := slice_eq_of_match hm h

end

/-- The map names a row: it gives the row's mnemonic to every word that the row matches. -/
def CatalogEntry.Named (e : CatalogEntry) : Prop :=
  ∀ w : Word, w &&& e.mask = e.pattern → opcodeMap w = some e.mnemonic

/-- The major opcode names LUI, AUIPC and JAL (R109). -/
theorem catalogUpper_named : ∀ e ∈ catalogUpper, e.Named := by
  simp only [catalogUpper, List.forall_mem_cons, List.not_mem_nil, false_imp_iff, implies_true, and_true]
  refine ⟨?lui, ?auipc, ?jal, ?jalr⟩ <;> intro w h
  case jalr => simp only [opcodeMap, fieldOpcode_eq_of_match h, fieldFunct3_eq_of_match h]; rfl
  all_goals simp only [opcodeMap, fieldOpcode_eq_of_match h]; rfl

/-- The major opcode and `funct3` name a branch, a load, a store and a CSR instruction (R111, R112). -/
theorem funct3Rows_named : (∀ e ∈ catalogBranch, e.Named) ∧ (∀ e ∈ catalogLoad, e.Named) ∧
    (∀ e ∈ catalogStore, e.Named) ∧ ∀ e ∈ catalogCsr, e.Named := by
  simp only [catalogBranch, catalogLoad, catalogStore, catalogCsr, List.forall_mem_cons, List.not_mem_nil, false_imp_iff,
    implies_true, and_true]
  and_intros <;> intro w h
  all_goals simp only [opcodeMap, fieldOpcode_eq_of_match h, fieldFunct3_eq_of_match h]; rfl

/-- `funct3` names an instruction with an immediate, and of a shift `funct7` too (R110). -/
theorem catalogImm_named : ∀ e ∈ catalogImm, e.Named := by
  simp only [catalogImm, List.forall_mem_cons, List.not_mem_nil, false_imp_iff, implies_true, and_true]
  refine ⟨?_, ?_, ?_, ?_, ?_, ?_, ?slli, ?srli, ?srai⟩ <;> intro w h
  case slli | srli | srai =>
    simp only [opcodeMap, fieldOpcode_eq_of_match h, fieldFunct3_eq_of_match h, fieldFunct7_eq_of_match h]; rfl
  all_goals simp only [opcodeMap, fieldOpcode_eq_of_match h, fieldFunct3_eq_of_match h]; rfl

/-- `funct7` and `funct3` name a register-register instruction (R110). -/
theorem funct7Rows_named : (∀ e ∈ catalogReg, e.Named) ∧ ∀ e ∈ catalogMulDiv, e.Named := by
  simp only [catalogReg, catalogMulDiv, List.forall_mem_cons, List.not_mem_nil, false_imp_iff, implies_true, and_true]
  and_intros <;> intro w h
  all_goals
    simp only [opcodeMap, fieldOpcode_eq_of_match h, fieldFunct3_eq_of_match h, fieldFunct7_eq_of_match h]; rfl

/-- `funct3` names a fence, and the whole word ECALL and EBREAK (R111, R112). -/
theorem catalogSystem_named : ∀ e ∈ catalogSystem, e.Named := by
  simp only [catalogSystem, List.forall_mem_cons, List.not_mem_nil, false_imp_iff, implies_true, and_true]
  refine ⟨?fence, ?fenceI, ?ecall, ?ebreak⟩ <;> intro w h
  case ecall | ebreak => rw [← (h.symm.trans BitVec.and_allOnes : _ = w)]; rfl
  all_goals simp only [opcodeMap, fieldOpcode_eq_of_match h, fieldFunct3_eq_of_match h]; rfl

theorem catalog_named : ∀ e ∈ catalog, e.Named := by
  obtain ⟨hbranch, hload, hstore, hcsr⟩ := funct3Rows_named
  obtain ⟨hreg, hmuldiv⟩ := funct7Rows_named
  simp only [catalog, List.forall_mem_append]
  exact ⟨⟨⟨⟨⟨⟨⟨⟨catalogUpper_named, hbranch⟩, hload⟩, hstore⟩, catalogImm_named⟩, hreg⟩, catalogSystem_named⟩, hcsr⟩, hmuldiv⟩

/-! ## What the map names, a row matches -/

section
variable {w : Word} {f7 : BitVec 7} {f3 : BitVec 3} {op : BitVec 7}

/-- A row whose mask keeps the major opcode alone. -/
theorem accepted_of_opcode (hop : (fieldOpcode w).toNat = op.toNat)
    (row : ∃ e ∈ catalog, e.mask = 0x7F#32 ∧ e.pattern = encodeU op 0 0) : ∃ e ∈ catalog, e.accepts w = true := by
  obtain ⟨e, he, hm, hp⟩ := row
  exact ⟨e, he, beq_iff_eq.mpr (by rw [hm, hp, and_opcodeMask_eq_iff]; exact BitVec.eq_of_toNat_eq hop)⟩

/-- A row whose mask keeps the major opcode, `funct3` and `funct7`. -/
theorem accepted_of_funct7 (hop : (fieldOpcode w).toNat = op.toNat) (h3 : (fieldFunct3 w).toNat = f3.toNat)
    (h7 : (fieldFunct7 w).toNat = f7.toNat)
    (row : ∃ e ∈ catalog, e.mask = 0xFE00707F#32 ∧ e.pattern = encodeR f7 f3 op 0 0 0) :
    ∃ e ∈ catalog, e.accepts w = true := by
  obtain ⟨e, he, hm, hp⟩ := row
  refine ⟨e, he, beq_iff_eq.mpr ?_⟩
  rw [hm, hp, and_funct7Mask_eq_iff]
  exact ⟨BitVec.eq_of_toNat_eq h7, BitVec.eq_of_toNat_eq h3, BitVec.eq_of_toNat_eq hop⟩

/-- Every `funct3` that a table of one major opcode names has a row, so a word that the table names has. -/
theorem accepted_of_funct3_name (name : Nat → Option String) (hop : (fieldOpcode w).toNat = op.toNat)
    (hn : (name (fieldFunct3 w).toNat).isSome = true)
    (rows : ∀ f3 : BitVec 3, (name f3.toNat).isSome = true →
      ∃ e ∈ catalog, e.mask = 0x707F#32 ∧ e.pattern = encodeI f3 op 0 0 0) :
    ∃ e ∈ catalog, e.accepts w = true := by
  obtain ⟨e, he, hm, hp⟩ := rows _ hn
  exact ⟨e, he, beq_iff_eq.mpr (by rw [hm, hp, and_funct3Mask_eq_iff]; exact ⟨rfl, BitVec.eq_of_toNat_eq hop⟩)⟩

/-- The same for a table of one major opcode and one `funct7`. -/
theorem accepted_of_funct7_name (name : Nat → Option String) (hop : (fieldOpcode w).toNat = op.toNat)
    (h7 : (fieldFunct7 w).toNat = f7.toNat) (hn : (name (fieldFunct3 w).toNat).isSome = true)
    (rows : ∀ f3 : BitVec 3, (name f3.toNat).isSome = true →
      ∃ e ∈ catalog, e.mask = 0xFE00707F#32 ∧ e.pattern = encodeR f7 f3 op 0 0 0) :
    ∃ e ∈ catalog, e.accepts w = true :=
  accepted_of_funct7 hop rfl h7 (rows _ hn)

/-- Opcode by opcode, in the order of `opcodeMap`. -/
theorem accepted_of_opcodeMap (h : (opcodeMap w).isSome = true) : ∃ e ∈ catalog, e.accepts w = true := by
  unfold opcodeMap at h
  extract_lets funct3 funct7 at h
  split at h
  next hop => exact accepted_of_opcode (op := 0b0110111) hop (by decide +kernel)
  next hop => exact accepted_of_opcode (op := 0b0010111) hop (by decide +kernel)
  next hop => exact accepted_of_opcode (op := 0b1101111) hop (by decide +kernel)
  next hop =>
    exact accepted_of_funct3_name (op := 0b1100111) (fun n => if n = 0 then some "jalr" else none) hop h (by decide +kernel)
  next hop => exact accepted_of_funct3_name (op := 0b1100011) (fun n => (_ : List _)[n]?.join) hop h (by decide +kernel)
  next hop => exact accepted_of_funct3_name (op := 0b0000011) (fun n => (_ : List _)[n]?.join) hop h (by decide +kernel)
  next hop => exact accepted_of_funct3_name (op := 0b0100011) (fun n => (_ : List _)[n]?) hop h (by decide +kernel)
  next hop =>
    split at h
    next h3 =>
      split at h
      next h7 => exact accepted_of_funct7 (op := 0b0010011) (f3 := 1) (f7 := 0) hop h3 h7 (by decide +kernel)
      next => cases h
    split at h
    next h3 =>
      split at h
      next h7 => exact accepted_of_funct7 (op := 0b0010011) (f3 := 5) (f7 := 0) hop h3 h7 (by decide +kernel)
      split at h
      next h7 => exact accepted_of_funct7 (op := 0b0010011) (f3 := 5) (f7 := 0b0100000) hop h3 h7 (by decide +kernel)
      next => cases h
    exact accepted_of_funct3_name (op := 0b0010011) (fun n => (_ : List _)[n]?.join) hop h (by decide +kernel)
  next hop =>
    split at h
    next h7 =>
      exact accepted_of_funct7_name (op := 0b0110011) (f7 := 0) (fun n => (_ : List _)[n]?) hop h7 h (by decide +kernel)
    split at h
    next h7 =>
      split at h
      next h3 => exact accepted_of_funct7 (op := 0b0110011) (f3 := 0) (f7 := 0b0100000) hop h3 h7 (by decide +kernel)
      split at h
      next h3 => exact accepted_of_funct7 (op := 0b0110011) (f3 := 5) (f7 := 0b0100000) hop h3 h7 (by decide +kernel)
      next => cases h
    split at h
    next h7 =>
      exact accepted_of_funct7_name (op := 0b0110011) (f7 := 1) (fun n => (_ : List _)[n]?) hop h7 h (by decide +kernel)
    next => cases h
  next hop => exact accepted_of_funct3_name (op := 0b0001111) (fun n => (_ : List _)[n]?) hop h (by decide +kernel)
  next hop =>
    split at h
    · split at h
      next hw => rw [hw]; decide +kernel
      split at h
      next hw => rw [hw]; decide +kernel
      next => cases h
    · exact accepted_of_funct3_name (op := 0b1110011) (fun n => (_ : List _)[n]?.join) hop h (by decide +kernel)
  next => cases h

end

/-! ## The map and the templates agree -/

theorem resolve_mnemonic (w : Word) : (resolve w).map (·.mnemonic) = opcodeMap w := by
  cases hr : resolve w with
  | some e =>
    obtain ⟨he, ha⟩ := resolve_eq_some_iff.mp hr
    exact (catalog_named e he w (beq_iff_eq.mp ha)).symm
  | none =>
    cases hm : opcodeMap w with
    | none => rfl
    | some n =>
      obtain ⟨e, he, ha⟩ := accepted_of_opcodeMap (w := w) (by rw [hm]; rfl)
      rw [resolve_eq_some_of_accepts he ha] at hr
      cases hr

/-- Settles O7. -/
theorem templatesRefineTheOpcodeMap : Obligations.TemplatesRefineTheOpcodeMap := resolve_mnemonic

/-! ## The reserved sub-encodings (R115) -/

theorem decode_of_opcodeMap_eq_none {w : Word} (h : opcodeMap w = none) : decode w = .error (.noTemplate w) := by
  have hr := resolve_mnemonic w
  rw [h, Option.map_eq_none_iff] at hr
  exact Machine.decode_of_resolve_eq_none hr

section
variable {w : Word}

/-- Under the opcode of the immediate instructions `funct3` 001 is SLLI alone (R110). -/
theorem opcodeMap_shiftLeft_none (hop : fieldOpcode w = 0b0010011) (h3 : fieldFunct3 w = 0b001)
    (h0 : fieldFunct7 w ≠ 0) : opcodeMap w = none := by
  have h0 : (fieldFunct7 w).toNat ≠ 0 := BitVec.toNat_ne_iff_ne.mpr h0
  simp [opcodeMap, hop, h3, h0]

/-- Under the opcode of the immediate instructions `funct3` 101 is SRLI or SRAI (R110). -/
theorem opcodeMap_shiftRight_none (hop : fieldOpcode w = 0b0010011) (h3 : fieldFunct3 w = 0b101)
    (h0 : fieldFunct7 w ≠ 0) (h32 : fieldFunct7 w ≠ 0b0100000) : opcodeMap w = none := by
  have h0 : (fieldFunct7 w).toNat ≠ 0 := BitVec.toNat_ne_iff_ne.mpr h0
  have h32 : (fieldFunct7 w).toNat ≠ 0b0100000 := BitVec.toNat_ne_iff_ne.mpr h32
  simp [opcodeMap, hop, h3, h0, h32]

/-- Register-register: `funct7` is 0, 1, or that of SUB and SRA (R110). -/
theorem opcodeMap_reg_none (hop : fieldOpcode w = 0b0110011) (h0 : fieldFunct7 w ≠ 0) (h1 : fieldFunct7 w ≠ 1)
    (h32 : ¬ (fieldFunct7 w = 0b0100000 ∧ (fieldFunct3 w = 0b000 ∨ fieldFunct3 w = 0b101))) : opcodeMap w = none := by
  have h0 : (fieldFunct7 w).toNat ≠ 0 := BitVec.toNat_ne_iff_ne.mpr h0
  have h1 : (fieldFunct7 w).toNat ≠ 1 := BitVec.toNat_ne_iff_ne.mpr h1
  by_cases h7 : fieldFunct7 w = 0b0100000
  · obtain ⟨hsub, hsra⟩ := not_or.mp fun h3 => h32 ⟨h7, h3⟩
    have hsub : (fieldFunct3 w).toNat ≠ 0 := BitVec.toNat_ne_iff_ne.mpr hsub
    have hsra : (fieldFunct3 w).toNat ≠ 5 := BitVec.toNat_ne_iff_ne.mpr hsra
    simp [opcodeMap, hop, h7, hsub, hsra]
  · have h7 : (fieldFunct7 w).toNat ≠ 0b0100000 := BitVec.toNat_ne_iff_ne.mpr h7
    simp [opcodeMap, hop, h0, h1, h7]

theorem opcodeMap_csr_none (hop : fieldOpcode w = 0b1110011) (h3 : fieldFunct3 w = 0b100) : opcodeMap w = none := by
  simp [opcodeMap, hop, h3]

/-- Under SYSTEM `funct3` 000 is ECALL and EBREAK alone (R112). -/
theorem opcodeMap_system_none (hop : fieldOpcode w = 0b1110011) (h3 : fieldFunct3 w = 0b000)
    (hecall : w ≠ 0x00000073#32) (hebreak : w ≠ 0x00100073#32) : opcodeMap w = none := by
  simp [opcodeMap, hop, h3, hecall, hebreak]

/-- Bit 25 of a word is bit 0 of its `funct7`. -/
theorem fieldFunct7_ne_of_bit25 (h : w.getLsbD 25 = true) {f7 : BitVec 7} (hf : f7.getLsbD 0 = false) :
    fieldFunct7 w ≠ f7 := by
  rintro rfl
  have hbit : (fieldFunct7 w).getLsbD 0 = w.getLsbD 25 := BitVec.getLsbD_extractLsb' ..
  rw [hbit, h] at hf
  cases hf

end

/-- Settles O8: the map names no reserved sub-encoding. -/
theorem reservedSubEncodingsHaveNoTemplate : Obligations.ReservedSubEncodingsHaveNoTemplate := by
  intro w h
  apply decode_of_opcodeMap_eq_none
  obtain ⟨hop, h3, h0⟩ | ⟨hop, h3, h0, h32⟩ | ⟨hop, h3 | h3, hbit⟩ | ⟨hop, h0, h1, h32⟩ | ⟨hop, h3⟩ |
    ⟨hop, h3, hecall, hebreak⟩ := h
  · exact opcodeMap_shiftLeft_none hop h3 h0
  · exact opcodeMap_shiftRight_none hop h3 h0 h32
  · exact opcodeMap_shiftLeft_none hop h3 (fieldFunct7_ne_of_bit25 hbit rfl)
  · exact opcodeMap_shiftRight_none hop h3 (fieldFunct7_ne_of_bit25 hbit rfl) (fieldFunct7_ne_of_bit25 hbit rfl)
  · exact opcodeMap_reg_none hop h0 h1 h32
  · exact opcodeMap_csr_none hop h3
  · exact opcodeMap_system_none hop h3 hecall hebreak

end Sys2Proof
end

section
/-!
PROOFS. The number of a template bit by bit, so that its match and mask are its digits (30_encoding.md R107, R108), and the words of
the spec read by the decoder.
-/

namespace Sys2Proof

/-! ## Templates, digit by digit -/

/-- The last character is bit 0. -/
theorem Template.number_append_singleton (p : TemplateSym → Bool) (t : Template) (c : TemplateSym) :
    Template.number p (t ++ [c]) = Nat.bit (p c) (t.number p) := by
  rw [Template.number, List.foldl_append, Nat.bit_val]
  rfl

/-- The leftmost character of a template is the highest bit of its number. -/
theorem Template.testBit_number (p : TemplateSym → Bool) (t : Template) {k : Nat} (hk : k < t.length) :
    (t.number p).testBit (t.length - 1 - k) = p t[k] := by
  induction t using List.reverseRecOn with
  | nil => cases hk
  | append_singleton t c ih =>
    rw [Template.number_append_singleton]
    rw [List.length_append, List.length_singleton] at hk
    rcases Nat.lt_succ_iff_lt_or_eq.mp hk with hlt | rfl
    · have hbit : (t ++ [c]).length - 1 - k = (t.length - 1 - k) + 1 := by simp; omega
      rw [hbit, Nat.testBit_bit_succ, ih hlt, List.getElem_append_left hlt]
    · simp

section
variable {t : Template} {k : Nat} (ht : t.length = 32) (hk : k < 32)
include ht hk

theorem Template.getLsbD_number (p : TemplateSym → Bool) :
    (BitVec.ofNat 32 (t.number p)).getLsbD (31 - k) = p t[k] := by
  rw [BitVec.getLsbD_ofNat, decide_eq_true (by omega), Bool.true_and, show 31 - k = t.length - 1 - k by omega,
    Template.testBit_number]

end

theorem Format.length_of_mem_shapes {f : Format} {s : List (Option TemplateSym)} (h : s ∈ f.shapes) : s.length = 32 := by
  revert s
  cases f <;> decide +kernel

/-- What an entry that fits its format holds (R132). -/
theorem CatalogEntry.wellFormed_parts {e : CatalogEntry} (h : e.wellFormed = true) :
    e.template.length = 32 ∧ e.mask = e.template.mask ∧ e.pattern = e.template.pattern := by
  simp only [CatalogEntry.wellFormed, Bool.and_eq_true, beq_iff_eq, List.contains_iff_mem] at h
  obtain ⟨⟨hshape, hmask⟩, hpattern⟩ := h
  exact ⟨by simpa using Format.length_of_mem_shapes hshape, hmask, hpattern⟩

/-- Where the template has a digit, the masked bit must be it; where it has none, nothing is asked. -/
theorem TemplateSym.masked_bit_iff (c : TemplateSym) (b : Bool) :
    (b && (c == .zero || c == .one)) = (c == .one) ↔ (c = .zero → b = false) ∧ (c = .one → b = true) := by
  cases c <;> cases b <;> decide

theorem Template.match_iff {t : Template} (ht : t.length = 32) (w : Word) :
    w &&& t.mask = t.pattern ↔
      ∀ k, k < 32 → (t[k]? = some .zero → w.getLsbD (31 - k) = false) ∧
        (t[k]? = some .one → w.getLsbD (31 - k) = true) := by
  have hbit (k : Nat) (hk : k < 32) : (w &&& t.mask).getLsbD (31 - k) = t.pattern.getLsbD (31 - k) ↔
      (t[k]? = some .zero → w.getLsbD (31 - k) = false) ∧ (t[k]? = some .one → w.getLsbD (31 - k) = true) := by
    rw [BitVec.getLsbD_and, Template.mask, Template.pattern, Template.getLsbD_number ht hk, Template.getLsbD_number ht hk,
      TemplateSym.masked_bit_iff, List.getElem?_eq_getElem, Option.some.injEq, Option.some.injEq]
  rw [BitVec.eq_of_getLsbD_eq_iff]
  refine ⟨fun h k hk => (hbit k hk).mp (h _ (by omega)), fun h i hi => ?_⟩
  have hk := (hbit (31 - i) (by omega)).mpr (h _ (by omega))
  rwa [show 31 - (31 - i) = i by omega] at hk

/-- Settles O6. -/
theorem templateDecidesTheMatch : Obligations.TemplateDecidesTheMatch := by
  intro e he
  obtain ⟨hlen, hmask, hpattern⟩ := CatalogEntry.wellFormed_parts he
  refine ⟨hlen, fun w => ?_⟩
  rw [CatalogEntry.accepts, beq_iff_eq, hmask, hpattern]
  exact Template.match_iff hlen w

/-! ## Words of the spec -/

/-- Settles O1: the decoder runs on each word. -/
theorem specWordsDecode : Obligations.SpecWordsDecode :=
  ⟨rfl, rfl, rfl, rfl, rfl, rfl, rfl, rfl, rfl, rfl, rfl, rfl, rfl, rfl, rfl⟩

end Sys2Proof
end

section
/-!
PROOFS. A step at the boundary (40_dispatch.md R145 to R150): what it answers when the run is over, when a request or the step limit
holds it back, and when it goes on to the instruction; how far it moves `step_count` and so how long a run with a step limit lasts.
-/

namespace Sys2Proof.Machine

section
variable {s t : State}

/-! ## A run that is over -/

theorem step_halted (h : s.runState = .halted) : step s = .fault .runHalted := by
  simp only [step, boundary_halted h]

theorem simulate_halted (h : s.runState = .halted) : ∀ k, simulate k s = .next s
  | 0 => rfl
  | k + 1 => by simp only [simulate, h]

/-! ## A step that the boundary holds back -/

theorem step_external (h : s.runState = .running) (hq : stopSample s = .externalStop) :
    step s = .next (halt .externalStop (takeSample s)) := by
  simp only [step, boundary_external h hq]

theorem step_breakpoint (h : s.runState = .running) (hq : stopSample s = .breakpoint) :
    step s = .next (halt .breakpoint (takeSample s)) := by
  simp only [step, boundary_breakpoint h hq]

theorem step_limit (h : s.runState = .running) (hq : stopSample s = .none) (hl : stepLimitReached s = true) :
    step s = .next (halt .stepLimit (takeSample s)) := by
  simp only [step, boundary_limit h hq hl]

theorem stepLimitReached_eq {n : Nat} (h : s.config.maxSteps = some n) : stepLimitReached s = decide (n ≤ s.stepCount) := by
  simp only [stepLimitReached, h]

theorem stepCount_lt_of_not_reached {n : Nat} (h : s.config.maxSteps = some n) (hl : stepLimitReached s = false) :
    s.stepCount < n :=
  Nat.not_le.mp (of_decide_eq_false ((stepLimitReached_eq h).symm.trans hl))

/-! ## A step that goes on -/

theorem decodeBytes_read (m : Memory) (a : Word) (i : Instr) :
    decodeBytes [m.byteAt a, m.byteAt (a + 1), m.byteAt (a + 2), m.byteAt (a + 3)] = .ok (i, []) ↔
      decode (m.read a .word) = .ok i := by
  have hw : wordOfBytes (m.byteAt a) (m.byteAt (a + 1)) (m.byteAt (a + 2)) (m.byteAt (a + 3)) = m.read a .word := rfl
  rw [decodeBytes, hw]
  cases decode (m.read a .word) <;> simp

/-- The Reason after an instruction: none of its own, or that of an exit or of a fault (R148, R149). -/
theorem exec_reason {i : Instr} (h : exec i s = .next t) :
    t.reason = s.reason ∨ t.reason = some .normalTermination ∨ t.reason = some .exception := by
  cases exec_next h with
  | raises => exact .inr (.inr rfl)
  | retires _ hw => exact .inl hw.reason
  | exits => exact .inr (.inl rfl)

/-- A boundary that holds nothing back leaves the end of the run to the instruction and its fetch (R283). -/
theorem step_reason (hq : stopSample s = .none) (hl : stepLimitReached s = false) (h : step s = .next t) :
    t.reason = s.reason ∨ t.reason = some .normalTermination ∨ t.reason = some .exception := by
  have hc := step_cases s
  generalize hr : step s = r at hc
  rw [h] at hr
  cases hc with
  | undefined => cases hr
  | request _ hreason => simp [hq, hl] at hreason
  | fetchRaises => cases hr; exact .inr (.inr rfl)
  | fetchStuck => cases hr
  | noTemplate => cases hr; exact .inr (.inr rfl)
  | runs => exact exec_reason (s := fetchState s) hr.symm

/-- A step ends the run and retires nothing, or was below the step limit and retires one instruction (R147, R148). -/
theorem step_counts (h : step s = .next t) : (t.runState = .halted ∧ t.stepCount = s.stepCount) ∨
    (stepLimitReached s = false ∧ t.stepCount = s.stepCount + 1) := by
  have hc := step_cases s
  generalize hr : step s = r at hc
  rw [h] at hr
  cases hc with
  | undefined => cases hr
  | request => cases hr; exact .inl ⟨rfl, rfl⟩
  | fetchRaises => cases hr; exact .inl ⟨rfl, rfl⟩
  | fetchStuck => cases hr
  | noTemplate => cases hr; exact .inl ⟨rfl, rfl⟩
  | runs _ hl =>
    cases exec_next hr.symm with
    | raises => exact .inl ⟨rfl, rfl⟩
    | retires _ hw => exact .inr ⟨hl, congrArg (· + 1) hw.stepCount⟩
    | exits _ hw => exact .inr ⟨hl, congrArg (· + 1) hw.stepCount⟩

theorem step_next_or_notAdmitted (h : s.runState = .running) :
    (∃ t, step s = .next t) ∨ ∃ a n k, step s = .fault (.accessNotAdmitted a n k) := by
  have hc := step_cases s
  generalize step s = r at hc ⊢
  cases hc with
  | undefined hh => rw [h] at hh; cases hh
  | request => exact .inl ⟨_, rfl⟩
  | fetchRaises => exact .inl ⟨_, rfl⟩
  | fetchStuck => exact .inr ⟨_, _, _, rfl⟩
  | noTemplate => exact .inl ⟨_, rfl⟩
  | runs =>
    obtain ht | ⟨a, n, k, hf, -⟩ := exec_next_or_notAdmitted _ (fetchState s)
    · exact .inl ht
    · exact .inr ⟨a, n, k, hf⟩

/-! ## A run with a step limit -/

theorem simulate_succ_of_next (h : s.runState = .running) (hs : step s = .next t) (k : Nat) :
    simulate (k + 1) s = simulate k t := by
  simp only [simulate, h, hs]

theorem simulate_succ_of_fault {r : Fault} (h : s.runState = .running) (hs : step s = .fault r) (k : Nat) :
    simulate (k + 1) s = .fault r := by
  simp only [simulate, h, hs]

/-- The state has a step limit of `n` and has retired no more than that. -/
def WithinLimit (n : Nat) (s : State) : Prop := s.config.maxSteps = some n ∧ s.stepCount ≤ n

/-- Only a step below the limit retires, so none passes it. -/
theorem WithinLimit.step {n : Nat} (hs : WithinLimit n s) (h : step s = .next t) : WithinLimit n t := by
  obtain ⟨hn, hle⟩ := hs
  refine ⟨by rw [(step_sameFixed h).config, hn], ?_⟩
  obtain ⟨-, hcount⟩ | ⟨hl, hcount⟩ := step_counts h
  · rwa [hcount]
  · rw [hcount]
    exact stepCount_lt_of_not_reached hn hl

/-- Each step that does not end the run uses up one of the `n - step_count` that are left, and one more ends it. -/
theorem simulate_ends {n k : Nat} (hn : s.config.maxSteps = some n) (hk : n - s.stepCount < k) :
    (∃ t, simulate k s = .next t ∧ t.runState = .halted) ∨
      ∃ a z kind, simulate k s = .fault (.accessNotAdmitted a z kind) := by
  induction k generalizing s with
  | zero => cases hk
  | succ k ih =>
    cases hr : s.runState with
    | halted => exact .inl ⟨s, simulate_halted hr _, hr⟩
    | running =>
      obtain ⟨t, ht⟩ | ⟨a, z, kind, hf⟩ := step_next_or_notAdmitted hr
      · rw [simulate_succ_of_next hr ht]
        obtain ⟨hhalt, -⟩ | ⟨hl, hcount⟩ := step_counts ht
        · exact .inl ⟨t, simulate_halted hhalt k, hhalt⟩
        · have hlt := stepCount_lt_of_not_reached hn hl
          exact ih (by rw [(step_sameFixed ht).config, hn]) (by omega)
      · exact .inr ⟨a, z, kind, simulate_succ_of_fault hr hf k⟩

end

/-- Settles O12: `WithinLimit` is kept along the run, and the steps left below the limit run out. -/
theorem stepLimitEndsTheRun : Obligations.StepLimitEndsTheRun := by
  intro s n k _ hn hle
  refine ⟨fun t ht => ?_, simulate_ends hn⟩
  have hs : WithinLimit n s := ⟨hn, hle⟩
  obtain ⟨-, hcount⟩ := simulate_keeps (fun hu h => WithinLimit.step hu h) hs ht
  exact hcount

/-- Settles O11, by the order of the checks at the boundary. -/
theorem boundaryEventsComeInOrder : Obligations.BoundaryEventsComeInOrder := by
  intro s hr
  refine ⟨step_external hr, step_breakpoint hr, fun n hq hn hle => ?_, fun hq hl t ht => ?_⟩
  · exact step_limit hr hq (by rw [stepLimitReached_eq hn, decide_eq_true hle])
  · exact step_reason hq (stepLimitReached_eq_false hl) ht

/-- Settles O9: the four bytes at the pc are the word that the fetch reads. -/
theorem stepRunsTheDecodedInstruction : Obligations.StepRunsTheDecodedInstruction := by
  intro s i hr hq hl hp hin ha hi
  rw [step_fetched hr hq (stepLimitReached_eq_false hl) (misalignedTarget_eq_false.mpr hp) hin ha,
    (decodeBytes_read ..).mp hi]
  rfl

/-- Settles O10. -/
theorem haltedRunIsFinal : Obligations.HaltedRunIsFinal := fun _ h => ⟨step_halted h, simulate_halted h⟩

end Sys2Proof.Machine
end

section
/-!
PROOFS. A step that ends in a fault (40_dispatch.md R140; 60_exceptions.md R272, R284): it is one `raise` on the state at the boundary, with
one sample taken and at most its own fetch issued.
-/

namespace Sys2Proof.Machine

/-- The word that a fault records and the requests the step has issued: none before the fetch, then the fetched word and the fetch
(R272). -/
def FetchRecorded (s : State) (word : Option Word) (port : List MemRequest) : Prop :=
  word = none ∧ port = s.memPort ∨ word = some (s.mem.read s.pc .word) ∧ port = .read .fetch s.pc .word :: s.memPort

/-- A step that newly ends with Reason `EXCEPTION` has raised; a handler's word is the fetched one, as `encode` undoes `decode`. -/
theorem step_raises {s t : State} (hs : s.reason = none) (h : step s = .next t) (ht : t.reason = some .exception) :
    ∃ port w d v, t = raise w d v (sampled port s) ∧ FetchRecorded s w port := by
  have hc := step_cases s
  generalize hr : step s = r at hc
  rw [h] at hr
  cases hc with
  | undefined => cases hr
  | request _ hreason => cases hr; cases ht; simp at hreason
  | fetchRaises => cases hr; exact ⟨_, _, _, _, rfl, .inl ⟨rfl, rfl⟩⟩
  | fetchStuck => cases hr
  | noTemplate => cases hr; exact ⟨_, _, _, _, rfl, .inr ⟨rfl, rfl⟩⟩
  | runs _ _ _ _ hi =>
    cases exec_next hr.symm with
    | raises d v => exact ⟨_, _, d, v, rfl, .inr ⟨congrArg some (encodeOfDecode _ _ hi).1, rfl⟩⟩
    | retires _ hw => cases (hw.reason.trans hs).symm.trans ht
    | exits => cases ht

/-- Settles O14, from the one `raise` that the step has done. -/
theorem everyFaultIsPrecise : Obligations.EveryFaultIsPrecise := by
  intro s t hs h ht
  obtain ⟨port, w, d, v, rfl, hfetch⟩ := step_raises hs h ht
  exact ⟨faultRecord w d v s, rfl, rfl, rfl, lineRecorded_lineAt s, hfetch⟩

end Sys2Proof.Machine
end

section
/-!
PROOFS. The registry (40_dispatch.md R130 to R137): what registration and a build accept, when two entries collide, and what `resolve`
answers.
-/

namespace Sys2Proof

/-! ## Collisions (R133) -/

theorem CatalogEntry.accepts_iff {e : CatalogEntry} {w : Word} : e.accepts w = true ↔ w &&& e.mask = e.pattern :=
  beq_iff_eq

theorem CatalogEntry.collides_iff {a b : CatalogEntry} :
    a.collides b = true ↔ (a.pattern ^^^ b.pattern) &&& a.mask &&& b.mask = 0#32 := beq_iff_eq

/-- The match of an entry that fits its format has no bit outside the mask (R108). -/
theorem CatalogEntry.pattern_and_mask {e : CatalogEntry} (h : e.wellFormed = true) : e.pattern &&& e.mask = e.pattern := by
  obtain ⟨hlen, hmask, hpattern⟩ := CatalogEntry.wellFormed_parts h
  apply BitVec.eq_of_getLsbD_eq
  intro i hi
  obtain ⟨k, hk, rfl⟩ : ∃ k, k < 32 ∧ i = 31 - k := ⟨31 - i, by omega, by omega⟩
  rw [BitVec.getLsbD_and, hmask, hpattern, Template.mask, Template.pattern, Template.getLsbD_number hlen hk,
    Template.getLsbD_number hlen hk]
  cases e.template[k] <;> rfl

/-- Where two patterns differ on no bit that both masks keep, the bits of either make a word that matches the first (R133). -/
theorem or_and_eq_of_agree {p q m n : Word} (hp : p &&& m = p) (hq : q &&& n = q) (h : (p ^^^ q) &&& m &&& n = 0#32) :
    (p ||| q) &&& m = p := by
  apply BitVec.eq_of_getLsbD_eq
  intro i _
  have hbits : ∀ p q m n : Bool, (p && m) = p → (q && n) = q → ((p ^^ q) && m && n) = false → ((p || q) && m) = p := by
    decide
  have hp := congrArg (·.getLsbD i) hp
  have hq := congrArg (·.getLsbD i) hq
  have h := congrArg (·.getLsbD i) h
  simp only [BitVec.getLsbD_and, BitVec.getLsbD_xor, BitVec.getLsbD_zero] at hp hq h
  rw [BitVec.getLsbD_and, BitVec.getLsbD_or]
  exact hbits _ _ _ _ hp hq h

theorem exists_accepts_of_collides {a b : CatalogEntry} (ha : a.wellFormed = true) (hb : b.wellFormed = true)
    (h : a.collides b = true) : ∃ w, a.accepts w = true ∧ b.accepts w = true := by
  rw [CatalogEntry.collides_iff] at h
  have hpa := CatalogEntry.pattern_and_mask ha
  have hpb := CatalogEntry.pattern_and_mask hb
  refine ⟨a.pattern ||| b.pattern, CatalogEntry.accepts_iff.mpr (or_and_eq_of_agree hpa hpb h), ?_⟩
  rw [CatalogEntry.accepts_iff, BitVec.or_comm]
  refine or_and_eq_of_agree hpb hpa ?_
  rw [BitVec.xor_comm, BitVec.and_assoc, BitVec.and_comm b.mask, ← BitVec.and_assoc, h]

/-! ## Registration (R132, R134) -/

theorem register_eq_ok_iff {c c' : Catalog} {e : CatalogEntry} :
    register c e = .ok c' ↔ (e.wellFormed = true ∧ ∀ o ∈ c, e.collides o = false) ∧ c' = c ++ [e] := by
  constructor
  · intro h
    unfold register at h
    split at h
    next => cases h
    next hwf =>
      split at h
      next => cases h
      next hfind =>
        cases h
        exact ⟨⟨by simpa using hwf, fun o ho => by simpa using List.find?_eq_none.mp hfind o ho⟩, rfl⟩
  · rintro ⟨⟨hwf, hc⟩, rfl⟩
    exact Machine.register_ok hwf hc

/-- What a build has registered fits its format and collides with nothing before it. -/
theorem of_foldlM_register_ok {rows c c' : Catalog} (h : rows.foldlM register c = .ok c') :
    (∀ e ∈ rows, e.wellFormed = true ∧ ∀ o ∈ c, e.collides o = false) ∧ rows.Pairwise fun a b => b.collides a = false := by
  induction rows generalizing c with
  | nil => exact ⟨fun _ he => absurd he List.not_mem_nil, .nil⟩
  | cons e rows ih =>
    rw [List.foldlM_cons] at h
    cases hreg : register c e with
    | error => rw [hreg] at h; cases h
    | ok d =>
      rw [hreg] at h
      obtain ⟨he, rfl⟩ := register_eq_ok_iff.mp hreg
      obtain ⟨hrows, hpair⟩ := ih h
      refine ⟨List.forall_mem_cons.mpr ⟨he, fun a ha => ⟨(hrows a ha).1, fun o ho => ?_⟩⟩, .cons (fun a ha => ?_) hpair⟩
      · exact (hrows a ha).2 o (List.mem_append_left _ ho)
      · exact (hrows a ha).2 e (List.mem_append_right _ List.mem_cons_self)

theorem buildRegistry_ok_iff {rows : Catalog} : buildRegistry rows = .ok rows ↔
    (∀ e ∈ rows, e.wellFormed = true) ∧ rows.Pairwise fun a b => b.collides a = false := by
  refine ⟨fun h => ?_, fun ⟨hwf, hp⟩ => Machine.buildRegistry_ok hwf hp⟩
  obtain ⟨hrows, hpair⟩ := of_foldlM_register_ok h
  exact ⟨fun e he => (hrows e he).1, hpair⟩

/-! ## The statements -/

/-- Settles O5: of two colliding entries the bits of either match form a word that both accept. -/
theorem registryRefusesCollisions : Obligations.RegistryRefusesCollisions := by
  refine ⟨fun a b ha hb => ⟨⟨exists_accepts_of_collides ha hb, ?_⟩, CatalogEntry.collides_iff⟩, fun c e => ⟨?_, ?_⟩,
    fun _ => buildRegistry_ok_iff, Machine.buildRegistry_catalog⟩
  · rintro ⟨w, haw, hbw⟩
    exact collides_of_accepts haw hbw
  · simp only [register_eq_ok_iff, exists_and_left, exists_eq, and_true]
  · exact fun c' h => (register_eq_ok_iff.mp h).2

/-- Settles O4: a matching row is the one that `resolve` finds. -/
theorem resolveYieldsTheUniqueEntry : Obligations.ResolveYieldsTheUniqueEntry := by
  intro w
  simp only [← CatalogEntry.accepts_iff, ne_eq]
  refine ⟨fun e => resolve_eq_some_iff, fun a ha b hb haw hbw => ?_, List.find?_eq_none⟩
  have ha := resolve_eq_some_of_accepts ha haw
  have hb := resolve_eq_some_of_accepts hb hbw
  exact Option.some.inj (ha.symm.trans hb)

end Sys2Proof
end

section
/-!
PROOFS. The CSR File of a well-formed map and its gates (10_state.md R33 to R38; 41_csr_instructions.md R160, R161): an address names one
entry, and a CSR access answers what the three gates let it.
-/

namespace Sys2Proof.Machine

section
variable {i : Instr} {rd : RegIdx} {a : CsrAddr} {w : Bool} {new : Word → Word} {s t : State} {c e : CsrReg}

/-! ## One entry per address (R34, R35) -/

theorem csr_eq_of_addr_eq (hwf : csrMapWellFormed (s.csrs.map (·.entry)) = true) (hc : c ∈ s.csrs) (he : e ∈ s.csrs)
    (h : c.entry.addr = e.entry.addr) : c = e := by
  obtain ⟨hp, -⟩ := (csrMapWellFormed_iff _).mp hwf
  have hnodup : (s.csrs.map (·.entry.addr)).Nodup := by
    simpa only [List.Nodup, List.pairwise_map] using hp
  exact List.inj_on_of_nodup_map hnodup hc he h

theorem CsrEntryAt.lookup (h : CsrEntryAt a s e) : csrLookup a s = .ok e := by
  unfold csrLookup
  split
  next c hc =>
    have haddr : c.entry.addr = a.toNat := by simpa using List.find?_some hc
    rw [csr_eq_of_addr_eq h.wf (List.mem_of_find?_eq_some hc) h.mem (haddr.trans h.addr.symm)]
  next hnone => exact absurd (List.find?_eq_none.mp hnone e h.mem) (by simp [h.addr])

/-- A writable entry has no update behaviour, so it reads its stored value (R34, R37). -/
theorem CsrEntryAt.csrGet_of_writable (h : CsrEntryAt a s e) (hrw : e.entry.access = .RW) : csrGet e s = e.value := by
  obtain ⟨-, hall⟩ := (csrMapWellFormed_iff _).mp h.wf
  obtain ⟨-, hupdate, -⟩ := hall e.entry (List.mem_map_of_mem h.mem)
  have hnone : e.entry.update = .none := by
    by_contra hu
    exact absurd (hrw.symm.trans (hupdate hu)) (by decide)
  simp only [csrGet, hnone]

theorem csrReadsAs_csrGet (e : CsrReg) (s : State) : CsrReadsAs e s (csrGet e s) := by
  unfold CsrReadsAs csrGet
  cases e.entry.update with
  | none => rfl
  | stepsLo => rfl
  | stepsHi => exact congrArg (BitVec.ofNat 32) (Nat.shiftRight_eq_div_pow ..)

/-! ## The gates (R160) -/

theorem csrCheck_absent (h : ∀ e ∈ s.csrs, e.entry.addr ≠ a.toNat) : csrCheck a w s = .error .csrUnavailable := by
  obtain ⟨-, hc⟩ | ⟨e, hl, -⟩ := csrCheck_cases a w s
  · exact hc
  · obtain ⟨he, haddr⟩ := csrLookup_ok hl
    exact absurd haddr (h e he)

theorem CsrEntryAt.check_gated (h : CsrEntryAt a s e) (hg : Gated e s) : csrCheck a w s = .error .csrGate := by
  simp only [csrCheck, h.lookup, if_pos hg]

theorem CsrEntryAt.check_readOnly (h : CsrEntryAt a s e) (hg : ¬ Gated e s) (hro : e.entry.access = .RO) :
    csrCheck a true s = .error .csrReadOnly := by
  simp only [csrCheck, h.lookup, if_neg hg, hro, Bool.true_and, beq_self_eq_true, if_true]

theorem CsrEntryAt.check_passes (h : CsrEntryAt a s e) (hg : ¬ Gated e s) (hrw : w = true → e.entry.access = .RW) :
    csrCheck a w s = .ok e := by
  cases w with
  | false => simp only [csrCheck, h.lookup, if_neg hg, Bool.false_and, Bool.false_eq_true, if_false]
  | true => simp [csrCheck, h.lookup, if_neg hg, hrw rfl]

/-- What has passed the gates is an entry of the CSR File, not behind the privilege gate, and writable if it is to be written. -/
theorem of_csrCheck_ok (h : csrCheck a w s = .ok e) :
    e ∈ s.csrs ∧ ¬ Gated e s ∧ ¬ (w = true ∧ e.entry.access = .RO) := by
  obtain ⟨-, hc⟩ | ⟨c, hl, hc⟩ := csrCheck_cases a w s
  · cases hc.symm.trans h
  · obtain ⟨-, hc⟩ | ⟨-, -, -, hc⟩ | ⟨hg, hro, hc⟩ := hc
    · cases hc.symm.trans h
    · cases hc.symm.trans h
    · cases hc.symm.trans h
      exact ⟨(csrLookup_ok hl).1, hg, hro⟩

/-! ## The access (R161) -/

/-- An access that fails a gate records its address as the value (R170). -/
theorem csrAccess_faults {d : Detail} (h : csrCheck a w s = .error d) :
    ∃ t, csrAccess i rd a w new s = .next t ∧
      FaultTaken (some (encode i)) d (some (BitVec.ofNat 32 a.toNat)) s t := by
  rw [csrAccess_error h, BitVec.ofNat_toNat]
  exact raiseIn_spec i d _ s

theorem CsrEntryAt.access_exchanges (h : CsrEntryAt a s e) (hg : ¬ Gated e s) (hrw : e.entry.access = .RW) :
    ∃ t, csrAccess i rd a true new s = .next t ∧ CsrExchanged rd e.value a (fun _ => new e.value) s t := by
  rw [csrAccess_ok (h.check_passes hg fun _ => hrw), h.csrGet_of_writable hrw]
  refine ⟨_, rfl, fun r => readReg_writeReg r rd _ _, ⟨rfl, rfl, rfl, ⟨rfl, rfl, rfl, rfl⟩, ⟨rfl, rfl, rfl, rfl, rfl, rfl⟩⟩, ?_,
    fun _ => rfl, rfl⟩
  rw [← h.addr]
  rfl

theorem CsrEntryAt.access_reads (h : CsrEntryAt a s e) (hg : ¬ Gated e s) :
    ∃ t v, csrAccess i rd a false new s = .next t ∧ CsrReadsAs e s v ∧ WritesOnlyReg rd v (s.pc + 4) s t := by
  rw [csrAccess_ok (h.check_passes hg fun hw => absurd hw Bool.false_ne_true)]
  obtain ⟨t, ht, hw⟩ := writeAndRetire_spec rd (csrGet e s) s
  exact ⟨t, csrGet e s, ht, csrReadsAs_csrGet e s, hw⟩

end

/-- Each of the six is one CSR access, whose new value is no matter of the CSR File but for the prior value (R161, R162). -/
theorem exec_eq_csrAccess {i : Instr} (hi : i.accessesCsr = true) : ∃ rd a w, ∃ new : State → Word → Word,
    (∀ s, exec i s = csrAccess i rd a w (new s) s) ∧ ∀ s csrs, new { s with csrs := csrs } = new s := by
  cases i with
  | csrrw rd csr rs1 => exact ⟨rd, csr, true, fun s _ => readReg rs1 s, fun _ => rfl, fun _ _ => rfl⟩
  | csrrs rd csr rs1 => exact ⟨rd, csr, rs1 != 0#5, fun s old => old ||| readReg rs1 s, fun _ => rfl, fun _ _ => rfl⟩
  | csrrc rd csr rs1 => exact ⟨rd, csr, rs1 != 0#5, fun s old => old &&& ~~~readReg rs1 s, fun _ => rfl, fun _ _ => rfl⟩
  | csrrwi rd csr uimm => exact ⟨rd, csr, true, fun _ _ => uimm5 uimm, fun _ => rfl, fun _ _ => rfl⟩
  | csrrsi rd csr uimm => exact ⟨rd, csr, uimm != 0#5, fun _ old => old ||| uimm5 uimm, fun _ => rfl, fun _ _ => rfl⟩
  | csrrci rd csr uimm => exact ⟨rd, csr, uimm != 0#5, fun _ old => old &&& ~~~uimm5 uimm, fun _ => rfl, fun _ _ => rfl⟩
  | _ => cases hi

end Sys2Proof.Machine
end

section
/-!
PROOFS. What no run can do to a CSR entry that is read-only or behind the privilege gate (10_state.md R38; 41_csr_instructions.md R160;
60_exceptions.md R295): change its stored value.
-/

namespace Sys2Proof.Machine

section
variable {s t : State} {j : Nat} {e : CsrReg}

/-- The entry may not be written: it is read-only or behind the privilege gate. -/
def CsrProtected (e : CsrReg) (s : State) : Prop := e.entry.access = .RO ∨ Gated e s

/-- What has passed the gates to be written is not protected, so it is another entry, at another address. -/
theorem csrAccess_keeps_protected {i : Instr} {rd : RegIdx} {a : CsrAddr} {w : Bool} {new : Word → Word}
    (hwf : csrMapWellFormed (s.csrs.map (·.entry)) = true) (he : s.csrs[j]? = some e) (hp : CsrProtected e s)
    (h : csrAccess i rd a w new s = .next t) : t.csrs[j]? = some e := by
  cases hc : csrCheck a w s with
  | error d =>
    rw [csrAccess_error hc] at h
    cases h
    exact he
  | ok c =>
    obtain ⟨hmem, hgate, hro⟩ := of_csrCheck_ok hc
    rw [csrAccess_ok hc] at h
    cases w with
    | false => cases h; exact he
    | true =>
      cases h
      have hne : e.entry.addr ≠ c.entry.addr := by
        intro haddr
        cases csr_eq_of_addr_eq hwf (List.mem_of_getElem? he) hmem haddr
        exact hp.elim (fun h => hro ⟨rfl, h⟩) hgate
      simp [he, hne]

theorem exec_keeps_protected {i : Instr} (hwf : csrMapWellFormed (s.csrs.map (·.entry)) = true) (he : s.csrs[j]? = some e)
    (hp : CsrProtected e s) (h : exec i s = .next t) : t.csrs[j]? = some e := by
  cases hi : i.accessesCsr with
  | false =>
    have hk : KeepsCsrs s (exec i s) := exec_keepsCsrs hi
    rw [h] at hk
    exact (congrArg (·[j]?) hk).trans he
  | true =>
    obtain ⟨rd, a, w, new, hexec, -⟩ := exec_eq_csrAccess hi
    rw [hexec] at h
    exact csrAccess_keeps_protected hwf he hp h

theorem step_keeps_protected (hwf : csrMapWellFormed (s.csrs.map (·.entry)) = true) (he : s.csrs[j]? = some e)
    (hp : CsrProtected e s) (h : step s = .next t) : t.csrs[j]? = some e := by
  have hc := step_cases s
  generalize hr : step s = r at hc
  rw [h] at hr
  cases hc with
  | undefined => cases hr
  | request => cases hr; exact he
  | fetchRaises => cases hr; exact he
  | fetchStuck => cases hr
  | noTemplate => cases hr; exact he
  | runs => exact exec_keeps_protected (s := fetchState s) hwf he hp hr.symm

/-- The CSR File is well formed and has the protected entry `e` at place `j`. -/
def HoldsProtected (j : Nat) (e : CsrReg) (s : State) : Prop :=
  csrMapWellFormed (s.csrs.map (·.entry)) = true ∧ s.csrs[j]? = some e ∧ CsrProtected e s

theorem HoldsProtected.step (hs : HoldsProtected j e s) (h : step s = .next t) : HoldsProtected j e t := by
  obtain ⟨hwf, he, hp⟩ := hs
  refine ⟨by rw [step_csrEntries h]; exact hwf, step_keeps_protected hwf he hp h, ?_⟩
  rw [CsrProtected, Gated, (step_sameFixed h).priv]
  exact hp

end

/-- Settles O55: `HoldsProtected` is kept along the run. -/
theorem protectedCsrsNeverChange : Obligations.ProtectedCsrsNeverChange := by
  intro s t k j e hwf h he hp
  have hs : HoldsProtected j e s := ⟨hwf, he, hp⟩
  obtain ⟨-, ht, -⟩ := simulate_keeps (fun hu h => HoldsProtected.step hu h) hs h
  exact ht

end Sys2Proof.Machine
end

section
/-!
PROOFS. What stands behind the privilege gate cannot be learned (41_csr_instructions.md R160; 60_exceptions.md R295): to put other values
there before an operation, an instruction, a step or a run is to put them there after it.
-/

namespace Sys2Proof.Machine

/-- The outcome with its next state, if it has one, changed by `g`. -/
def mapNext (g : State → State) : Result State → Result State
  | .next t => .next (g t)
  | .fault r => .fault r
  | .refused r => .refused r

/-- The entry with another value if it is behind the privilege gate of level `p`. -/
def gatedValue (f : Nat → Word) (p : BitVec 2) (e : CsrReg) : CsrReg :=
  if p.toNat < e.entry.minPriv.toNat then ⟨e.entry, f e.entry.addr⟩ else e

section
variable {f : Nat → Word} {p : BitVec 2} {i : Instr} {s : State} {e : CsrReg}

theorem gatedValue_entry : (gatedValue f p e).entry = e.entry := by
  unfold gatedValue
  split <;> rfl

theorem withGatedValues_csrs : (withGatedValues f s).csrs = s.csrs.map (gatedValue f s.priv) := rfl

theorem gatedValue_of_not_gated (hg : ¬ Gated e s) : gatedValue f s.priv e = e := if_neg hg

/-! ## The CSR accesses -/

theorem csrLookup_withGatedValues (a : CsrAddr) :
    csrLookup a (withGatedValues f s) = (csrLookup a s).map (gatedValue f s.priv) := by
  have hpred : (fun e : CsrReg => e.entry.addr == a.toNat) ∘ gatedValue f s.priv = fun e => e.entry.addr == a.toNat :=
    funext fun e => by rw [Function.comp_apply, gatedValue_entry]
  rw [csrLookup, csrLookup, withGatedValues_csrs, List.find?_map, hpred]
  cases s.csrs.find? fun e => e.entry.addr == a.toNat <;> rfl

/-- The gates do not let the values through: they are passed by the same entries, with the values these have. -/
theorem csrCheck_withGatedValues (a : CsrAddr) (w : Bool) : csrCheck a w (withGatedValues f s) = csrCheck a w s := by
  unfold csrCheck
  rw [csrLookup_withGatedValues]
  cases csrLookup a s with
  | error k => rfl
  | ok e =>
    simp only [Except.map, gatedValue_entry]
    by_cases hg : Gated e s
    · rw [if_pos hg]
      exact if_pos hg
    · rw [gatedValue_of_not_gated hg]
      rfl

theorem csrSet_withGatedValues (v : Word) (hwf : csrMapWellFormed (s.csrs.map (·.entry)) = true) (he : e ∈ s.csrs)
    (hg : ¬ Gated e s) : csrSet e v (withGatedValues f s) = withGatedValues f (csrSet e v s) := by
  have hcsrs : (csrSet e v (withGatedValues f s)).csrs = (withGatedValues f (csrSet e v s)).csrs := by
    rw [csrSet_csrs, withGatedValues_csrs, withGatedValues_csrs, csrSet_csrs, csrSet_priv, List.map_map, List.map_map]
    refine List.map_congr_left fun c hc => ?_
    simp only [Function.comp_apply, gatedValue_entry]
    by_cases haddr : c.entry.addr = e.entry.addr
    · obtain rfl := csr_eq_of_addr_eq hwf hc he haddr
      rw [if_pos rfl, if_pos rfl, gatedValue_of_not_gated (e := ⟨c.entry, v⟩) hg]
    · rw [if_neg haddr, if_neg haddr]
  exact congrArg (fun csrs => { s with csrs := csrs }) hcsrs

theorem csrAccess_withGatedValues (rd : RegIdx) (a : CsrAddr) (w : Bool) (new : Word → Word)
    (hwf : csrMapWellFormed (s.csrs.map (·.entry)) = true) :
    csrAccess i rd a w new (withGatedValues f s) = mapNext (withGatedValues f) (csrAccess i rd a w new s) := by
  have hc' := csrCheck_withGatedValues (f := f) (s := s) a w
  cases hc : csrCheck a w s with
  | error d =>
    rw [csrAccess_error hc, csrAccess_error (hc'.trans hc)]
    rfl
  | ok e =>
    obtain ⟨he, hg, -⟩ := of_csrCheck_ok hc
    rw [csrAccess_ok hc, csrAccess_ok (hc'.trans hc)]
    cases w with
    | false => rfl
    | true =>
      rw [if_pos rfl, if_pos rfl, csrSet_withGatedValues _ hwf he hg]
      rfl

/-! ## The other operations do not see the CSR File -/

theorem divide_withGatedValues (rd : RegIdx) (b v : Word) :
    divide i rd b v (withGatedValues f s) = mapNext (withGatedValues f) (divide i rd b v s) := by
  rw [divide, divide, apply_ite (mapNext _)]
  rfl

theorem transfer_withGatedValues (t : Word) (s' : State) :
    transfer i t (withGatedValues f s) (withGatedValues f s') = mapNext (withGatedValues f) (transfer i t s s') := by
  rw [transfer, transfer, apply_ite (mapNext _)]
  rfl

theorem branch_withGatedValues (c : Bool) (imm : BitVec 13) :
    branch i c imm (withGatedValues f s) = mapNext (withGatedValues f) (branch i c imm s) := by
  cases c with
  | false => rfl
  | true => exact transfer_withGatedValues _ s

theorem loadAt_withGatedValues (n : AccessSize) (ext : BitVec n.bits → Word) (rd : RegIdx) (ea : Word) :
    loadAt i n ext rd ea (withGatedValues f s) = mapNext (withGatedValues f) (loadAt i n ext rd ea s) := by
  rw [loadAt, loadAt, apply_ite (mapNext _), apply_ite (mapNext _)]
  rfl

theorem storeAt_withGatedValues (n : AccessSize) (v ea : Word) :
    storeAt i n v ea (withGatedValues f s) = mapNext (withGatedValues f) (storeAt i n v ea s) := by
  cases hm : misaligned ea n with
  | true =>
    rw [storeAt_misaligned v hm, storeAt_misaligned v hm]
    rfl
  | false =>
    cases hp : textProtected s ea with
    | true =>
      cases hr : s.config.storePolicy with
      | reject =>
        rw [storeAt_rejected v hm hp hr, storeAt_rejected (s := withGatedValues f s) v hm hp hr]
        rfl
      | ignore =>
        rw [storeAt_ignored v hm hp hr, storeAt_ignored (s := withGatedValues f s) v hm hp hr]
        rfl
    | false =>
      cases ha : admitted s ea n .store with
      | true =>
        rw [storeAt_performed v hm hp ha, storeAt_performed (s := withGatedValues f s) v hm hp ha]
        rfl
      | false =>
        rw [storeAt_refused v hm hp ha, storeAt_refused (s := withGatedValues f s) v hm hp ha]
        rfl

theorem envWriteMem_withGatedValues (a : Word) (n : AccessSize) (v : BitVec n.bits) :
    envWriteMem a n v (withGatedValues f s) = withGatedValues f (envWriteMem a n v s) := by
  rw [envWriteMem, envWriteMem, apply_ite (withGatedValues f)]
  rfl

theorem applyEnvWrite_withGatedValues (s : State) (w : EnvWrite) :
    applyEnvWrite (withGatedValues f s) w = withGatedValues f (applyEnvWrite s w) := by
  cases w with
  | reg r v => rfl
  | byte | half | word => exact envWriteMem_withGatedValues ..

theorem applyEnvWrites_withGatedValues (ws : List EnvWrite) (s : State) :
    applyEnvWrites ws (withGatedValues f s) = withGatedValues f (applyEnvWrites ws s) := by
  induction ws generalizing s with
  | nil => rfl
  | cons w ws ih =>
    simp only [applyEnvWrites, List.foldl_cons, applyEnvWrite_withGatedValues] at ih ⊢
    exact ih _

theorem consultEnv_withGatedValues :
    consultEnv (withGatedValues f s) = ((consultEnv s).1, withGatedValues f (consultEnv s).2) := by
  have henv : (withGatedValues f s).env = s.env := rfl
  unfold consultEnv
  rw [henv]
  split <;> rfl

theorem execEcall_withGatedValues :
    execEcall (withGatedValues f s) = mapNext (withGatedValues f) (execEcall s) := by
  unfold execEcall
  rw [consultEnv_withGatedValues]
  obtain ⟨answer, s'⟩ := consultEnv s
  cases answer with
  | exit code => rfl
  | cont ws => exact congrArg (fun t => Host.Outcome.next (retireNext t)) (applyEnvWrites_withGatedValues ws s')

/-! ## Instructions, steps and runs -/

theorem exec_withGatedValues_of_not_csr (hi : i.accessesCsr = false) :
    exec i (withGatedValues f s) = mapNext (withGatedValues f) (exec i s) := by
  cases i with
  | lui | auipc | addi | slti | sltiu | xori | ori | andi | slli | srli | srai | add | sub | sll | slt | sltu | xor | srl
  | sra | or | and | mul | mulh | mulhsu | mulhu => rfl
  | div | divu | rem | remu => exact divide_withGatedValues ..
  | jal rd | jalr rd => exact transfer_withGatedValues _ (writeReg rd (s.pc + 4) s)
  | beq | bne | blt | bge | bltu | bgeu => exact branch_withGatedValues ..
  | lb | lh | lw | lbu | lhu => exact loadAt_withGatedValues ..
  | sb | sh | sw => exact storeAt_withGatedValues ..
  | csrrw | csrrs | csrrc | csrrwi | csrrsi | csrrci => cases hi
  | fence | fenceI | ebreak => rfl
  | ecall => exact execEcall_withGatedValues

theorem exec_withGatedValues (i : Instr) (hwf : csrMapWellFormed (s.csrs.map (·.entry)) = true) :
    exec i (withGatedValues f s) = mapNext (withGatedValues f) (exec i s) := by
  cases hi : i.accessesCsr with
  | false => exact exec_withGatedValues_of_not_csr hi
  | true =>
    obtain ⟨rd, a, w, new, hexec, hnew⟩ := exec_eq_csrAccess hi
    have hnew : new (withGatedValues f s) = new s := hnew s _
    rw [hexec, hexec, hnew]
    exact csrAccess_withGatedValues rd a w (new s) hwf

/-- A step that the boundary lets pass: the fetch does not see the CSR File, and hands it on to the instruction as it is. -/
theorem step_withGatedValues_of_goes (hwf : csrMapWellFormed (s.csrs.map (·.entry)) = true) (hr : s.runState = .running)
    (hq : stopSample s = .none) (hl : stepLimitReached s = false) :
    step (withGatedValues f s) = mapNext (withGatedValues f) (step s) := by
  have hgoes := step_goes hr hq hl
  have hgoes' := step_goes (s := withGatedValues f s) hr hq hl
  cases hp : misalignedTarget s.pc with
  | true =>
    rw [hgoes, hgoes', fetch_misaligned (s := takeSample s) hp,
      fetch_misaligned (s := takeSample (withGatedValues f s)) hp]
    rfl
  | false =>
    by_cases ht : s.config.smcMode = .off → inText s s.pc = true
    · cases ha : admitted s s.pc .word .fetch with
      | false =>
        rw [hgoes, hgoes', fetch_refused (s := takeSample s) hp ht ha,
          fetch_refused (s := takeSample (withGatedValues f s)) hp ht ha]
        rfl
      | true =>
        have hword : (withGatedValues f s).mem.read (withGatedValues f s).pc .word = s.mem.read s.pc .word := rfl
        rw [step_fetched hr hq hl hp ht ha, step_fetched (s := withGatedValues f s) hr hq hl hp ht ha, hword]
        cases decode (s.mem.read s.pc .word) with
        | error => rfl
        | ok i => exact exec_withGatedValues (s := fetchState s) i hwf
    · obtain ⟨hs, hn⟩ := Classical.not_imp.mp ht
      rw [Bool.not_eq_true] at hn
      rw [hgoes, hgoes', fetch_outside (s := takeSample s) hp hs hn,
        fetch_outside (s := takeSample (withGatedValues f s)) hp hs hn]
      rfl

theorem step_withGatedValues (hwf : csrMapWellFormed (s.csrs.map (·.entry)) = true) :
    step (withGatedValues f s) = mapNext (withGatedValues f) (step s) := by
  cases hr : s.runState with
  | halted => rw [step_halted hr, step_halted (s := withGatedValues f s) hr]; rfl
  | running =>
    cases hq : stopSample s with
    | externalStop => rw [step_external hr hq, step_external (s := withGatedValues f s) hr hq]; rfl
    | breakpoint => rw [step_breakpoint hr hq, step_breakpoint (s := withGatedValues f s) hr hq]; rfl
    | none =>
      cases hl : stepLimitReached s with
      | true => rw [step_limit hr hq hl, step_limit (s := withGatedValues f s) hr hq hl]; rfl
      | false => exact step_withGatedValues_of_goes hwf hr hq hl

theorem simulate_withGatedValues (k : Nat) (hwf : csrMapWellFormed (s.csrs.map (·.entry)) = true) :
    simulate k (withGatedValues f s) = mapNext (withGatedValues f) (simulate k s) := by
  induction k generalizing s with
  | zero => rfl
  | succ k ih =>
    cases hr : s.runState with
    | halted => rw [simulate_halted hr, simulate_halted (s := withGatedValues f s) hr]; rfl
    | running =>
      have hr' : (withGatedValues f s).runState = .running := hr
      simp only [simulate, hr, hr', step_withGatedValues hwf]
      cases hs : step s with
      | next t => exact ih (by rw [step_csrEntries hs]; exact hwf)
      | fault r => rfl
      | refused r => rfl

end

/-- Settles O56: other values behind the gate commute with the run. -/
theorem gatedCsrsAreNotObservable : Obligations.GatedCsrsAreNotObservable := by
  intro f s k hwf
  have h := simulate_withGatedValues (f := f) k hwf
  exact ⟨fun t ht => by rw [h, ht]; rfl, fun r hr => by rw [h, hr]; rfl⟩

end Sys2Proof.Machine
end

section
/-!
PROOFS. The statements about the six CSR instructions (41_csr_instructions.md R160 to R170), each settled from the rules of a CSR access.
-/

namespace Sys2Proof.Machine

theorem uimm5_eq_ofNat (uimm : BitVec 5) : uimm5 uimm = BitVec.ofNat 32 uimm.toNat := (BitVec.ofNat_toNat ..).symm

/-- Settles O50: both are one CSR access that writes, and on an `RW` entry it exchanges. -/
theorem csrWritesExchange : Obligations.CsrWritesExchange := by
  intro s rd rs1 csr uimm
  refine ⟨decode_encode (i := .csrrw rd csr rs1) rfl, decode_encode (i := .csrrwi rd csr uimm) rfl, fun e he hg hrw => ?_⟩
  rw [← uimm5_eq_ofNat]
  exact ⟨he.access_exchanges hg hrw (new := fun _ => readReg rs1 s), he.access_exchanges hg hrw (new := fun _ => uimm5 uimm)⟩

/-- Settles O51: with a source index or immediate not 0 the access exchanges, and with 0 it reads. -/
theorem csrSetAndClearBits : Obligations.CsrSetAndClearBits := by
  intro s rd rs1 csr uimm
  refine ⟨decode_encode (i := .csrrs rd csr rs1) rfl, decode_encode (i := .csrrc rd csr rs1) rfl,
    decode_encode (i := .csrrsi rd csr uimm) rfl, decode_encode (i := .csrrci rd csr uimm) rfl, fun e he hg => ⟨?_, ?_, ?_⟩⟩
  · intro hrw hrs1
    simp only [exec, execCsrrs, execCsrrc, bne_iff_ne.mpr hrs1]
    exact ⟨he.access_exchanges hg hrw (new := fun old => old ||| readReg rs1 s),
      he.access_exchanges hg hrw (new := fun old => old &&& ~~~readReg rs1 s)⟩
  · intro hrw huimm
    simp only [exec, execCsrrsi, execCsrrci, bne_iff_ne.mpr huimm, ← uimm5_eq_ofNat]
    exact ⟨he.access_exchanges hg hrw (new := fun old => old ||| uimm5 uimm),
      he.access_exchanges hg hrw (new := fun old => old &&& ~~~uimm5 uimm)⟩
  · intro i hi
    simp only [List.mem_cons, List.not_mem_nil, or_false] at hi
    obtain rfl | rfl | rfl | rfl := hi
    · exact he.access_reads hg (new := fun old => old ||| readReg 0#5 s)
    · exact he.access_reads hg (new := fun old => old &&& ~~~readReg 0#5 s)
    · exact he.access_reads hg (new := fun old => old ||| uimm5 0#5)
    · exact he.access_reads hg (new := fun old => old &&& ~~~uimm5 0#5)

/-- Settles O52: each of the six is one CSR access, and its gates come in the order of `csrCheck`. -/
theorem csrGatesFaultInOrder : Obligations.CsrGatesFaultInOrder := by
  intro s rd rs1 csr uimm p hp
  have hw : ∀ x : BitVec 5, decide (x ≠ 0#5) = (x != 0#5) := by decide
  obtain ⟨new, hexec⟩ : ∃ new, exec p.1 s = csrAccess p.1 rd csr p.2 new s := by
    simp only [List.mem_cons, List.not_mem_nil, or_false, hw] at hp
    obtain rfl | rfl | rfl | rfl | rfl | rfl := hp
    · exact ⟨fun _ => readReg rs1 s, rfl⟩
    · exact ⟨fun _ => uimm5 uimm, rfl⟩
    · exact ⟨fun old => old ||| readReg rs1 s, rfl⟩
    · exact ⟨fun old => old &&& ~~~readReg rs1 s, rfl⟩
    · exact ⟨fun old => old ||| uimm5 uimm, rfl⟩
    · exact ⟨fun old => old &&& ~~~uimm5 uimm, rfl⟩
  rw [hexec]
  refine ⟨fun habsent => csrAccess_faults (csrCheck_absent habsent), fun e he => ⟨?_, ?_, he.check_passes⟩⟩
  · exact fun hg => csrAccess_faults (he.check_gated hg)
  · intro hg hwrite hro
    rw [hwrite]
    exact csrAccess_faults (he.check_readOnly hg hro)

end Sys2Proof.Machine
end

section
/-!
PROOFS. What the environment's writes leave in Memory (42_system.md R184; 20_memory.md R65, R74): the last write to a byte holds, and
the bytes of a shielded text region are kept.
-/

namespace Sys2Proof.Machine

/-! ## The bytes of an aligned access -/

/-- The number of an aligned location with an offset in the place of its low bits is the address that many bytes on. -/
theorem append_zero_add {w m j : Nat} (number : BitVec w) (hj : j < 2 ^ m) :
    (number ++ 0#m) + BitVec.ofNat (w + m) j = number ++ BitVec.ofNat m j := by
  have hlt : j < 2 ^ (w + m) := hj.trans_le (Nat.pow_le_pow_right (by decide) (Nat.le_add_left m w))
  have hzero : (number ++ 0#m).toNat = number.toNat <<< m := (BitVec.toNat_append ..).trans (Nat.or_zero _)
  have hnum : (number ++ BitVec.ofNat m j).toNat = number.toNat <<< m + j := by
    rw [BitVec.toNat_append, BitVec.toNat_ofNat, Nat.mod_eq_of_lt hj, Nat.shiftLeft_add_eq_or_of_lt hj]
  apply BitVec.eq_of_toNat_eq
  rw [BitVec.toNat_add, BitVec.toNat_ofNat, Nat.mod_eq_of_lt hlt, hzero, ← hnum, Nat.mod_eq_of_lt (BitVec.isLt _)]

/-- A text region of whole words that has the first byte of an aligned access has all its bytes (R74). -/
theorem inText_byte_of_inText {s : State} (hp : TextPlaced s) {ea : Word} {n : AccessSize} (h : misaligned ea n = false)
    {k : Nat} (hk : k < n.bytes) (ht : inText s ea = true) : inText s (ea + BitVec.ofNat 32 k) = true := by
  have hn := misaligned_eq_false.mp h
  obtain ⟨h4, -⟩ := hp
  simp only [inText, Bool.and_eq_true, decide_eq_true_eq, toNat_add_of_aligned hn hk] at ht ⊢
  cases n <;> simp only [AccessSize.bytes] at hn hk <;> omega

theorem textProtected_iff {s : State} {a : Word} :
    textProtected s a = true ↔ s.config.smcMode = .off ∧ inText s a = true := by
  simp [textProtected]

/-! ## One write, location by location -/

/-- The bytes that a halfword write by number leaves are those that `byteFor` names. -/
theorem byteAt_write_half_number {m : Memory} (hm : m.wf) (k : BitVec 31) (v : BitVec 16) (b : Word) :
    (m.write (k ++ 0#1) .half v).byteAt b = (EnvWrite.byteFor b (.half k v)).getD (m.byteAt b) := by
  have hoff : ∀ j, j < AccessSize.half.bytes → (k ++ 0#1) + BitVec.ofNat 32 j = k ++ BitVec.ofNat 1 j :=
    fun j hj => append_zero_add k hj
  have hin : ∀ j, j < AccessSize.half.bytes →
      (m.write (k ++ 0#1) .half v).byteAt (k ++ BitVec.ofNat 1 j) = v.extractLsb' (8 * j) 8 := by
    intro j hj
    rw [← hoff j hj]
    exact Memory.byteAt_write_inside (n := .half) hm (k ++ 0#1) v hj
  simp only [EnvWrite.byteFor]
  split_ifs with h0 h1
  · rw [h0]; exact hin 0 (by decide)
  · rw [h1]; exact hin 1 (by decide)
  · rw [Option.getD_none]
    refine Memory.byteAt_write_outside hm _ b .half v fun j hj => ?_
    rw [hoff j hj]
    match j, hj with
    | 0, _ => exact h0
    | 1, _ => exact h1

/-- The bytes that a word write by number leaves are those that `byteFor` names. -/
theorem byteAt_write_word_number {m : Memory} (hm : m.wf) (k : BitVec 30) (v : BitVec 32) (b : Word) :
    (m.write (k ++ 0#2) .word v).byteAt b = (EnvWrite.byteFor b (.word k v)).getD (m.byteAt b) := by
  have hoff : ∀ j, j < AccessSize.word.bytes → (k ++ 0#2) + BitVec.ofNat 32 j = k ++ BitVec.ofNat 2 j :=
    fun j hj => append_zero_add k hj
  have hin : ∀ j, j < AccessSize.word.bytes →
      (m.write (k ++ 0#2) .word v).byteAt (k ++ BitVec.ofNat 2 j) = v.extractLsb' (8 * j) 8 := by
    intro j hj
    rw [← hoff j hj]
    exact Memory.byteAt_write_inside (n := .word) hm (k ++ 0#2) v hj
  simp only [EnvWrite.byteFor]
  split_ifs with h0 h1 h2 h3
  · rw [h0]; exact hin 0 (by decide)
  · rw [h1]; exact hin 1 (by decide)
  · rw [h2]; exact hin 2 (by decide)
  · rw [h3]; exact hin 3 (by decide)
  · rw [Option.getD_none]
    refine Memory.byteAt_write_outside hm _ b .word v fun j hj => ?_
    rw [hoff j hj]
    match j, hj with
    | 0, _ => exact h0
    | 1, _ => exact h1
    | 2, _ => exact h2
    | 3, _ => exact h3

section
variable {s : State} {b : Word}

/-- Outside a shielded text region an aligned write of the environment acts as a `MemWrite`: one that is dropped covers shielded
bytes only. -/
theorem byteAt_envWriteMem (hm : s.mem.wf) (hp : TextPlaced s) (hb : textProtected s b = false) {a : Word} {n : AccessSize}
    (v : BitVec n.bits) (ha : misaligned a n = false) :
    (envWriteMem a n v s).mem.byteAt b = (s.mem.write a n v).byteAt b := by
  unfold envWriteMem
  split
  · next hdrop =>
    obtain ⟨hoff, ht⟩ := textProtected_iff.mp hdrop
    refine (Memory.byteAt_write_outside hm a b n v fun k hk hbk => ?_).symm
    have hshield := textProtected_iff.mpr ⟨hoff, hbk ▸ inText_byte_of_inText hp ha hk ht⟩
    exact Bool.noConfusion (hshield.symm.trans hb)
  · rfl

/-- What one write of the environment leaves in a byte that is not shielded (R184). -/
theorem byteAt_applyEnvWrite (hm : s.mem.wf) (hp : TextPlaced s) (hb : textProtected s b = false) (w : EnvWrite) :
    (applyEnvWrite s w).mem.byteAt b = (EnvWrite.byteFor b w).getD (s.mem.byteAt b) := by
  cases w with
  | reg r v => rfl
  | byte a v =>
    rw [applyEnvWrite, byteAt_envWriteMem hm hp hb v (misaligned_byte a), Memory.byteAt_write_byte hm a b v]
    simp only [EnvWrite.byteFor]
    split <;> rfl
  | half k v => rw [applyEnvWrite, byteAt_envWriteMem hm hp hb v (misaligned_half k), byteAt_write_half_number hm k v b]
  | word k v => rw [applyEnvWrite, byteAt_envWriteMem hm hp hb v (misaligned_word k), byteAt_write_word_number hm k v b]

/-! ## All the writes -/

/-- What all the environment's writes leave in a byte that is not shielded: the last one to it holds (R184; log 7). -/
theorem byteAt_applyEnvWrites_of_not_protected (hm : s.mem.wf) (hp : TextPlaced s) (hb : textProtected s b = false)
    (ws : List EnvWrite) :
    (applyEnvWrites ws s).mem.byteAt b = (ws.reverse.findSome? (EnvWrite.byteFor b)).getD (s.mem.byteAt b) := by
  induction ws generalizing s with
  | nil => rfl
  | cons w ws ih =>
    have hw := works_applyEnvWrite s w
    have hp' : TextPlaced (applyEnvWrite s w) := by rw [TextPlaced, hw.textBase, hw.program]; exact hp
    have hb' : textProtected (applyEnvWrite s w) b = false := by
      rw [textProtected, hw.config, hw.inText]; exact hb
    refine (ih (hw.wf hm) hp' hb').trans ?_
    rw [byteAt_applyEnvWrite hm hp hb w, List.reverse_cons, List.findSome?_append]
    cases ws.reverse.findSome? (EnvWrite.byteFor b) <;> simp

/-- What all the environment's writes leave in any byte (R74, R184). -/
theorem byteAt_applyEnvWrites (hm : s.mem.wf) (hp : TextPlaced s) (ws : List EnvWrite) (b : Word) :
    (applyEnvWrites ws s).mem.byteAt b =
      if s.config.smcMode = .off ∧ inText s b = true then s.mem.byteAt b
      else (ws.reverse.findSome? (EnvWrite.byteFor b)).getD (s.mem.byteAt b) := by
  split
  · next h => exact (works_applyEnvWrites ws s).text h.1 hm hp b h.2
  · next h =>
    exact byteAt_applyEnvWrites_of_not_protected hm hp (Bool.eq_false_iff.mpr fun ht => h (textProtected_iff.mp ht)) ws

end

end Sys2Proof.Machine
end

section
/-!
PROOFS. The statements about FENCE, FENCE.I, ECALL and EBREAK (42_system.md R180 to R185): a rule per source of the environment's
answers and a rule per form of an answer, and the five statements settled from them.
-/

namespace Sys2Proof.Machine

section
variable {s s' : State}

/-! ## The sources of an answer -/

theorem consultEnv_envMin (h : s.env = .envMin) : consultEnv s = (.exit (readReg 10#5 s), s) := by
  rw [consultEnv, h]

theorem consultEnv_recorded {answer : EnvResult} {rest : List EnvResult} (h : s.env = .platform (answer :: rest)) :
    consultEnv s = (answer, { s with env := .platform rest }) := by
  rw [consultEnv, h]

theorem consultEnv_unrecorded (h : s.env = .platform []) :
    consultEnv s = (Config.platformEnv s.stepCount (envView s), s) := by
  rw [consultEnv, h]

/-- The view shows the registers as they read, `x[0]` as 0 (R184). -/
theorem envView_regs (s : State) (r : RegIdx) : (envView s).regs[r.toNat]'r.isLt = readReg r s := by
  by_cases hr : r = 0#5
  · subst hr
    exact (Vector.getElem_set_self ..).trans (readReg_zero s).symm
  · have hne : 0 ≠ r.toNat := fun h => hr (BitVec.eq_of_toNat_eq h.symm)
    rw [readReg, if_neg hr]
    exact Vector.getElem_set_ne (by decide) r.isLt hne

/-! ## The forms of an answer -/

theorem EnvExited.getExitCode {code : Word} (h : EnvExited code s s') : getExitCode s' = some code.toInt :=
  congrArg (fun t => t.exitCode.map BitVec.toInt) h

/-- `Exit(code)`: the ECALL retires and the run ends, with the rest of the recorded answers left (R148, R180). -/
theorem ecall_exits {code : Word} (h : consultEnv s = (.exit code, s')) :
    ∃ t, exec .ecall s = .next t ∧ EnvExited code s t ∧ t.env = s'.env := by
  obtain ⟨e, he⟩ := consultEnv_state s
  rw [h] at he
  subst he
  exact ⟨exitRun code { s with env := e }, by simp only [exec, execEcall, h], rfl, rfl⟩

/-- `Continue(writes)`: the ECALL applies the writes and retires, with the rest of the recorded answers left (R180, R184). -/
theorem ecall_continues {writes : List EnvWrite} (h : consultEnv s = (.cont writes, s')) (hm : s.mem.wf)
    (hp : TextPlaced s) : ∃ t, exec .ecall s = .next t ∧ EnvContinued writes s t ∧ t.env = s'.env := by
  obtain ⟨e, he⟩ := consultEnv_state s
  rw [h] at he
  subst he
  have hf := envFrame_applyEnvWrites writes { s with env := e }
  refine ⟨retireNext (applyEnvWrites writes { s with env := e }), by simp only [exec, execEcall, h], ?_, hf.env⟩
  exact {
    regs := fun r hr => readReg_applyEnvWrites writes { s with env := e } hr
    memory := byteAt_applyEnvWrites (s := { s with env := e }) hm hp writes
    pc := congrArg (· + 4) hf.pc
    stepCount := congrArg (· + 1) hf.stepCount
    steps64 := congrArg (· + 1) hf.steps64
    fixed := ⟨hf.priv, hf.config, hf.program, hf.textBase⟩
    csrs := hf.csrs
    runState := hf.runState
    reason := hf.reason
    exitCode := hf.exitCode
    fault := hf.fault
    stopReqs := hf.stopReqs
    port := hf.memPort }

end

/-! ## The obligations -/

/-- Settles O45: each word is an encoding, and the handler only retires. -/
theorem fencesOnlyAdvance : Obligations.FencesOnlyAdvance := by
  intro s fm pred succ imm rs1 rd
  exact ⟨⟨decode_encode (i := .fence pred succ fm rs1 rd) rfl, _, rfl, movesOnlyPc_retire (s.pc + 4) s⟩,
    decode_encode (i := .fenceI imm rs1 rd) rfl, _, rfl, movesOnlyPc_retire (s.pc + 4) s⟩

/-- Settles O46: `ENV_MIN` answers `Exit`, whatever the privilege level. -/
theorem ecallExitsUnderEnvMin : Obligations.EcallExitsUnderEnvMin := by
  refine ⟨decode_encode (i := .ecall) rfl, fun s henv => ?_⟩
  obtain ⟨t, hexec, hexit, ht⟩ := ecall_exits (consultEnv_envMin henv)
  exact ⟨t, hexec, hexit, ht.trans henv, hexit.getExitCode⟩

/-- Settles O47: the next recorded answer is the one that ENV gives. -/
theorem ecallFollowsTheRecordedAnswer : Obligations.EcallFollowsTheRecordedAnswer := by
  intro s rest hm hp
  exact ⟨fun _ henv => ecall_exits (consultEnv_recorded henv),
    fun _ henv => ecall_continues (consultEnv_recorded henv) hm hp⟩

/-- Settles O48: each source gives one answer, and each form of it has its rule. -/
theorem ecallCompletesUnderAnyEnvironment : Obligations.EcallCompletesUnderAnyEnvironment := by
  intro s hm hp
  refine ⟨⟨envView_regs s, rfl, rfl⟩, fun answer hsource => ?_⟩
  obtain ⟨s', hans, hused⟩ : ∃ s', consultEnv s = (answer, s') ∧ (s.env = .platform [] → s'.env = .platform []) := by
    obtain ⟨henv, rfl⟩ | ⟨rest, henv⟩ | ⟨henv, rfl⟩ := hsource
    · exact ⟨s, consultEnv_envMin henv, id⟩
    · exact ⟨_, consultEnv_recorded henv, fun hnil => by rw [henv] at hnil; cases hnil⟩
    · exact ⟨s, consultEnv_unrecorded henv, id⟩
  refine ⟨congrArg Prod.fst hans, ?_⟩
  cases answer with
  | exit code =>
    obtain ⟨t, hexec, hexit, ht⟩ := ecall_exits hans
    refine ⟨t, hexec, ?_, ?_, fun hnil => ht.trans (hused hnil)⟩
    · rintro _ ⟨⟩; exact hexit
    · rintro _ ⟨⟩
  | cont writes =>
    obtain ⟨t, hexec, hcont, ht⟩ := ecall_continues hans hm hp
    refine ⟨t, hexec, ?_, ?_, fun hnil => ht.trans (hused hnil)⟩
    · rintro _ ⟨⟩
    · rintro _ ⟨⟩; exact hcont

/-- Settles O49: the handler is one `raise`, and the word it records is EBREAK's encoding. -/
theorem ebreakRaisesBreakpoint : Obligations.EbreakRaisesBreakpoint :=
  ⟨decode_encode (i := .ebreak) rfl, rfl, fun s => raiseIn_spec .ebreak .ebreak none s⟩

end Sys2Proof.Machine
end

section
/-!
PROOFS. The statements about the integer computational instructions (43_integer_computational.md R190 to R211): the words that they
write, in numbers and bits, and the six statements settled from them.
-/

namespace Sys2Proof.Machine

/-! ## Immediates (R93, R97) -/

theorem immU_eq_ofNat (imm20 : BitVec 20) : immU imm20 = BitVec.ofNat 32 (imm20.toNat * 2 ^ 12) := by
  have hlt : imm20.toNat * 2 ^ 12 < 2 ^ 32 := by omega
  have happend : (immU imm20).toNat = imm20.toNat <<< 12 := (BitVec.toNat_append ..).trans (Nat.or_zero _)
  exact BitVec.eq_of_toNat_eq (by rw [happend, Nat.shiftLeft_eq, BitVec.toNat_ofNat, Nat.mod_eq_of_lt hlt])

theorem toInt_imm12 (imm : BitVec 12) : (imm12 imm).toInt = imm.toInt := BitVec.toInt_signExtend_of_le (by decide)

/-- Sign extension repeats bit 11 of the field. -/
theorem getLsbD_imm12 (imm : BitVec 12) {k : Nat} (hk : k < 32) : (imm12 imm).getLsbD k = imm.getLsbD (min k 11) := by
  rw [imm12, BitVec.getLsbD_signExtend, decide_eq_true hk, Bool.true_and]
  split
  · rw [min_eq_left (by omega)]
  · rw [min_eq_right (by omega)]; rfl

/-! ## Sums, differences and comparisons -/

theorem word_add_eq_ofInt (a b : Word) : a + b = BitVec.ofInt 32 (a.toInt + b.toInt) := by
  rw [BitVec.ofInt_add, BitVec.ofInt_toInt, BitVec.ofInt_toInt]

theorem word_sub_eq_ofInt (a b : Word) : a - b = BitVec.ofInt 32 (a.toInt - b.toInt) :=
  BitVec.eq_of_toInt_eq (by rw [BitVec.toInt_sub, BitVec.toInt_ofInt])

theorem word_add_ofNat (a : Word) (n : Nat) : a + BitVec.ofNat 32 n = BitVec.ofNat 32 (a.toNat + n) := by
  rw [BitVec.ofNat_add, BitVec.ofNat_toNat, BitVec.setWidth_eq]

theorem wordOfBool_decide (p : Prop) [Decidable p] : wordOfBool (decide p) = if p then 1#32 else 0#32 := by
  simp only [wordOfBool, decide_eq_true_eq]

theorem wordOfBool_signedLess (a b : Word) : wordOfBool (signedLess a b) = if a.toInt < b.toInt then 1#32 else 0#32 := by
  rw [signedLess, BitVec.slt_eq_decide, wordOfBool_decide]

theorem wordOfBool_unsignedLess (a b : Word) :
    wordOfBool (unsignedLess a b) = if a.toNat < b.toNat then 1#32 else 0#32 := by
  rw [unsignedLess, BitVec.ult_eq_decide, wordOfBool_decide]

/-! ## Shifts -/

theorem word_shiftLeft_eq_ofNat (a : Word) (n : Nat) : a <<< n = BitVec.ofNat 32 (a.toNat * 2 ^ n) :=
  BitVec.eq_of_toNat_eq (by rw [BitVec.toNat_shiftLeft, BitVec.toNat_ofNat, Nat.shiftLeft_eq])

theorem word_ushiftRight_eq_ofNat (a : Word) (n : Nat) : a >>> n = BitVec.ofNat 32 (a.toNat / 2 ^ n) := by
  rw [← Nat.shiftRight_eq_div_pow, ← BitVec.toNat_ushiftRight, BitVec.ofNat_toNat, BitVec.setWidth_eq]

theorem word_sshiftRight_eq_ofInt (a : Word) (n : Nat) : a.sshiftRight n = BitVec.ofInt 32 (a.toInt / 2 ^ n) := by
  rw [BitVec.sshiftRight_eq, Int.shiftRight_eq_div_pow, Nat.cast_pow, Nat.cast_ofNat]

/-- The low five bits are the remainder by 32 (R204). -/
theorem toNat_shiftAmount (v : Word) : (shiftAmount v).toNat = v.toNat % 32 := by
  rw [shiftAmount, BitVec.extractLsb'_toNat, Nat.shiftRight_zero]

/-! ## What the handlers read -/

/-- `writeAndRetire`, with the word that it writes spelled in another way. -/
theorem writeAndRetire_writes {v w : Word} (h : v = w) (rd : RegIdx) (s : State) :
    ∃ t, writeAndRetire rd v s = .next t ∧ WritesOnlyReg rd w (s.pc + 4) s t := h ▸ writeAndRetire_spec rd v s

/-- `writeAndRetire`, with the word that it writes described bit by bit. -/
theorem writeAndRetire_writes_bits {v : Word} {bit : Nat → Bool} (h : ∀ k, k < 32 → v.getLsbD k = bit k) (rd : RegIdx)
    (s : State) : ∃ t w, writeAndRetire rd v s = .next t ∧ WritesOnlyReg rd w (s.pc + 4) s t ∧ ∀ k, k < 32 → w.getLsbD k = bit k := by
  obtain ⟨t, ht, hw⟩ := writeAndRetire_spec rd v s
  exact ⟨t, v, ht, hw, h⟩

section
variable {i : Instr} {rd : RegIdx} {sources : List RegIdx}

/-- At most two source registers (R190). -/
theorem integerOperands_sources_length (h : i.integerOperands = some (rd, sources)) : sources.length ≤ 2 := by
  unfold Instr.integerOperands at h
  split at h <;> cases h <;> simp

/-- Every handler writes one word to `x[rd]`, formed from the readings of its sources and the pc (R190). -/
theorem exec_eq_of_same_sources (h : i.integerOperands = some (rd, sources)) {s s' : State} (hpc : s'.pc = s.pc)
    (hsources : ∀ r ∈ sources, readReg r s' = readReg r s) :
    ∃ v, exec i s = writeAndRetire rd v s ∧ exec i s' = writeAndRetire rd v s' := by
  cases i with
  | lui rd imm20 => cases h; exact ⟨_, rfl, rfl⟩
  | auipc rd imm20 => cases h; exact ⟨_, rfl, by rw [← hpc]; rfl⟩
  | addi rd rs1 imm | slti rd rs1 imm | sltiu rd rs1 imm | xori rd rs1 imm | ori rd rs1 imm | andi rd rs1 imm
  | slli rd rs1 shamt | srli rd rs1 shamt | srai rd rs1 shamt =>
    cases h
    obtain ⟨h1, -⟩ := List.forall_mem_cons.mp hsources
    exact ⟨_, rfl, by rw [← h1]; rfl⟩
  | add rd rs1 rs2 | sub rd rs1 rs2 | sll rd rs1 rs2 | slt rd rs1 rs2 | sltu rd rs1 rs2 | xor rd rs1 rs2 | srl rd rs1 rs2
  | sra rd rs1 rs2 | or rd rs1 rs2 | and rd rs1 rs2 =>
    cases h
    obtain ⟨h1, h2, -⟩ := by simpa only [List.forall_mem_cons] using hsources
    exact ⟨_, rfl, by rw [← h1, ← h2]; rfl⟩
  | _ => cases h

end

/-! ## The obligations -/

/-- Settles O31: both handlers write one word, a multiple of 4096, for AUIPC added to the pc. -/
theorem upperImmediateResults : Obligations.UpperImmediateResults := by
  intro s rd imm20
  refine ⟨⟨decode_encode (i := .lui rd imm20) rfl, writeAndRetire_writes (immU_eq_ofNat imm20) rd s⟩,
    decode_encode (i := .auipc rd imm20) rfl, writeAndRetire_writes ?_ rd s⟩
  rw [immU_eq_ofNat, word_add_ofNat]

/-- Settles O32: the sum of two words is their sum in either reading, signed or unsigned, modulo 2^32. -/
theorem addAndSubtractResults : Obligations.AddAndSubtractResults := by
  intro s rd rs1 rs2 imm
  refine ⟨⟨decode_encode (i := .addi rd rs1 imm) rfl, writeAndRetire_writes ?_ rd s⟩,
    ⟨decode_encode (i := .add rd rs1 rs2) rfl, writeAndRetire_writes rfl rd s⟩,
    decode_encode (i := .sub rd rs1 rs2) rfl, writeAndRetire_writes (word_sub_eq_ofInt ..) rd s⟩
  rw [word_add_eq_ofInt, toInt_imm12]

/-- Settles O33: a comparison of words is the comparison of their readings. -/
theorem compareResults : Obligations.CompareResults := by
  intro s rd rs1 rs2 imm
  refine ⟨⟨decode_encode (i := .slti rd rs1 imm) rfl, writeAndRetire_writes ?_ rd s⟩,
    ⟨decode_encode (i := .sltiu rd rs1 imm) rfl, writeAndRetire_writes (wordOfBool_unsignedLess ..) rd s⟩,
    ⟨decode_encode (i := .slt rd rs1 rs2) rfl, writeAndRetire_writes (wordOfBool_signedLess ..) rd s⟩,
    decode_encode (i := .sltu rd rs1 rs2) rfl, writeAndRetire_writes (wordOfBool_unsignedLess ..) rd s⟩
  rw [wordOfBool_signedLess, toInt_imm12]

/-- Settles O34: the bits of a bitwise operation are those of its operands. -/
theorem logicResults : Obligations.LogicResults := by
  intro s rd rs1 rs2 imm
  refine ⟨⟨decode_encode (i := .xori rd rs1 imm) rfl, writeAndRetire_writes_bits (fun k hk => ?_) rd s⟩,
    ⟨decode_encode (i := .ori rd rs1 imm) rfl, writeAndRetire_writes_bits (fun k hk => ?_) rd s⟩,
    ⟨decode_encode (i := .andi rd rs1 imm) rfl, writeAndRetire_writes_bits (fun k hk => ?_) rd s⟩,
    ⟨decode_encode (i := .xor rd rs1 rs2) rfl, writeAndRetire_writes_bits (fun _ _ => BitVec.getLsbD_xor) rd s⟩,
    ⟨decode_encode (i := .or rd rs1 rs2) rfl, writeAndRetire_writes_bits (fun _ _ => BitVec.getLsbD_or) rd s⟩,
    decode_encode (i := .and rd rs1 rs2) rfl, writeAndRetire_writes_bits (fun _ _ => BitVec.getLsbD_and) rd s⟩
  · rw [BitVec.getLsbD_xor, getLsbD_imm12 imm hk]
  · rw [BitVec.getLsbD_or, getLsbD_imm12 imm hk]
  · rw [BitVec.getLsbD_and, getLsbD_imm12 imm hk]

/-- Settles O35: a shift by an immediate and a shift by a register are one shift, by a field or by a remainder. -/
theorem shiftResults : Obligations.ShiftResults := by
  intro s rd rs1 rs2 shamt
  rw [← toNat_shiftAmount]
  exact ⟨
    ⟨decode_encode (i := .slli rd rs1 shamt) rfl, writeAndRetire_writes (word_shiftLeft_eq_ofNat ..) rd s⟩,
    ⟨decode_encode (i := .srli rd rs1 shamt) rfl, writeAndRetire_writes (word_ushiftRight_eq_ofNat ..) rd s⟩,
    ⟨decode_encode (i := .srai rd rs1 shamt) rfl, writeAndRetire_writes (word_sshiftRight_eq_ofInt ..) rd s⟩,
    ⟨decode_encode (i := .sll rd rs1 rs2) rfl, writeAndRetire_writes (word_shiftLeft_eq_ofNat ..) rd s⟩,
    ⟨decode_encode (i := .srl rd rs1 rs2) rfl, writeAndRetire_writes (word_ushiftRight_eq_ofNat ..) rd s⟩,
    decode_encode (i := .sra rd rs1 rs2) rfl, writeAndRetire_writes (word_sshiftRight_eq_ofInt ..) rd s⟩

/-- Settles O36: equal readings form one word, and both runs write it. -/
theorem integerResultsDependOnSourcesOnly : Obligations.IntegerResultsDependOnSourcesOnly := by
  intro i rd sources hi
  refine ⟨integerOperands_sources_length hi, fun s s' hpc hsources => ?_⟩
  obtain ⟨v, hv, hv'⟩ := exec_eq_of_same_sources hi hpc hsources
  obtain ⟨t, ht, hw⟩ := writeAndRetire_spec rd v s
  obtain ⟨t', ht', hw'⟩ := writeAndRetire_spec rd v s'
  rw [hpc] at hw'
  exact ⟨v, t, t', hv.trans ht, hw, hv'.trans ht', hw'⟩

end Sys2Proof.Machine
end

section
/-!
PROOFS. The statements about control transfer (44_control_transfer.md R220 to R228): the targets and the conditions in numbers, what a
jump and a branch do, and the two statements settled from them.
-/

namespace Sys2Proof.Machine

/-! ## Targets (R95, R98, R222) -/

theorem toInt_offsetB (imm : BitVec 13) : (offsetB imm).toInt = imm.toInt := BitVec.toInt_signExtend_of_le (by decide)

theorem toInt_offsetJ (imm : BitVec 21) : (offsetJ imm).toInt = imm.toInt := BitVec.toInt_signExtend_of_le (by decide)

/-- Clearing bit 0 rounds down to an even number. -/
theorem clear_bit_zero_eq_ofNat (a : Word) : a &&& 0xFFFFFFFE#32 = BitVec.ofNat 32 (a.toNat / 2 * 2) := by
  have hshift : a >>> 1 <<< 1 = a &&& 0xFFFFFFFE#32 := BitVec.shiftLeft_ushiftRight
  rw [← hshift, word_shiftLeft_eq_ofNat, BitVec.toNat_ushiftRight, Nat.shiftRight_eq_div_pow, pow_one]

/-! ## Conditions (R226, R228) -/

theorem not_signedLess (a b : Word) : (!signedLess a b) = decide (a.toInt ≥ b.toInt) := by
  rw [signedLess, BitVec.slt_eq_decide, ← decide_not, decide_eq_decide, not_lt]

theorem not_unsignedLess (a b : Word) : (!unsignedLess a b) = decide (a.toNat ≥ b.toNat) := by
  rw [unsignedLess, BitVec.ult_eq_decide, ← decide_not, decide_eq_decide, not_lt]

/-! ## Jumps and branches (R220) -/

section
variable (i : Instr) (s : State)

theorem jumpAndLink_spec (rd : RegIdx) (target : Word) :
    (target.toNat % 4 = 0 → ∃ t, jumpAndLink i rd target s = .next t ∧ WritesOnlyReg rd (s.pc + 4) target s t) ∧
    (target.toNat % 4 ≠ 0 → ∃ t, jumpAndLink i rd target s = .next t ∧
      FaultTaken (some (encode i)) .fetch (some target) s t) := by
  constructor
  · intro h
    exact ⟨_, transfer_aligned (misalignedTarget_eq_false.mpr h), writesOnlyReg_retire rd (s.pc + 4) target s⟩
  · intro h
    rw [jumpAndLink, transfer_misaligned (misalignedTarget_eq_true.mpr h)]
    exact raiseIn_spec i .fetch (some target) s

theorem branch_spec (taken : Bool) (imm : BitVec 13) :
    (taken = false → ∃ t, branch i taken imm s = .next t ∧ MovesOnlyPc (s.pc + 4) s t) ∧
    (taken = true → (s.pc + offsetB imm).toNat % 4 = 0 →
      ∃ t, branch i taken imm s = .next t ∧ MovesOnlyPc (s.pc + offsetB imm) s t) ∧
    (taken = true → (s.pc + offsetB imm).toNat % 4 ≠ 0 →
      ∃ t, branch i taken imm s = .next t ∧ FaultTaken (some (encode i)) .fetch (some (s.pc + offsetB imm)) s t) := by
  refine ⟨?_, ?_, ?_⟩
  · rintro rfl
    exact ⟨_, rfl, movesOnlyPc_retire (s.pc + 4) s⟩
  · rintro rfl h
    exact ⟨_, transfer_aligned (misalignedTarget_eq_false.mpr h), movesOnlyPc_retire _ s⟩
  · rintro rfl h
    rw [branch, if_pos rfl, transfer_misaligned (misalignedTarget_eq_true.mpr h)]
    exact raiseIn_spec i .fetch _ s

end

/-! ## The obligations -/

/-- Settles O41: both handlers are one `jumpAndLink`, to a sum of words or to one with bit 0 cleared. -/
theorem jumpResults : Obligations.JumpResults := by
  intro s rd rs1 offset imm
  refine ⟨fun heven => decode_encode (i := .jal rd offset) (beq_iff_eq.mpr heven),
    decode_encode (i := .jalr rd rs1 imm) rfl, ?_⟩
  rw [← toInt_offsetJ, ← word_add_eq_ofInt, ← clear_bit_zero_eq_ofNat]
  intro p hp
  simp only [List.mem_cons, List.not_mem_nil, or_false] at hp
  obtain rfl | rfl := hp
  · exact jumpAndLink_spec (.jal rd offset) s rd _
  · exact jumpAndLink_spec (.jalr rd rs1 imm) s rd _

/-- Settles O42: each handler is one `branch` on its condition, and each encoding has format B. -/
theorem branchResults : Obligations.BranchResults := by
  intro s rs1 rs2 offset a b target p hp
  obtain ⟨hencode, hwf, hexec⟩ : encode p.1 = encodeB p.2.1 0b1100011#7 rs1 rs2 offset ∧
      p.1.wellFormed = evenOffset offset ∧ exec p.1 s = branch p.1 p.2.2 offset s := by
    simp only [List.mem_cons, List.not_mem_nil, or_false] at hp
    obtain rfl | rfl | rfl | rfl | rfl | rfl := hp
    · exact ⟨rfl, rfl, congrArg (branch _ · offset s) (beq_eq_decide a b)⟩
    · exact ⟨rfl, rfl, congrArg (branch _ · offset s) (by rw [bne, beq_eq_decide, decide_not])⟩
    · exact ⟨rfl, rfl, congrArg (branch _ · offset s) BitVec.slt_eq_decide⟩
    · exact ⟨rfl, rfl, congrArg (branch _ · offset s) (not_signedLess a b)⟩
    · exact ⟨rfl, rfl, congrArg (branch _ · offset s) BitVec.ult_eq_decide⟩
    · exact ⟨rfl, rfl, congrArg (branch _ · offset s) (not_unsignedLess a b)⟩
  have htarget : target = s.pc + offsetB offset := by rw [word_add_eq_ofInt, toInt_offsetB]
  rw [hexec, htarget]
  refine ⟨fun heven => ?_, branch_spec p.1 s p.2.2 offset⟩
  have hdecode := decode_encode (hwf.trans (beq_iff_eq.mpr heven))
  rwa [hencode] at hdecode

end Sys2Proof.Machine
end

section
/-!
PROOFS. The statements about loads and stores (45_load_store.md R235 to R245): the shielded bytes of R74 in numbers, what a performed
store logs and leaves in Memory, and the two statements settled from them.
-/

namespace Sys2Proof.Machine

section
variable {s : State}

/-- The text-region condition of R74, with the bounds of R70 in numbers. -/
theorem textProtected_iff_bounds {a : Word} :
    textProtected s a = true ↔ s.config.smcMode = .off ∧ s.textBase.toNat ≤ a.toNat ∧
      a.toNat < s.textBase.toNat + 4 * s.program.length := by
  rw [textProtected_iff, inText, Bool.and_eq_true, decide_eq_true_eq, decide_eq_true_eq]

/-- The value on the Memory port is the low bytes of the stored word (R65). -/
theorem toNat_storedValue (n : AccessSize) (v : Word) :
    ((v.setWidth n.bits).setWidth 32).toNat = v.toNat % 2 ^ (8 * n.bytes) := by
  have hbits : n.bits ≤ 32 := by cases n <;> decide
  rw [BitVec.toNat_setWidth_of_le hbits, BitVec.toNat_setWidth, bits_eq_eight_mul_bytes]

/-- The bytes that a performed store leaves at its address are the low bytes of the stored word (R65). -/
theorem byteAt_stored (hm : s.mem.wf) {n : AccessSize} (v ea : Word) {k : Nat} (hk : k < n.bytes) :
    (stored n v ea s).mem.byteAt (ea + BitVec.ofNat 32 k) = v.extractLsb' (8 * k) 8 :=
  (Memory.byteAt_write_inside hm ea (v.setWidth n.bits) hk).trans (byte_setWidth v hk)

end

/-! ## The obligations -/

/-- Settles O43: each handler is one `loadAt`, and its extension is the signed or the unsigned reading of the bytes. -/
theorem loadResults : Obligations.LoadResults := by
  intro s rd rs1 imm ea half p hp
  obtain ⟨hdecode, ext, hvalue, hexec⟩ : decode (imm ++ rs1 ++ p.2.1 ++ rd ++ 0b0000011#7) = .ok p.1 ∧
      ∃ ext, p.2.2.2 = ext (s.mem.read ea p.2.2.1) ∧ exec p.1 s = loadAt p.1 p.2.2.1 ext rd ea s := by
    simp only [List.mem_cons, List.not_mem_nil, or_false] at hp
    obtain rfl | rfl | rfl | rfl | rfl := hp
    · exact ⟨decode_encode (i := .lb rd rs1 imm) rfl, BitVec.signExtend 32, rfl, rfl⟩
    · exact ⟨decode_encode (i := .lh rd rs1 imm) rfl, BitVec.signExtend 32, rfl, rfl⟩
    · exact ⟨decode_encode (i := .lw rd rs1 imm) rfl, id, rfl, rfl⟩
    · exact ⟨decode_encode (i := .lbu rd rs1 imm) rfl, BitVec.setWidth 32, BitVec.ofNat_toNat .., rfl⟩
    · exact ⟨decode_encode (i := .lhu rd rs1 imm) rfl, BitVec.setWidth 32, BitVec.ofNat_toNat .., rfl⟩
  rw [hexec, hvalue]
  refine ⟨hdecode, fun hmis => ?_, fun hal hadm => ?_, fun hal hadm => ?_⟩
  · rw [loadAt_misaligned ext rd (misaligned_eq_true.mpr hmis)]
    exact raiseIn_spec p.1 .load (some ea) s
  · exact loadAt_spec ext rd (misaligned_eq_false.mpr hal) hadm
  · exact loadAt_refused ext rd (misaligned_eq_false.mpr hal) hadm

/-- Settles O44: each handler is one `storeAt` of `x[rs2]`, whose checks come in the order of R237. -/
theorem storeResults : Obligations.StoreResults := by
  intro s rs1 rs2 imm hm ea shielded p hp
  obtain ⟨hdecode, hexec⟩ :
      decode (imm.extractLsb' 5 7 ++ rs2 ++ rs1 ++ p.2.1 ++ imm.extractLsb' 0 5 ++ 0b0100011#7) = .ok p.1 ∧
      exec p.1 s = storeAt p.1 p.2.2 (readReg rs2 s) ea s := by
    simp only [List.mem_cons, List.not_mem_nil, or_false] at hp
    obtain rfl | rfl | rfl := hp
    · exact ⟨decode_encode (i := .sb rs2 rs1 imm) rfl, rfl⟩
    · exact ⟨decode_encode (i := .sh rs2 rs1 imm) rfl, rfl⟩
    · exact ⟨decode_encode (i := .sw rs2 rs1 imm) rfl, rfl⟩
  have hshielded : textProtected s ea = true ↔ shielded := textProtected_iff_bounds
  have hopen : textProtected s ea = false ↔ ¬ shielded := by rw [← hshielded, Bool.not_eq_true]
  rw [hexec, ← hopen, ← hshielded]
  simp only [← misaligned_eq_true, ← misaligned_eq_false]
  refine ⟨hdecode, fun hmis => ?_, fun hal hsh hpol => ?_, fun hal hsh hpol => ?_, fun hal hun hadm => ?_,
    fun hal hun hadm => storeAt_refused _ hal hun hadm⟩
  · rw [storeAt_misaligned _ hmis]
    exact raiseIn_spec p.1 .store (some ea) s
  · rw [storeAt_rejected _ hal hsh hpol]
    exact raiseIn_spec p.1 .textStore (some ea) s
  · exact ⟨_, storeAt_ignored _ hal hsh hpol, movesOnlyPc_retire (s.pc + 4) s⟩
  · exact ⟨_, _, storeAt_performed _ hal hun hadm, stores_stored p.2.2 _ ea s hm, toNat_storedValue p.2.2 _,
      fun _ hk => byteAt_stored hm _ ea hk⟩

end Sys2Proof.Machine
end

section
/-!
PROOFS. The statements about multiply and divide (46_muldiv.md R250 to R259): the results as readings of words, what a division does with
its divisor, which instructions can raise ArithmeticFault, and the four statements settled from them.
-/

namespace Sys2Proof.Machine

/-! ## High halves of a product (R252 to R254) -/

/-- A word read as signed, times a number below 2^32: the product fits in 64 bits. -/
theorem toInt_mul_bounds (a : Word) {n : Int} (hn : |n| < 2 ^ 32) : -2 ^ 63 ≤ a.toInt * n ∧ a.toInt * n < 2 ^ 63 := by
  have ha : |a.toInt| ≤ 2 ^ 31 := abs_le.mpr ⟨BitVec.le_toInt a, BitVec.toInt_lt.le⟩
  have hprod : |a.toInt * n| < 2 ^ 63 := by
    rw [abs_mul]
    calc |a.toInt| * |n| ≤ 2 ^ 31 * |n| := mul_le_mul_of_nonneg_right ha (abs_nonneg n)
      _ < 2 ^ 31 * 2 ^ 32 := mul_lt_mul_of_pos_left hn (by norm_num)
      _ = 2 ^ 63 := by norm_num
  exact ⟨(abs_lt.mp hprod).1.le, (abs_lt.mp hprod).2⟩

theorem abs_toInt_lt (b : Word) : |b.toInt| < 2 ^ 32 := by
  have hlo := BitVec.le_toInt b
  have hhi := BitVec.toInt_lt (x := b)
  exact abs_lt.mpr ⟨by omega, by omega⟩

theorem abs_toNat_lt (b : Word) : |(b.toNat : Int)| < 2 ^ 32 := by
  rw [Nat.abs_cast]
  exact_mod_cast b.isLt

/-- The high word of a product of 64 bits is the floor of the product by 2^32. -/
theorem ofInt_ediv_floor {p : Int} (hp : -2 ^ 63 ≤ p ∧ p < 2 ^ 63) :
    (BitVec.ofInt 32 (p / 2 ^ 32)).toInt * 2 ^ 32 ≤ p ∧ p < ((BitVec.ofInt 32 (p / 2 ^ 32)).toInt + 1) * 2 ^ 32 := by
  rw [BitVec.toInt_ofInt_eq_self (by decide) (by omega) (by omega)]
  exact ⟨Int.ediv_mul_le p (by decide), Int.lt_ediv_add_one_mul_self p (by decide)⟩

theorem mulHighUnsigned_floor (a b : Word) :
    (mulHighUnsigned a b).toNat * 2 ^ 32 ≤ a.toNat * b.toNat ∧
      a.toNat * b.toNat < ((mulHighUnsigned a b).toNat + 1) * 2 ^ 32 := by
  have hp : a.toNat * b.toNat < 2 ^ 32 * 2 ^ 32 := Nat.mul_lt_mul'' a.isLt b.isLt
  rw [mulHighUnsigned, BitVec.toNat_ofNat, Nat.mod_eq_of_lt (Nat.div_lt_of_lt_mul hp)]
  exact ⟨Nat.div_mul_le_self .., Nat.lt_mul_of_div_lt (Nat.lt_succ_self _) (by decide)⟩

/-! ## Quotients and remainders (R255 to R258) -/

theorem divOverflow_iff {a b : Word} : divOverflow a b = true ↔ a = 0x80000000#32 ∧ b = 0xFFFFFFFF#32 := by
  rw [divOverflow, Bool.and_eq_true, beq_iff_eq, beq_iff_eq]

theorem quotientSigned_of_overflow {a b : Word} (ha : a = 0x80000000#32) (hb : b = 0xFFFFFFFF#32) :
    quotientSigned a b = 0x80000000#32 := by
  rw [ha, hb]
  decide

theorem remainderSigned_of_overflow {a b : Word} (ha : a = 0x80000000#32) (hb : b = 0xFFFFFFFF#32) :
    remainderSigned a b = 0#32 := by
  rw [ha, hb]
  decide

theorem ofInt_tdiv (a b : Word) : BitVec.ofInt 32 (a.toInt.tdiv b.toInt) = a.sdiv b :=
  BitVec.eq_of_toInt_eq (by rw [BitVec.toInt_ofInt, BitVec.toInt_sdiv])

/-- The overflow of R255 is no case of its own: the integer quotient 2^31, narrowed, is the word of -2^31. -/
theorem quotientSigned_of_ne_zero (a : Word) {b : Word} (hb : b ≠ 0#32) : quotientSigned a b = a.sdiv b := by
  rw [quotientSigned, if_neg hb]
  split
  · next h =>
    obtain ⟨rfl, rfl⟩ := divOverflow_iff.mp h
    exact BitVec.intMin_sdiv_neg_one.symm
  · exact ofInt_tdiv a b

theorem toInt_quotientSigned {a b : Word} (hb : b ≠ 0#32) (ho : ¬ (a = 0x80000000#32 ∧ b = 0xFFFFFFFF#32)) :
    (quotientSigned a b).toInt = a.toInt.tdiv b.toInt := by
  rw [quotientSigned_of_ne_zero a hb, BitVec.toInt_sdiv_of_ne_or_ne a b (not_and_or.mp ho)]

/-- The remainder by zero and the overflow of R257 are no cases of their own. -/
theorem remainderSigned_eq_srem (a b : Word) : remainderSigned a b = a.srem b := by
  rw [remainderSigned]
  split
  · next h => rw [h, BitVec.srem_zero]
  split
  · next h =>
    obtain ⟨rfl, rfl⟩ := divOverflow_iff.mp h
    decide
  · rw [mul_comm, ← Int.tmod_def, ← BitVec.toInt_srem, BitVec.ofInt_toInt]

theorem toInt_remainderSigned (a b : Word) : (remainderSigned a b).toInt = a.toInt.tmod b.toInt := by
  rw [remainderSigned_eq_srem, BitVec.toInt_srem]

theorem toInt_remainderSigned_eq_sub (a b : Word) :
    (remainderSigned a b).toInt = a.toInt - a.toInt.tdiv b.toInt * b.toInt := by
  rw [toInt_remainderSigned, Int.tmod_def, mul_comm]

theorem toNat_quotientUnsigned (a : Word) {b : Word} (hb : b ≠ 0#32) : (quotientUnsigned a b).toNat = a.toNat / b.toNat := by
  rw [quotientUnsigned, if_neg hb, ← BitVec.udiv_def, BitVec.toNat_udiv]

theorem remainderUnsigned_eq_umod (a b : Word) : remainderUnsigned a b = a % b := by
  rw [remainderUnsigned]
  split
  · next h => rw [h, BitVec.umod_zero]
  · exact BitVec.umod_def.symm

theorem toNat_remainderUnsigned (a b : Word) : (remainderUnsigned a b).toNat = a.toNat % b.toNat := by
  rw [remainderUnsigned_eq_umod, BitVec.toNat_umod]

/-! ## The division identity -/

/-- The identity modulo 2^32: a zero divisor leaves the dividend, and the narrowed integer quotient the rest. -/
theorem quotientSigned_mul_add_remainderSigned (a b : Word) : a = quotientSigned a b * b + remainderSigned a b := by
  by_cases hb : b = 0#32
  · rw [remainderSigned_eq_srem, hb, BitVec.mul_zero, BitVec.zero_add, BitVec.srem_zero]
  · calc a = BitVec.ofInt 32 (a.toInt.tdiv b.toInt * b.toInt + a.toInt.tmod b.toInt) := by
          rw [Int.tdiv_mul_add_tmod, BitVec.ofInt_toInt]
      _ = quotientSigned a b * b + remainderSigned a b := by
          rw [BitVec.ofInt_add, BitVec.ofInt_mul, ofInt_tdiv, ← quotientSigned_of_ne_zero a hb, ← toInt_remainderSigned,
            BitVec.ofInt_toInt, BitVec.ofInt_toInt]

theorem toInt_ne_zero {b : Word} (hb : b ≠ 0#32) : b.toInt ≠ 0 := fun h => hb (BitVec.eq_of_toInt_eq h)

theorem natAbs_remainderSigned_lt (a : Word) {b : Word} (hb : b ≠ 0#32) :
    (remainderSigned a b).toInt.natAbs < b.toInt.natAbs := by
  rw [toInt_remainderSigned, Int.natAbs_tmod]
  exact Nat.mod_lt _ (Int.natAbs_pos.mpr (toInt_ne_zero hb))

theorem remainderSigned_nonneg {a : Word} (b : Word) (ha : 0 ≤ a.toInt) : 0 ≤ (remainderSigned a b).toInt := by
  rw [toInt_remainderSigned]
  exact Int.tmod_nonneg _ ha

theorem remainderSigned_nonpos {a : Word} (b : Word) (ha : a.toInt ≤ 0) : (remainderSigned a b).toInt ≤ 0 := by
  have h : 0 ≤ (-a.toInt).tmod b.toInt := Int.tmod_nonneg _ (neg_nonneg.mpr ha)
  rw [Int.neg_tmod] at h
  rw [toInt_remainderSigned]
  exact neg_nonneg.mp h

/-! ## The handlers -/

section
variable {i : Instr} {s : State} {rd : RegIdx} {b v : Word} {P : Word → Prop}

/-- `writeAndRetire`, with the word that it writes described by a property. -/
theorem writeAndRetire_writes_such (hv : P v) (rd : RegIdx) (s : State) :
    ∃ t w, writeAndRetire rd v s = .next t ∧ WritesOnlyReg rd w (s.pc + 4) s t ∧ P w := by
  obtain ⟨t, ht, hw⟩ := writeAndRetire_spec rd v s
  exact ⟨t, v, ht, hw, hv⟩

theorem divide_raises (hc : s.config.arithFaultOnDivZero = true) (hb : b = 0#32) :
    divide i rd b v s = raiseIn i .divZero none s := by
  simp only [divide, hc, hb, beq_self_eq_true, Bool.and_self, if_true]

theorem divide_writes (h : ¬ (s.config.arithFaultOnDivZero = true ∧ b = 0#32)) :
    divide i rd b v s = writeAndRetire rd v s :=
  if_neg (by simpa only [Bool.and_eq_true, beq_iff_eq] using h)

/-- A division that does not fault, with the word that it writes described by a property. -/
theorem divide_writes_such (h : ¬ (s.config.arithFaultOnDivZero = true ∧ b = 0#32)) (hv : P v) :
    ∃ t w, divide i rd b v s = .next t ∧ WritesOnlyReg rd w (s.pc + 4) s t ∧ P w := by
  rw [divide_writes h]
  exact writeAndRetire_writes_such hv rd s

/-- A division that does not fault leaves its result in `x[rd]`. -/
theorem divide_leaves (h : s.config.arithFaultOnDivZero = false) (hrd : rd ≠ 0#5) :
    ∃ t, divide i rd b v s = .next t ∧ readReg rd t = v := by
  rw [divide_writes fun hc => Bool.false_ne_true (h.symm.trans hc.1)]
  obtain ⟨t, ht, hw⟩ := writeAndRetire_spec rd v s
  exact ⟨t, ht, (hw.regs rd).trans (if_pos ⟨rfl, hrd⟩)⟩

/-- A division that changes the fault record has met a zero divisor under `ARITH_FAULT_ON_DIV_ZERO`. -/
theorem divide_fault {t : State} (h : divide i rd b v s = .next t) (ht : t.fault ≠ s.fault) :
    s.config.arithFaultOnDivZero = true ∧ b = 0#32 ∧ t = raise (some (encode i)) .divZero none s := by
  by_cases hc : s.config.arithFaultOnDivZero = true ∧ b = 0#32
  · rw [divide_raises hc.1 hc.2] at h
    cases h
    exact ⟨hc.1, hc.2, rfl⟩
  · rw [divide_writes hc] at h
    cases h
    exact absurd rfl ht

end

/-- Each of the four is one `divide` by `x[rs2]`. -/
theorem exec_eq_divide {i : Instr} {rd rs1 rs2 : RegIdx}
    (hi : i ∈ [Instr.div rd rs1 rs2, .divu rd rs1 rs2, .rem rd rs1 rs2, .remu rd rs1 rs2]) (s : State) :
    ∃ v, exec i s = divide i rd (readReg rs2 s) v s := by
  simp only [List.mem_cons, List.not_mem_nil, or_false] at hi
  obtain rfl | rfl | rfl | rfl := hi <;> exact ⟨_, rfl⟩

theorem exec_zero_divisor {s : State} {i : Instr} {rd rs1 rs2 : RegIdx}
    (hi : i ∈ [Instr.div rd rs1 rs2, .divu rd rs1 rs2, .rem rd rs1 rs2, .remu rd rs1 rs2])
    (hc : s.config.arithFaultOnDivZero = true) (hb : readReg rs2 s = 0#32) :
    ∃ t, exec i s = .next t ∧ FaultTaken (some (encode i)) .divZero none s t := by
  obtain ⟨v, hexec⟩ := exec_eq_divide hi s
  rw [hexec, divide_raises hc hb]
  exact raiseIn_spec i .divZero none s

/-! ## What raises no ArithmeticFault (R259) -/

/-- An answer other than ArithmeticFault: another fault, no step, or a next state with the fault record as before. -/
inductive RaisesNoDivZero (i : Instr) (s : State) : Result State → Prop
  | raises {d : Detail} (hd : d ≠ .divZero) (v : Option Word) : RaisesNoDivZero i s (raiseIn i d v s)
  | stuck (e : Fault) : RaisesNoDivZero i s (.fault e)
  | keeps {t : State} (h : t.fault = s.fault) : RaisesNoDivZero i s (.next t)

section
variable {i : Instr} {s : State}

theorem raisesNoDivZero_transfer (t : Word) {s' : State} (h : s'.fault = s.fault) :
    RaisesNoDivZero i s (transfer i t s s') := by
  unfold transfer
  split
  · exact .raises (by decide) _
  · exact .keeps h

theorem raisesNoDivZero_branch (c : Bool) (imm : BitVec 13) : RaisesNoDivZero i s (branch i c imm s) := by
  cases c
  · exact .keeps rfl
  · exact raisesNoDivZero_transfer _ rfl

theorem raisesNoDivZero_loadAt (n : AccessSize) (ext : BitVec n.bits → Word) (rd : RegIdx) (ea : Word) :
    RaisesNoDivZero i s (loadAt i n ext rd ea s) := by
  unfold loadAt
  split
  · exact .raises (by decide) _
  · split
    · exact .keeps rfl
    · exact .stuck _

theorem raisesNoDivZero_storeAt (n : AccessSize) (v ea : Word) : RaisesNoDivZero i s (storeAt i n v ea s) := by
  unfold storeAt
  split
  · exact .raises (by decide) _
  · split
    · split
      · exact .raises (by decide) _
      · exact .keeps rfl
    · split
      · exact .keeps rfl
      · exact .stuck _

theorem csrCheck_ne_divZero (a : CsrAddr) (w : Bool) : csrCheck a w s ≠ .error .divZero := by
  obtain ⟨-, hc⟩ | ⟨e, -, ⟨-, hc⟩ | ⟨-, -, -, hc⟩ | ⟨-, -, hc⟩⟩ := csrCheck_cases a w s <;> rw [hc] <;> simp

theorem raisesNoDivZero_csrAccess (rd : RegIdx) (a : CsrAddr) (w : Bool) (new : Word → Word) :
    RaisesNoDivZero i s (csrAccess i rd a w new s) := by
  cases hc : csrCheck a w s with
  | error d =>
    rw [csrAccess_error hc]
    exact .raises (fun hd => csrCheck_ne_divZero a w (hd ▸ hc)) _
  | ok e =>
    rw [csrAccess_ok hc]
    cases w <;> exact .keeps rfl

theorem exec_csr_raisesNoDivZero (hi : i.accessesCsr = true) : RaisesNoDivZero i s (exec i s) := by
  obtain ⟨rd, a, w, new, hexec, -⟩ := exec_eq_csrAccess hi
  rw [hexec]
  exact raisesNoDivZero_csrAccess ..

theorem raisesNoDivZero_ecall : RaisesNoDivZero i s (execEcall s) := by
  have hw := works_consultEnv s
  unfold execEcall
  split
  · next code s' h =>
    rw [h] at hw
    exact .keeps hw.fault
  · next ws s' h =>
    rw [h] at hw
    exact .keeps (hw.trans (works_applyEnvWrites ws s')).fault

/-- Of the 55 instructions only the four divisions can raise ArithmeticFault. -/
theorem exec_divides_or_raisesNoDivZero (i : Instr) (s : State) :
    (∃ rd rs1 rs2, i ∈ [Instr.div rd rs1 rs2, .divu rd rs1 rs2, .rem rd rs1 rs2, .remu rd rs1 rs2]) ∨
      RaisesNoDivZero i s (exec i s) := by
  cases i with
  | div rd rs1 rs2 | divu rd rs1 rs2 | rem rd rs1 rs2 | remu rd rs1 rs2 => exact .inl ⟨rd, rs1, rs2, by simp⟩
  | lui | auipc | addi | slti | sltiu | xori | ori | andi | slli | srli | srai | add | sub | sll | slt | sltu | xor | srl
  | sra | or | and | mul | mulh | mulhsu | mulhu | fence | fenceI => exact .inr (.keeps rfl)
  | jal | jalr => exact .inr (raisesNoDivZero_transfer _ rfl)
  | beq | bne | blt | bge | bltu | bgeu => exact .inr (raisesNoDivZero_branch ..)
  | lb | lh | lw | lbu | lhu => exact .inr (raisesNoDivZero_loadAt ..)
  | sb | sh | sw => exact .inr (raisesNoDivZero_storeAt ..)
  | csrrw | csrrs | csrrc | csrrwi | csrrsi | csrrci => exact .inr (exec_csr_raisesNoDivZero rfl)
  | ecall => exact .inr raisesNoDivZero_ecall
  | ebreak => exact .inr (.raises (by decide) _)

theorem detail_eq_divZero {d : Detail} (h : d.kind = .arithmeticFault) : d = .divZero := by
  cases d with
  | divZero => rfl
  | _ => cases h

/-- An instruction that raises no ArithmeticFault leaves no record of one. -/
theorem RaisesNoDivZero.kind_ne {r : Result State} (h : RaisesNoDivZero i s r) (hs : s.fault = none) {t : State}
    (hr : r = .next t) {f : FaultRecord} (hf : t.fault = some f) : f.kind ≠ .arithmeticFault := by
  cases h with
  | raises hd v => cases hr; cases hf; exact fun hk => hd (detail_eq_divZero hk)
  | stuck => cases hr
  | keeps hkeep => cases hr; cases (hkeep.trans hs).symm.trans hf

end

/-! ## The obligations -/

/-- Settles O37: the products fit in 64 bits, so that the narrowed quotient by 2^32 is the floor. -/
theorem multiplyResults : Obligations.MultiplyResults := by
  intro s rd rs1 rs2 a b
  refine ⟨⟨decode_encode (i := .mul rd rs1 rs2) rfl, writeAndRetire_writes ?_ rd s⟩,
    ⟨decode_encode (i := .mulh rd rs1 rs2) rfl, writeAndRetire_writes_such ?_ rd s⟩,
    ⟨decode_encode (i := .mulhsu rd rs1 rs2) rfl, writeAndRetire_writes_such ?_ rd s⟩,
    decode_encode (i := .mulhu rd rs1 rs2) rfl, writeAndRetire_writes_such (mulHighUnsigned_floor a b) rd s⟩
  · rw [BitVec.ofInt_mul, BitVec.ofInt_toInt, BitVec.ofInt_toInt, mulLow]
  · exact ofInt_ediv_floor (toInt_mul_bounds a (abs_toInt_lt b))
  · exact ofInt_ediv_floor (toInt_mul_bounds a (abs_toNat_lt b))

/-- Settles O38: each handler is one `divide`, and each result one of the four quotients and remainders. -/
theorem divideResults : Obligations.DivideResults := by
  intro s rd rs1 rs2 a b
  refine ⟨fun p hp => ⟨?_, fun hc hb => exec_zero_divisor (List.mem_map_of_mem (f := Prod.snd) hp) hc hb⟩,
    fun hn => ⟨divide_writes_such hn ⟨fun hb => if_pos hb, quotientSigned_of_overflow, toInt_quotientSigned⟩,
      divide_writes_such hn ⟨fun hb => if_pos hb, toNat_quotientUnsigned a⟩,
      divide_writes_such hn ⟨fun hb => if_pos hb, remainderSigned_of_overflow, fun _ _ => toInt_remainderSigned_eq_sub a b⟩,
      divide_writes_such hn ⟨fun hb => if_pos hb, fun _ => toNat_remainderUnsigned a b⟩⟩⟩
  simp only [List.mem_cons, List.not_mem_nil, or_false] at hp
  obtain rfl | rfl | rfl | rfl := hp
  · exact decode_encode (i := .div rd rs1 rs2) rfl
  · exact decode_encode (i := .divu rd rs1 rs2) rfl
  · exact decode_encode (i := .rem rd rs1 rs2) rfl
  · exact decode_encode (i := .remu rd rs1 rs2) rfl

/-- Settles O39, from the identity of the integers, read modulo 2^32 where the quotient does not fit. -/
theorem quotientAndRemainderAgree : Obligations.QuotientAndRemainderAgree := by
  intro s rd rs1 rs2 hrd hc a b
  obtain ⟨t, ht, hq⟩ : ∃ t, exec (.div rd rs1 rs2) s = .next t ∧ readReg rd t = quotientSigned a b := divide_leaves hc hrd
  obtain ⟨u, hu, hr⟩ : ∃ u, exec (.rem rd rs1 rs2) s = .next u ∧ readReg rd u = remainderSigned a b := divide_leaves hc hrd
  obtain ⟨t', ht', hq'⟩ : ∃ t, exec (.divu rd rs1 rs2) s = .next t ∧ readReg rd t = quotientUnsigned a b :=
    divide_leaves hc hrd
  obtain ⟨u', hu', hr'⟩ : ∃ u, exec (.remu rd rs1 rs2) s = .next u ∧ readReg rd u = remainderUnsigned a b :=
    divide_leaves hc hrd
  refine ⟨⟨t, u, ht, hu, ?_⟩, t', u', ht', hu', ?_⟩
  · rw [hq, hr]
    refine ⟨quotientSigned_mul_add_remainderSigned a b,
      fun hb => ⟨natAbs_remainderSigned_lt a hb, remainderSigned_nonneg b, remainderSigned_nonpos b⟩, fun hb ho => ?_⟩
    rw [toInt_quotientSigned hb ho, toInt_remainderSigned, Int.tdiv_mul_add_tmod]
  · intro hb
    have hpos : 0 < b.toNat := Nat.pos_of_ne_zero fun h => hb (BitVec.eq_of_toNat_eq h)
    rw [hq', hr', toNat_quotientUnsigned a hb, toNat_remainderUnsigned]
    exact ⟨(Nat.div_add_mod' ..).symm, Nat.mod_lt _ hpos⟩

/-- Settles O40: a division faults on nothing but a zero divisor, and no other instruction raises ArithmeticFault. -/
theorem arithmeticFaultOnlyOnZeroDivisor : Obligations.ArithmeticFaultOnlyOnZeroDivisor := by
  refine fun s rd rs1 rs2 => ⟨fun hc hb i hi => exec_zero_divisor hi hc hb, fun i t f hs h hf hk => ?_⟩
  obtain ⟨qd, q1, q2, hi⟩ | hno := exec_divides_or_raisesNoDivZero i s
  · obtain ⟨v, hexec⟩ := exec_eq_divide hi s
    obtain ⟨hc, hb, rfl⟩ := divide_fault (hexec.symm.trans h) (by rw [hf, hs]; exact Option.some_ne_none f)
    cases hf
    exact ⟨hc, rfl, qd, q1, q2, hb, hi⟩
  · exact absurd hk (hno.kind_ne hs h hf)

end Sys2Proof.Machine
end

section
/-!
PROOFS. The taxonomy (60_exceptions.md R270, R271, R273, R288) and the outputs of a run (R290): what `RunInv` says of every state that
a run from setup reaches.
-/

namespace Sys2Proof.Machine

/-- Every state of a run from setup meets the invariant. -/
theorem runInv_of_run {p : SetupInputs} {s t : State} {k : Nat} (hs : setup p = .ok s) (h : simulate k s = .next t) :
    RunInv t :=
  simulate_keeps (fun hu hstep => hu.step hstep) (runInv_of_setup hs) h

/-- The CSR File's internal status is the kind of no detail (R273). -/
theorem Detail.kind_ne_unavailableCsr (d : Detail) : d.kind ≠ .unavailableCsr := by
  cases d <;> decide

/-- An absent CSR's internal status, and what the CSR boundary translates it to (R273). -/
theorem csrLookup_csrCheck_absent {a : CsrAddr} {s : State} (w : Bool) (h : ∀ e ∈ s.csrs, e.entry.addr ≠ a.toNat) :
    csrLookup a s = .error .unavailableCsr ∧ csrCheck a w s = .error .csrUnavailable := by
  obtain htranslated | ⟨e, hl, -⟩ := csrCheck_cases a w s
  · exact htranslated
  · obtain ⟨he, haddr⟩ := csrLookup_ok hl
    exact absurd haddr (h e he)

/-- Once a run has ended, a Reason is there, and each output exactly with its own Reason (R290). -/
theorem OutputsValid.of_halted {s : State} (h : OutputsValid s) (hr : s.runState = .halted) :
    ∃ r, s.reason = some r ∧ (s.exitCode ≠ none ↔ r = .normalTermination) ∧ (s.fault ≠ none ↔ r = .exception) := by
  obtain ⟨-, hhalted, hexit, hfault⟩ := h
  obtain ⟨r, hreason⟩ := Option.ne_none_iff_exists'.mp (hhalted hr)
  rw [hreason, Option.some.injEq] at hexit hfault
  exact ⟨r, hreason, hexit, hfault⟩

/-- Settles O26: along a run a record's kind is its detail's, and no detail has the kind `unavailableCsr`. -/
theorem unavailableCsrIsNeverReported : Obligations.UnavailableCsrIsNeverReported := by
  refine ⟨fun _ w _ habsent => csrLookup_csrCheck_absent w habsent, rfl, rfl, fun p s t k hs h f hf => ?_⟩
  obtain ⟨-, hkind⟩ := (runInv_of_run hs h).faults f hf
  exact ⟨hkind, hkind ▸ f.detail.kind_ne_unavailableCsr⟩

/-- Settles O27, from the outputs that the invariant of a run gives while it goes on and once it has ended. -/
theorem outputsAreValidPerReason : Obligations.OutputsAreValidPerReason := by
  intro p s t k hs h
  have hinv : RunInv t := runInv_of_run hs h
  exact ⟨hinv.outputs.of_running, hinv.outputs.of_halted⟩

/-- Settles O28, by evaluating the tables. -/
theorem taxonomyTables : Obligations.TaxonomyTables :=
  ⟨rfl, rfl, rfl, rfl, rfl, rfl, rfl⟩

end Sys2Proof.Machine
end

section
/-!
PROOFS. The statements about run setup and the counter reads (70_reset_and_hazards.md R310, R318; 10_state.md R39): one read of a counter
entry, and what the next read finds.
-/

namespace Sys2Proof.Machine

section
variable {s t : State} {a : CsrAddr} {e : CsrReg} {rd : RegIdx} {v nextPc : Word}

/-- `steps64` counts the retired steps, modulo `2^64` (R39, R44): the clause `counters` of `RunInv`. -/
abbrev CountsSteps (s : State) : Prop := s.steps64 = BitVec.ofNat 64 s.stepCount

theorem RetiredAt.countsSteps (h : RetiredAt nextPc s t) (hs : CountsSteps s) : CountsSteps t := by
  rw [CountsSteps, h.steps64, h.stepCount, hs]
  exact (BitVec.ofNat_add ..).symm

theorem CsrEntryAt.congr_csrs (h : CsrEntryAt a s e) (ht : t.csrs = s.csrs) : CsrEntryAt a t e where
  wf := ht ▸ h.wf
  mem := ht ▸ h.mem
  addr := h.addr

/-- The low half of the counter is the number of retired steps modulo `2^32`, since `2^32` divides `2^64`. -/
theorem CsrReadsAs.eq_stepCount (h : CsrReadsAs e s v) (hlo : e.entry.update = .stepsLo) (hs : CountsSteps s) :
    v = BitVec.ofNat 32 s.stepCount := by
  simp only [CsrReadsAs, hlo] at h
  rw [h, hs, BitVec.ofNat_toNat, BitVec.setWidth_ofNat_of_le (by decide)]

/-- A read of a counter entry writes the number of instructions retired before it, and nothing else but the retirement (R318). -/
theorem CsrEntryAt.csrrs_reads_stepCount (h : CsrEntryAt a s e) (hg : ¬ Gated e s) (hlo : e.entry.update = .stepsLo)
    (hs : CountsSteps s) (rd : RegIdx) :
    ∃ t, exec (.csrrs rd a 0#5) s = .next t ∧ WritesOnlyReg rd (BitVec.ofNat 32 s.stepCount) (s.pc + 4) s t := by
  obtain ⟨t, v, ht, hv, hw⟩ :=
    h.access_reads hg (i := .csrrs rd a 0#5) (rd := rd) (new := fun old => old ||| readReg 0#5 s)
  exact ⟨t, ht, hv.eq_stepCount hlo hs ▸ hw⟩

theorem WritesOnlyReg.readReg_same (h : WritesOnlyReg rd v nextPc s t) (hrd : rd ≠ 0#5) : readReg rd t = v :=
  (h.regs rd).trans (if_pos ⟨rfl, hrd⟩)

end

/-- Settles O17: each check of run setup is a clause of the invariant, and the reset values give the rest. -/
theorem setupEstablishesTheInvariant : Obligations.SetupEstablishesTheInvariant :=
  fun _ _ => runInv_of_setup

/-- Settles O53: the first read retires and leaves the CSR File alone, so the second reads the same entry one step later. -/
theorem consecutiveCounterReadsDifferByOne : Obligations.ConsecutiveCounterReadsDifferByOne := by
  intro s csr e rd rd' he hg hlo hs hrd hrd'
  obtain ⟨t, ht, hst⟩ := he.csrrs_reads_stepCount hg hlo hs rd
  have hgt : ¬ Gated e t := by rwa [Gated, hst.retired.fixed.priv]
  obtain ⟨u, hu, htu⟩ :=
    (he.congr_csrs hst.csrs).csrrs_reads_stepCount hgt hlo (hst.retired.countsSteps hs) rd'
  refine ⟨t, u, ht, hu, hst.readReg_same hrd, ?_⟩
  rw [hst.readReg_same hrd, htu.readReg_same hrd', hst.retired.stepCount]
  exact BitVec.ofNat_add ..

end Sys2Proof.Machine
end
